-- ==== Sys2Proof/Word.lean ====
section
/-! DEFINITION. The words of BCA-CORE (00_scope.md R7, R12, R17): the 32-bit word, the byte, and the 64-element
tile. A Q16.16 value and a plain signed integer are the same 32 bits; `BitVec.toInt` is the spec's `sext_32` and
`BitVec.ofInt 32` its `lo_32` (R10). -/

namespace Sys2Proof

/-- A 32-bit word: CSRs, commands, tile elements, plane samples. -/
abbrev Word := BitVec 32

/-- One byte of DMEM. -/
abbrev Byte := BitVec 8

/-- 64 elements; element `8r + c` is row `r`, column `c` (R17). -/
abbrev Tile := Vector Word 64

/-- A quantisation table: 64 unsigned 16-bit entries in natural order (10_state.md R58). -/
abbrev QTable := Vector (BitVec 16) 64

/-- `ceil8(n) = (n + 7) div 8` (R10). -/
def ceil8 (n : Nat) : Nat := (n + 7) / 8

end Sys2Proof
end

