-- ==== Sys2Proof/Syntax.lean ====
section
/-! DEFINITION. The commands of BCA-CORE (30_encoding.md R103, R104): one constructor per row of
spec/opcode_table.json, with the operands the row uses. -/

namespace Sys2Proof

/-- A tile register number, 0..7 (10_state.md R30). -/
abbrev TReg := Fin 8

/-- The quantisation table a `t` field selects: 0 = QT_LUMA, 1 = QT_CHROMA (30_encoding.md R101). -/
inductive TableSel where
  | luma
  | chroma
  deriving DecidableEq, Repr

/-- The three channels (00_scope.md R19): Y = 0, Cb = 1, Cr = 2. -/
inductive Channel where
  | y
  | cb
  | cr
  deriving DecidableEq, Repr

/-- A command. `ch` is the two-bit channel field as it stands in the word; its value 3 is reserved (R101), which
`Instr.wellFormed` refuses. -/
inductive Instr where
  /-- END (op 0x00) -/
  | endList
  /-- NOP (op 0x01) -/
  | nop
  /-- CCF (op 0x02) -/
  | ccf
  /-- CCI (op 0x03) -/
  | cci
  /-- LDT Td, ch [, INC] (op 0x04) -/
  | ldt (rd : TReg) (ch : BitVec 2) (inc : Bool)
  /-- STT Ts, ch [, INC] (op 0x05) -/
  | stt (rs : TReg) (ch : BitVec 2) (inc : Bool)
  /-- FDCT Td, Ts (op 0x06) -/
  | fdct (rd rs : TReg)
  /-- IDCT Td, Ts (op 0x07) -/
  | idct (rd rs : TReg)
  /-- QNT Td, Ts, tbl (op 0x08) -/
  | qnt (rd rs : TReg) (t : TableSel)
  /-- DQNT Td, Ts, tbl (op 0x09) -/
  | dqnt (rd rs : TReg) (t : TableSel)
  /-- ZZS Td, Ts (op 0x0A) -/
  | zzs (rd rs : TReg)
  /-- ZZU Td, Ts (op 0x0B) -/
  | zzu (rd rs : TReg)
  /-- RLE Ts (op 0x0C) -/
  | rle (rs : TReg)
  /-- RLD Td (op 0x0D) -/
  | rld (rd : TReg)
  /-- ENCC ch, tbl (op 0x0E) -/
  | encc (ch : BitVec 2) (t : TableSel)
  /-- DECC ch, tbl (op 0x0F) -/
  | decc (ch : BitVec 2) (t : TableSel)
  deriving DecidableEq, Repr

end Sys2Proof
end

