-- ==== Sys2Proof/WellFormed.lean ====
section
/-! DEFINITION. Which terms of `Instr` are commands: the one check the syntax does not carry in its types, that a
channel field is not the reserved value 3 (30_encoding.md R101, R104, R105 (d)). -/

namespace Sys2Proof

/-- A channel field names a channel (30_encoding.md R101: "3 is reserved"). -/
def channelOk (ch : BitVec 2) : Bool := ch != 3#2

/-- The term is a command of 30_encoding.md R104. -/
def Instr.wellFormed : Instr → Bool
  | .endList | .nop | .ccf | .cci => true
  | .ldt _ ch _ | .stt _ ch _ => channelOk ch
  | .fdct _ _ | .idct _ _ | .qnt _ _ _ | .dqnt _ _ _ | .zzs _ _ | .zzu _ _ | .rle _ | .rld _ => true
  | .encc ch _ | .decc ch _ => channelOk ch

end Sys2Proof
end

