-- ==== Sys2Proof/Decode.lean ====
section
/-! DEFINITION. The decoder of 30_encoding.md R106, total on every 32-bit word, and the encoder from the field table of
R101 and the opcode map of R103. -/

namespace Sys2Proof

/-- Why a word is illegal: the four cases of 30_encoding.md R105. -/
inductive IllegalReason where
  /-- (a) `op` is in 0x10..0x3F -/
  | reservedOpcode
  /-- (b) bits [15:0] are not all zero -/
  | reservedBits
  /-- (c) a field the command does not use is not zero -/
  | unusedField
  /-- (d) the command uses `ch` and `ch = 3` -/
  | reservedChannel
  deriving DecidableEq, Repr

/-- The fields of a command word (30_encoding.md R101). -/
structure Fields where
  op : BitVec 6
  rd : BitVec 3
  rs : BitVec 3
  ch : BitVec 2
  t : BitVec 1
  inc : BitVec 1
  zero : BitVec 16
  deriving DecidableEq, Repr

/-- Which fields a command uses (the x marks of 30_encoding.md R103). -/
structure UsedFields where
  rd : Bool
  rs : Bool
  ch : Bool
  t : Bool
  inc : Bool
  deriving DecidableEq, Repr

/-- Cut a word into the fields of R101. -/
def fieldsOf (w : Word) : Fields :=
  { op := w.extractLsb' 26 6, rd := w.extractLsb' 23 3, rs := w.extractLsb' 20 3, ch := w.extractLsb' 18 2,
    t := w.extractLsb' 17 1, inc := w.extractLsb' 16 1, zero := w.extractLsb' 0 16 }

/-- The word with these fields (R101). -/
def packFields (f : Fields) : Word :=
  f.op ++ f.rd ++ f.rs ++ f.ch ++ f.t ++ f.inc ++ f.zero

/-- A register field names `T[n]` directly (R102). -/
def tregOf (n : BitVec 3) : TReg := n.toFin

/-- `t` selects the table (R102). -/
def tableOf (t : BitVec 1) : TableSel := if t = 1#1 then .chroma else .luma

/-- `inc` is a flag (R102). -/
def flagOf (b : BitVec 1) : Bool := b == 1#1

/-- The command an opcode names, with its operands (R103, R104); `none` for op 0x10..0x3F. -/
def instrOf (f : Fields) : Option Instr :=
  match f.op.toNat with
  | 0x00 => some .endList
  | 0x01 => some .nop
  | 0x02 => some .ccf
  | 0x03 => some .cci
  | 0x04 => some (.ldt (tregOf f.rd) f.ch (flagOf f.inc))
  | 0x05 => some (.stt (tregOf f.rs) f.ch (flagOf f.inc))
  | 0x06 => some (.fdct (tregOf f.rd) (tregOf f.rs))
  | 0x07 => some (.idct (tregOf f.rd) (tregOf f.rs))
  | 0x08 => some (.qnt (tregOf f.rd) (tregOf f.rs) (tableOf f.t))
  | 0x09 => some (.dqnt (tregOf f.rd) (tregOf f.rs) (tableOf f.t))
  | 0x0A => some (.zzs (tregOf f.rd) (tregOf f.rs))
  | 0x0B => some (.zzu (tregOf f.rd) (tregOf f.rs))
  | 0x0C => some (.rle (tregOf f.rs))
  | 0x0D => some (.rld (tregOf f.rd))
  | 0x0E => some (.encc f.ch (tableOf f.t))
  | 0x0F => some (.decc f.ch (tableOf f.t))
  | _ => none

/-- The x marks of R103. -/
def Instr.usedFields : Instr → UsedFields
  | .endList | .nop | .ccf | .cci => ⟨false, false, false, false, false⟩
  | .ldt _ _ _ => ⟨true, false, true, false, true⟩
  | .stt _ _ _ => ⟨false, true, true, false, true⟩
  | .fdct _ _ | .idct _ _ | .zzs _ _ | .zzu _ _ => ⟨true, true, false, false, false⟩
  | .qnt _ _ _ | .dqnt _ _ _ => ⟨true, true, false, true, false⟩
  | .rle _ => ⟨false, true, false, false, false⟩
  | .rld _ => ⟨true, false, false, false, false⟩
  | .encc _ _ | .decc _ _ => ⟨false, false, true, true, false⟩

/-- Some field outside `u` is not zero (R105 (c)). -/
def unusedFieldSet (f : Fields) (u : UsedFields) : Bool :=
  (f.rd != 0#3 && !u.rd) || (f.rs != 0#3 && !u.rs) || (f.ch != 0#2 && !u.ch) || (f.t != 0#1 && !u.t)
    || (f.inc != 0#1 && !u.inc)

/-- The decode procedure of R106. -/
def decode (w : Word) : Except IllegalReason Instr :=
  let f := fieldsOf w
  match instrOf f with
  | none => .error .reservedOpcode
  | some i =>
    if f.zero ≠ 0#16 then .error .reservedBits
    else if unusedFieldSet f i.usedFields then .error .unusedField
    else if i.wellFormed then .ok i
    else .error .reservedChannel

/-- The opcode of R103. -/
def Instr.opcode : Instr → BitVec 6
  | .endList => 0x00#6
  | .nop => 0x01#6
  | .ccf => 0x02#6
  | .cci => 0x03#6
  | .ldt _ _ _ => 0x04#6
  | .stt _ _ _ => 0x05#6
  | .fdct _ _ => 0x06#6
  | .idct _ _ => 0x07#6
  | .qnt _ _ _ => 0x08#6
  | .dqnt _ _ _ => 0x09#6
  | .zzs _ _ => 0x0A#6
  | .zzu _ _ => 0x0B#6
  | .rle _ => 0x0C#6
  | .rld _ => 0x0D#6
  | .encc _ _ => 0x0E#6
  | .decc _ _ => 0x0F#6

/-- A register number as a 3-bit field. -/
def regField (r : TReg) : BitVec 3 := BitVec.ofFin r

/-- A table selection as a 1-bit field. -/
def tableField : TableSel → BitVec 1
  | .luma => 0#1
  | .chroma => 1#1

/-- A flag as a 1-bit field. -/
def flagField (b : Bool) : BitVec 1 := BitVec.ofBool b

/-- The fields of a command: the operands it uses, zero elsewhere (R103: "A field a command does not use must be
zero"). -/
def Instr.fields (i : Instr) : Fields :=
  let z : Fields := { op := i.opcode, rd := 0, rs := 0, ch := 0, t := 0, inc := 0, zero := 0 }
  match i with
  | .endList | .nop | .ccf | .cci => z
  | .ldt rd ch inc => { z with rd := regField rd, ch := ch, inc := flagField inc }
  | .stt rs ch inc => { z with rs := regField rs, ch := ch, inc := flagField inc }
  | .fdct rd rs | .idct rd rs | .zzs rd rs | .zzu rd rs => { z with rd := regField rd, rs := regField rs }
  | .qnt rd rs t | .dqnt rd rs t => { z with rd := regField rd, rs := regField rs, t := tableField t }
  | .rle rs => { z with rs := regField rs }
  | .rld rd => { z with rd := regField rd }
  | .encc ch t | .decc ch t => { z with ch := ch, t := tableField t }

/-- The command word of an instruction (R101, R104). -/
def encode (i : Instr) : Word := packFields i.fields

/-- The host's question about one row of spec/opcode_table.json: a command is one word (R100), so bits above the
32nd belong to no command. -/
def decodeTableWord (nbits w : Nat) : Option Instr :=
  match decode (BitVec.ofNat 32 (w % 2 ^ nbits)) with
  | .ok i => some i
  | .error _ => none

end Sys2Proof
end

