-- ==== Sys2Proof/Config.lean ====
section
/-! DEFINITION. What an implementation of BCA-CORE fixes (its two size parameters, 00_scope.md R7, R8) and the
values the spec leaves open (93_implementation_defined.md U3, U4, U6). A free value has no body: nothing in Lean can
evaluate it, so a claim about it holds whatever it is. -/

namespace Sys2Proof

/-- The two model parameters of 00_scope.md R7. A machine never changes them. -/
structure Params where
  /-- `DMEM_BYTES`, read at the CSR DMEMSIZE. -/
  dmemBytes : Nat
  /-- `N_CMD`, read at the CSR CMDSIZE. -/
  nCmd : Nat
  deriving DecidableEq, Repr

/-- The defaults of 00_scope.md R7: 4 MiB and 1024 words (log 4). -/
def Params.standard : Params := { dmemBytes := 0x0040_0000, nCmd := 1024 }

/-- The range 00_scope.md R7 gives the parameters: `DMEM_BYTES` a multiple of 4 and at most 16 MiB, `N_CMD` in
1..4096. -/
abbrev Params.Legal (p : Params) : Prop :=
  p.dmemBytes % 4 = 0 ∧ p.dmemBytes ≤ 0x0100_0000 ∧ 1 ≤ p.nCmd ∧ p.nCmd ≤ 4096

/-- FREE VALUE. A 32-bit value the spec leaves unspecified: read data of a host read while busy (U4), RLE_PTR after a
mid-command stream error (U6). The argument is the state's draw counter (log 7). -/
opaque Config.freeWord : Nat → Word

/-- FREE VALUE. A DMEM byte left unspecified by a mid-command stream error (U6): draw counter, then address (log 8). -/
opaque Config.freeByte : Nat → Nat → Byte

/-- FREE VALUE. STATUS.OVF after a mid-command stream error (U6): draw counter (log 8). -/
opaque Config.freeBit : Nat → Bool

/-- FREE VALUE. What a tile element that nothing has written since reset is read as (U3): how many resets the machine
has seen, the register number, the element number (log 1). -/
opaque Config.tileAtReset : Nat → Nat → Nat → Word

end Sys2Proof
end

