-- ==== Sys2Proof/Machine/ResetTables.lean ====
section
/-! DEFINITION. The reset contents of the two quantisation tables (10_state.md R60), row-major, entry 0 first. -/

namespace Sys2Proof.Machine

/-- QT_LUMA after reset (10_state.md R60). -/
def qtLumaReset : QTable :=
  #v[16#16, 11#16, 10#16, 16#16, 24#16, 40#16, 51#16, 61#16,
     12#16, 12#16, 14#16, 19#16, 26#16, 58#16, 60#16, 55#16,
     14#16, 13#16, 16#16, 24#16, 40#16, 57#16, 69#16, 56#16,
     14#16, 17#16, 22#16, 29#16, 51#16, 87#16, 80#16, 62#16,
     18#16, 22#16, 37#16, 56#16, 68#16, 109#16, 103#16, 77#16,
     24#16, 35#16, 55#16, 64#16, 81#16, 104#16, 113#16, 92#16,
     49#16, 64#16, 78#16, 87#16, 103#16, 121#16, 120#16, 101#16,
     72#16, 92#16, 95#16, 98#16, 112#16, 100#16, 103#16, 99#16]

/-- QT_CHROMA after reset (10_state.md R60). -/
def qtChromaReset : QTable :=
  #v[17#16, 18#16, 24#16, 47#16, 99#16, 99#16, 99#16, 99#16,
     18#16, 21#16, 26#16, 66#16, 99#16, 99#16, 99#16, 99#16,
     24#16, 26#16, 56#16, 99#16, 99#16, 99#16, 99#16, 99#16,
     47#16, 66#16, 99#16, 99#16, 99#16, 99#16, 99#16, 99#16,
     99#16, 99#16, 99#16, 99#16, 99#16, 99#16, 99#16, 99#16,
     99#16, 99#16, 99#16, 99#16, 99#16, 99#16, 99#16, 99#16,
     99#16, 99#16, 99#16, 99#16, 99#16, 99#16, 99#16, 99#16,
     99#16, 99#16, 99#16, 99#16, 99#16, 99#16, 99#16, 99#16]

end Sys2Proof.Machine
end

