-- ==== Sys2Proof/Machine/State.lean ====
section
/-! DEFINITION. Everything the spec gives the machine, as plain data: the architectural state of 10_state.md, the two
memories of 20_memory.md, the reset pin, and the environment's list of what happens next. -/

namespace Sys2Proof.Machine

/-- The error codes of 60_exceptions.md R260. No other value of ERRCODE exists (93_implementation_defined.md U12). -/
inductive ErrCode where
  | eNone
  | eIllegal
  | eDim
  | eAddr
  | eAlign
  | eQtZero
  | eTIdx
  | eTCount
  | eRleFull
  | eRleTrunc
  | ePcRange
  | eAborted
  deriving DecidableEq, Repr

/-- The model faults of 60_exceptions.md R275: behaviour the spec leaves unspecified and asks a model to stop at. They
are not hardware errors. All are SAFE: the hardware goes on where the model stops. -/
inductive Fault where
  /-- F_UNWRITTEN for a CMDMEM word (10_state.md R61): raised by the sequencer's fetch and by a host read. Safe. -/
  | unwrittenCommand
  /-- F_UNWRITTEN for a DMEM byte (10_state.md R62): raised by CCF, CCI, LDT, RLD, ENCC, DECC and by a host read. Safe. -/
  | unwrittenData
  /-- F_OVERLAP (20_memory.md R84): raised by CCF, CCI, ENCC, DECC. Safe. -/
  | overlap
  deriving DecidableEq, Repr

/-- Why the model would have no meaning for an instruction. No arm of `exec` answers it: every command of the table has
its meaning. -/
inductive Refusal where
  /-- Raised by an arm of `exec` for an instruction without a meaning; none is left. Safe. -/
  | notModelled (mnemonic : String)
  deriving DecidableEq, Repr

/-- The width of a host access. Only the 32-bit one is served (20_memory.md R73). -/
inductive AccessSize where
  | byte
  | half
  | word
  deriving DecidableEq, Repr

/-- One access of the host at a 25-bit byte address of the port (20_memory.md R70, R73). -/
inductive HostAccess where
  | read (size : AccessSize) (addr : BitVec 25)
  | write (size : AccessSize) (addr : BitVec 25) (data : Word)
  deriving DecidableEq, Repr

/-- What the environment does next (log 6). -/
inductive HostEvent where
  /-- the host performs one access, whole (20_memory.md R88) -/
  | access (a : HostAccess)
  /-- the sequencer takes one step before the next event -/
  | sequencer
  /-- `rst_n` falls (70_reset_and_hazards.md R291, R292) -/
  | resetLow
  /-- `rst_n` rises -/
  | resetHigh
  deriving DecidableEq, Repr

/-- The port's answer to the last host access (log 17). -/
inductive HostResponse where
  /-- no access has been made since reset -/
  | noneYet
  /-- a read completed with this data -/
  | readOk (data : Word)
  /-- a write completed -/
  | writeOk
  /-- an error response; the data of a read so answered is unspecified, so none is given (20_memory.md R73) -/
  | slverr
  /-- an access while `rst_n` is low: its response is unspecified (70_reset_and_hazards.md R291) -/
  | unspecified
  deriving DecidableEq, Repr

/-- A sparse memory: its written cells, by strictly rising key. A key that is not listed has no value. -/
abbrev Cells (α : Type) := List (Nat × α)

/-- DMEM: byte cells (20_memory.md R70). An unlisted address holds no value (10_state.md R62, log 2). -/
abbrev Memory := List Host.Cell

/-- CMDMEM: word cells by index (20_memory.md R76). An unlisted index holds no value (10_state.md R61, log 3). -/
abbrev CmdMemory := Cells Word

/-- The canonical form of a sparse memory: keys strictly rising, so no key twice. -/
abbrev Cells.wf {α : Type} (m : Cells α) : Prop := m.Pairwise (fun x y => x.1 < y.1)

/-- The canonical form of DMEM. -/
abbrev Memory.wf (m : Memory) : Prop := Cells.wf m

/-- One tile register (10_state.md R30): 64 words, and which of them have been written since reset (R33). Read through
`State.tileElem` only. -/
structure TileReg where
  vals : Tile
  written : Vector Bool 64
  deriving DecidableEq, Repr

/-- A tile register after reset: every element unwritten (70_reset_and_hazards.md R290); the stored 0 is the model's
(log 1) and no accessor answers it. -/
def TileReg.unwritten : TileReg := { vals := Vector.replicate 64 0#32, written := Vector.replicate 64 false }

/-- The state of BCA-CORE. -/
structure State where
  /-- DMEM_BYTES and N_CMD; no step writes them (log 4) -/
  params : Params
  /-- what the environment does next, oldest first (log 6); the model's own -/
  host : List HostEvent
  /-- the port's last answer (log 17); the model's own -/
  resp : HostResponse
  /-- how many free values have been drawn (log 7); the model's own -/
  draws : Nat
  /-- how many resets there have been (log 7); the model's own -/
  resets : Nat
  /-- the level of `rst_n` (70_reset_and_hazards.md R291) -/
  rstN : Bool
  /-- T0..T7 (R30) -/
  tiles : Vector TileReg 8
  /-- PC (R34) -/
  pc : Word
  /-- STATUS.BUSY (R40) -/
  busy : Bool
  /-- STATUS.ERR (R40) -/
  err : Bool
  /-- STATUS.OVF (R45) -/
  ovf : Bool
  /-- STATUS.HACC (R46) -/
  hacc : Bool
  /-- STATUS.ABORTPEND (R40) -/
  abortPend : Bool
  /-- ERRCODE (R41) -/
  errCode : ErrCode
  /-- ERRPC (R42) -/
  errPc : Word
  /-- IE.DONE_IE (R43) -/
  doneIe : Bool
  /-- IE.ERR_IE (R43) -/
  errIe : Bool
  /-- IS.DONE (R44) -/
  isDone : Bool
  /-- IS.ERR (R44) -/
  isErr : Bool
  /-- WIDTH (R48) -/
  width : Word
  /-- HEIGHT (R48) -/
  height : Word
  /-- PIX_BASE (R50) -/
  pixBase : Word
  /-- PLANE_BASE0 (R51) -/
  planeBase0 : Word
  /-- PLANE_BASE1 (R51) -/
  planeBase1 : Word
  /-- PLANE_BASE2 (R51) -/
  planeBase2 : Word
  /-- RLE_PTR (R52) -/
  rlePtr : Word
  /-- RLE_LIMIT (R53) -/
  rleLimit : Word
  /-- TCOUNT0 (R54) -/
  tcount0 : Word
  /-- TCOUNT1 (R54) -/
  tcount1 : Word
  /-- TCOUNT2 (R54) -/
  tcount2 : Word
  /-- TIDX (R55) -/
  tidx : Word
  /-- QT_LUMA (R58) -/
  qtLuma : QTable
  /-- QT_CHROMA (R58) -/
  qtChroma : QTable
  /-- CMDMEM (R61) -/
  cmdmem : CmdMemory
  /-- DMEM (R62) -/
  dmem : Memory
  deriving DecidableEq, Repr

/-- The state after reset, for given parameters (70_reset_and_hazards.md R290). -/
def State.atReset (p : Params) : State :=
  { params := p, host := [], resp := .noneYet, draws := 0, resets := 0, rstN := true,
    tiles := Vector.replicate 8 TileReg.unwritten, pc := 0,
    busy := false, err := false, ovf := false, hacc := false, abortPend := false,
    errCode := .eNone, errPc := 0, doneIe := false, errIe := false, isDone := false, isErr := false,
    width := 0, height := 0, pixBase := 0, planeBase0 := 0, planeBase1 := 0, planeBase2 := 0,
    rlePtr := 0, rleLimit := 0, tcount0 := 0, tcount1 := 0, tcount2 := 0, tidx := 0,
    qtLuma := qtLumaReset, qtChroma := qtChromaReset, cmdmem := [], dmem := [] }

/-- The machine right after reset, with the default parameters of 00_scope.md R7 (log 4). -/
def State.reset : State := State.atReset Params.standard

end Sys2Proof.Machine
end

