-- ==== Sys2Proof/Machine/Ops.lean ====
section
/-! DEFINITION. The named operations every command shares: the sparse memories, big-endian accesses, the checks made in
order, and how a command ends: completing, raising an error (60_exceptions.md R262, R266) or ending the run (R263).
Together with the host's START (HostPort.lean), `stopError` is this hardware's exception entry; there is no handler and
no return command (R273). -/

namespace Sys2Proof.Machine

/-- What running a command answers. -/
abbrev Result := Host.Outcome State Fault Refusal

/-! ### Sparse memories -/

/-- The value at a key, if the key has been written. -/
def cellRead {α : Type} : Cells α → Nat → Option α
  | [], _ => none
  | (k, v) :: m, a => if a = k then some v else cellRead m a

/-- Write a key, keeping the keys strictly rising. -/
def cellWrite {α : Type} : Cells α → Nat → α → Cells α
  | [], a, v => [(a, v)]
  | (k, w) :: m, a, v =>
    if a < k then (a, v) :: (k, w) :: m
    else if a = k then (a, v) :: m
    else (k, w) :: cellWrite m a v

/-- `MemRead(a, n)` (00_scope.md R11): the `n` bytes at `a` as an unsigned big-endian integer (20_memory.md R75); `none`
if one of them is unwritten. -/
def readBE (m : Memory) (a : Nat) : Nat → Option Nat
  | 0 => some 0
  | n + 1 =>
    match readBE m a n, cellRead m (a + n) with
    | some hi, some b => some (hi * 256 + b.toNat)
    | _, _ => none

/-- `MemWrite(a, n, v)` (00_scope.md R11): the `n`-byte big-endian image of `v mod 2^(8n)` at `a` (20_memory.md R75). -/
def writeBE (m : Memory) (a : Nat) : Nat → Nat → Memory
  | 0, _ => m
  | n + 1, v => cellWrite (writeBE m a n (v / 256)) (a + n) (BitVec.ofNat 8 v)

/-- A 32-bit word of DMEM. -/
def readWord (m : Memory) (a : Nat) : Option Word := (readBE m a 4).map (BitVec.ofNat 32)

/-- Store a 32-bit word in DMEM. -/
def writeWord (m : Memory) (a : Nat) (w : Word) : Memory := writeBE m a 4 w.toNat

/-- Bytes in address order from `a` on. -/
def writeBytes (m : Memory) (a : Nat) : List Byte → Memory
  | [] => m
  | b :: bs => writeBytes (cellWrite m a b) (a + 1) bs

/-- Give the `n` bytes at `a` unspecified values (93_implementation_defined.md U6). -/
def havocBytes (draw : Nat) (m : Memory) (a : Nat) : Nat → Memory
  | 0 => m
  | n + 1 => havocBytes draw (cellWrite m a (Config.freeByte draw a)) (a + 1) n

/-! ### DMEM regions -/

/-- The byte addresses `lo ≤ a < hi`. -/
structure Region where
  lo : Nat
  hi : Nat
  deriving DecidableEq, Repr

/-- Two regions share a byte (20_memory.md R84). -/
def Region.overlaps (r q : Region) : Bool := max r.lo q.lo < min r.hi q.hi

/-- Stop with the model fault F_OVERLAP where the spec asks for it (20_memory.md R84, 60_exceptions.md R275). -/
def unlessOverlap (clash : Bool) (k : Result) : Result := if clash then .fault .overlap else k

/-- Go on with what DMEM holds, or stop with F_UNWRITTEN (10_state.md R62). -/
def withData {α : Type} (o : Option α) (k : α → Result) : Result :=
  match o with
  | none => .fault .unwrittenData
  | some a => k a

/-! ### How a step ends -/

/-- `PC <- PC + 1` (40_sequencer.md R123). -/
def State.advance (s : State) : State := { s with pc := s.pc + 1 }

/-- `stop_error(e)` (60_exceptions.md R266). -/
def State.stopError (s : State) (e : ErrCode) : State :=
  { s with errCode := e, errPc := s.pc, err := true, busy := false, abortPend := false, isErr := true }

/-- `stop_done()` (60_exceptions.md R263). -/
def State.stopDone (s : State) : State := { s with busy := false, abortPend := false, isDone := true }

/-- A command that completes without error (40_sequencer.md R121). -/
def complete (s : State) : Result := .next s.advance

/-- `raise e` (60_exceptions.md R262): the run stops with PC still at the command. -/
def raise (e : ErrCode) (s : State) : Result := .next (s.stopError e)

/-- The first check that fails, in order (60_exceptions.md R264). -/
def firstError : List (Bool × ErrCode) → Option ErrCode
  | [] => none
  | (failed, e) :: rest => if failed then some e else firstError rest

/-- Make a command's checks, then run the rest of it (00_scope.md R18). -/
def checked (checks : List (Bool × ErrCode)) (s : State) (k : Result) : Result :=
  match firstError checks with
  | some e => raise e s
  | none => k

end Sys2Proof.Machine
end

