-- ==== Sys2Proof/Machine/Flags.lean ====
section
/-! DEFINITION. Rounding, clamping and saturation (00_scope.md R14-R16), and the one arithmetic flag, STATUS.OVF
(10_state.md R45). -/

namespace Sys2Proof.Machine

/-- `RNE(p / q)` for `q > 0` (00_scope.md R14): nearest integer, ties to even. `/` is floor division. -/
def rne (p q : Int) : Int :=
  let f := p / q
  let r := p - f * q
  if 2 * r < q then f
  else if q < 2 * r then f + 1
  else if f % 2 = 0 then f else f + 1

/-- `clamp255` (00_scope.md R15). It sets no flag. -/
def clamp255 (n : Int) : Int := if n < 0 then 0 else if 255 < n then 255 else n

/-- The largest value of `sat_N` (00_scope.md R16). -/
def satMax (bits : Nat) : Int := 2 ^ (bits - 1) - 1

/-- The smallest value of `sat_N` (00_scope.md R16). -/
def satMin (bits : Nat) : Int := -(2 ^ (bits - 1))

/-- The value `sat_N(n)` returns (00_scope.md R16). -/
def sat (bits : Nat) (n : Int) : Int :=
  if n < satMin bits then satMin bits else if satMax bits < n then satMax bits else n

/-- `sat_N(n)` performs `OVF <- 1` (00_scope.md R16). -/
def saturates (bits : Nat) (n : Int) : Bool := n < satMin bits || satMax bits < n

/-- Some element of a tile has the property. -/
def anyElem (p : Fin 64 → Bool) : Bool := (List.finRange 64).any p

/-- The tile of the saturated elements. -/
def satTile (bits : Nat) (raw : Fin 64 → Int) : Tile := Vector.ofFn fun e => BitVec.ofInt 32 (sat bits (raw e))

/-- Some element saturated. -/
def satFlag (bits : Nat) (raw : Fin 64 → Int) : Bool := anyElem fun e => saturates bits (raw e)

/-- `if b: OVF <- 1`: the flag is sticky (10_state.md R45). -/
def State.orOvf (s : State) (b : Bool) : State := { s with ovf := s.ovf || b }

end Sys2Proof.Machine
end

