-- ==== Sys2Proof/Machine/Operands.lean ====
section
/-! DEFINITION. The operand forms of the commands (30_encoding.md R102): tile registers, the channel's CSRs, the
selected table, the plane and stream regions, and the checks that go with each (60_exceptions.md R264). -/

namespace Sys2Proof.Machine

/-! ### Tile registers -/

/-- The element number of row `r`, column `c` (00_scope.md R17). -/
def elemAt (r c : Fin 8) : Fin 64 := ⟨8 * r.val + c.val, by omega⟩

/-- The row of an element (00_scope.md R17). -/
def rowOf (e : Fin 64) : Fin 8 := ⟨e.val / 8, by omega⟩

/-- The column of an element (00_scope.md R17). -/
def colOf (e : Fin 64) : Fin 8 := ⟨e.val % 8, by omega⟩

/-- `T[i][e]` (10_state.md R30). An element that nothing has written since reset answers a free value (R33, log 1). -/
def State.tileElem (s : State) (i : TReg) (e : Fin 64) : Word :=
  if s.tiles[i].written[e] then s.tiles[i].vals[e] else Config.tileAtReset s.resets i.val e.val

/-- All 64 elements of `T[i]`. -/
def State.readTile (s : State) (i : TReg) : Tile := Vector.ofFn fun e => s.tileElem i e

/-- `T[i] <- V`: all 64 elements are written (00_scope.md R11). -/
def State.writeTile (s : State) (i : TReg) (t : Tile) : State :=
  { s with tiles := s.tiles.set i { vals := t, written := Vector.replicate 64 true } }

/-- `T[i][e] <- v`, as the host's tile window does (20_memory.md R72). -/
def State.writeElem (s : State) (i : TReg) (e : Fin 64) (v : Word) : State :=
  let reg : TileReg := { vals := s.tiles[i].vals.set e v, written := s.tiles[i].written.set e true }
  { s with tiles := s.tiles.set i reg }

/-! ### Quantisation tables -/

/-- `QT[t]` (30_encoding.md R102). -/
def State.qt (s : State) : TableSel → QTable
  | .luma => s.qtLuma
  | .chroma => s.qtChroma

/-- Some entry is 0 (44_quantizer.md R192). -/
def qtHasZero (q : QTable) : Bool := anyElem fun e => q[e] == 0#16

/-! ### Channels -/

/-- The channel a two-bit field names; 3 is reserved (30_encoding.md R101). -/
def channelOf (ch : BitVec 2) : Option Channel :=
  if ch = 0#2 then some .y else if ch = 1#2 then some .cb else if ch = 2#2 then some .cr else none

/-- Go on with the channel; a word with `ch = 3` is illegal (30_encoding.md R105 (d)). The decoder never yields it
(log 13). -/
def withChannel (ch : BitVec 2) (s : State) (k : Channel → Result) : Result :=
  match channelOf ch with
  | none => raise .eIllegal s
  | some c => k c

/-- `PLANE_BASE[ch]` (30_encoding.md R102). -/
def State.planeBase (s : State) : Channel → Word
  | .y => s.planeBase0
  | .cb => s.planeBase1
  | .cr => s.planeBase2

/-- `TCOUNT[ch]` (30_encoding.md R102). -/
def State.tcount (s : State) : Channel → Word
  | .y => s.tcount0
  | .cb => s.tcount1
  | .cr => s.tcount2

/-- `TCOUNT[ch] <- n`. -/
def State.setTcount (s : State) (c : Channel) (n : Word) : State :=
  match c with
  | .y => { s with tcount0 := n }
  | .cb => { s with tcount1 := n }
  | .cr => { s with tcount2 := n }

/-- `DMEM <- m`. -/
def State.setDmem (s : State) (m : Memory) : State := { s with dmem := m }

/-- `RLE_PTR <- lo_32(p)`. -/
def State.setRlePtr (s : State) (p : Nat) : State := { s with rlePtr := BitVec.ofNat 32 p }

/-- `if inc == 1: TIDX <- lo_32(TIDX + 1)` (10_state.md R55). -/
def State.bumpTidx (s : State) (inc : Bool) : State := { s with tidx := if inc then s.tidx + 1 else s.tidx }

/-! ### The image, its planes and tiles -/

/-- One plane in DMEM (20_memory.md R80): its base address and the image's dimensions. -/
structure Plane where
  base : Nat
  w : Nat
  h : Nat
  deriving DecidableEq, Repr

/-- Plane `c` as the CSRs place it. -/
def State.plane (s : State) (c : Channel) : Plane :=
  { base := (s.planeBase c).toNat, w := s.width.toNat, h := s.height.toNat }

/-- Number of pixels, `W*H`, exact (20_memory.md R79). -/
def State.pixels (s : State) : Nat := s.width.toNat * s.height.toNat

/-- The tile count `NT = ceil8(W) * ceil8(H)` (42_blockgrid.md R150). -/
def State.tileCount (s : State) : Nat := ceil8 s.width.toNat * ceil8 s.height.toNat

/-- The plane's region (20_memory.md R80). -/
def Plane.region (p : Plane) : Region := { lo := p.base, hi := p.base + 4 * (p.w * p.h) }

/-- The pixel buffer's region (20_memory.md R81). -/
def State.pixRegion (s : State) : Region :=
  { lo := s.pixBase.toNat, hi := s.pixBase.toNat + 3 * s.pixels }

/-- The run-length stream region `[RLE_PTR, RLE_LIMIT)` (20_memory.md R84). -/
def State.streamRegion (s : State) : Region := { lo := s.rlePtr.toNat, hi := s.rleLimit.toNat }

/-- Where sample (row `y`, column `x`) of a plane stands (20_memory.md R80). -/
def Plane.sampleAddr (p : Plane) (y x : Nat) : Nat := p.base + 4 * (y * p.w + x)

/-- The plane row of element `e` of tile `i` (42_blockgrid.md R150, R151). -/
def Plane.elemRow (p : Plane) (i : Nat) (e : Fin 64) : Nat := 8 * (i / ceil8 p.w) + (rowOf e).val

/-- The plane column of element `e` of tile `i` (42_blockgrid.md R150, R151). -/
def Plane.elemCol (p : Plane) (i : Nat) (e : Fin 64) : Nat := 8 * (i % ceil8 p.w) + (colOf e).val

/-- Where element `e` of tile `i` stands in DMEM; `none` in the padding (42_blockgrid.md R151). -/
def Plane.elemAddr (p : Plane) (i : Nat) (e : Fin 64) : Option Nat :=
  if p.elemRow i e < p.h ∧ p.elemCol i e < p.w then some (p.sampleAddr (p.elemRow i e) (p.elemCol i e)) else none

/-! ### Checks (60_exceptions.md R264) -/

/-- `WIDTH = 0 or HEIGHT = 0`. -/
def dimCheck (s : State) : Bool × ErrCode := (s.width == 0#32 || s.height == 0#32, .eDim)

/-- `PLANE_BASE[c] mod 4 != 0`. -/
def alignCheck (c : Channel) (s : State) : Bool × ErrCode := ((s.planeBase c).toNat % 4 != 0, .eAlign)

/-- `PLANE_BASE[c] + 4*W*H > DMEM_BYTES` (20_memory.md R79). -/
def planeCheck (c : Channel) (s : State) : Bool × ErrCode :=
  (decide (s.params.dmemBytes < (s.plane c).region.hi), .eAddr)

/-- `PIX_BASE + 3*W*H > DMEM_BYTES` (20_memory.md R79). -/
def pixCheck (s : State) : Bool × ErrCode := (decide (s.params.dmemBytes < s.pixRegion.hi), .eAddr)

/-- `RLE_LIMIT > DMEM_BYTES` (10_state.md R53). -/
def limitCheck (s : State) : Bool × ErrCode := (decide (s.params.dmemBytes < s.rleLimit.toNat), .eAddr)

/-- The selected table holds a 0 (44_quantizer.md R192). -/
def qtCheck (t : TableSel) (s : State) : Bool × ErrCode := (qtHasZero (s.qt t), .eQtZero)

/-- `TIDX >= NT` (42_blockgrid.md R152). -/
def tidxCheck (s : State) : Bool × ErrCode := (decide (s.tileCount ≤ s.tidx.toNat), .eTIdx)

/-- `TCOUNT[c] != NT` (46_pipeline.md R242). -/
def tcountCheck (c : Channel) (s : State) : Bool × ErrCode := ((s.tcount c).toNat != s.tileCount, .eTCount)

end Sys2Proof.Machine
end

