-- ==== Sys2Proof/Machine/ColorSpace.lean ====
section
/-! DEFINITION. The colour converter: CCF and CCI (41_colorspace.md). -/

namespace Sys2Proof.Machine

/-! ### The pixel functions -/

/-- Y of `toYCbCr(R, G, B)` (41_colorspace.md R130). -/
def lumaOf (r g b : Int) : Int := clamp255 (rne (299000 * r + 587000 * g + 114000 * b) 1000000)

/-- Cb of `toYCbCr(R, G, B)` (41_colorspace.md R130). -/
def cbOf (r g b : Int) : Int := clamp255 (rne (-168736 * r - 331264 * g + 500000 * b + 128000000) 1000000)

/-- Cr of `toYCbCr(R, G, B)` (41_colorspace.md R130). -/
def crOf (r g b : Int) : Int := clamp255 (rne (500000 * r - 418688 * g - 81312 * b + 128000000) 1000000)

/-- `o = 128 * 2^16` (41_colorspace.md R131). -/
def chromaZero : Int := 0x0080_0000

/-- `D = 1000000 * 2^16` (41_colorspace.md R131). -/
def rgbScale : Int := 1000000 * 2 ^ 16

/-- R of `toRGB(y, cb, cr)`, the arguments being `sext_32` of the words (41_colorspace.md R131). -/
def redOf (y _cb cr : Int) : Int := clamp255 (rne (1000000 * y + 1402000 * (cr - chromaZero)) rgbScale)

/-- G of `toRGB(y, cb, cr)` (41_colorspace.md R131). -/
def greenOf (y cb cr : Int) : Int :=
  clamp255 (rne (1000000 * y - 344136 * (cb - chromaZero) - 714136 * (cr - chromaZero)) rgbScale)

/-- B of `toRGB(y, cb, cr)` (41_colorspace.md R131). -/
def blueOf (y cb _cr : Int) : Int := clamp255 (rne (1000000 * y + 1772000 * (cb - chromaZero)) rgbScale)

/-! ### The image in DMEM -/

/-- Where the pixel buffer and the three planes stand. -/
structure ImageBases where
  pix : Nat
  y : Nat
  cb : Nat
  cr : Nat
  deriving DecidableEq, Repr

/-- The bases the CSRs give. -/
def State.imageBases (s : State) : ImageBases :=
  { pix := s.pixBase.toNat, y := s.planeBase0.toNat, cb := s.planeBase1.toNat, cr := s.planeBase2.toNat }

/-- The word of an integer sample: `v * 2^16` (41_colorspace.md R132). -/
def sampleWord (v : Int) : Word := BitVec.ofInt 32 (v * 2 ^ 16)

/-- Store the three plane words of pixel `p` (41_colorspace.md R132). -/
def storeSamples (g : ImageBases) (p : Nat) (r gr b : Int) (m : Memory) : Memory :=
  let m := writeWord m (g.y + 4 * p) (sampleWord (lumaOf r gr b))
  let m := writeWord m (g.cb + 4 * p) (sampleWord (cbOf r gr b))
  writeWord m (g.cr + 4 * p) (sampleWord (crOf r gr b))

/-- CCF's loop body for pixel `p` (41_colorspace.md R132). -/
def ccfPixel (g : ImageBases) (p : Nat) (m : Memory) : Option Memory :=
  match cellRead m (g.pix + 3 * p), cellRead m (g.pix + 3 * p + 1), cellRead m (g.pix + 3 * p + 2) with
  | some r, some gr, some b => some (storeSamples g p r.toNat gr.toNat b.toNat m)
  | _, _, _ => none

/-- Store the three bytes of pixel `p` (41_colorspace.md R135). -/
def storePixel (g : ImageBases) (p : Nat) (y cb cr : Int) (m : Memory) : Memory :=
  let m := cellWrite m (g.pix + 3 * p) (BitVec.ofInt 8 (redOf y cb cr))
  let m := cellWrite m (g.pix + 3 * p + 1) (BitVec.ofInt 8 (greenOf y cb cr))
  cellWrite m (g.pix + 3 * p + 2) (BitVec.ofInt 8 (blueOf y cb cr))

/-- CCI's loop body for pixel `p` (41_colorspace.md R135). -/
def cciPixel (g : ImageBases) (p : Nat) (m : Memory) : Option Memory :=
  match readWord m (g.y + 4 * p), readWord m (g.cb + 4 * p), readWord m (g.cr + 4 * p) with
  | some y, some cb, some cr => some (storePixel g p y.toInt cb.toInt cr.toInt m)
  | _, _, _ => none

/-- Visit `n` pixels from `p` on, in order (41_colorspace.md R134); `none` if a byte read is unwritten. -/
def pixelLoop (body : Nat → Memory → Option Memory) : Nat → Nat → Memory → Option Memory
  | 0, _, m => some m
  | n + 1, p, m =>
    match body p m with
    | none => none
    | some m' => pixelLoop body n (p + 1) m'

/-- The checks of CCF and CCI, in order (41_colorspace.md R132, R135). -/
def imageChecks (s : State) : List (Bool × ErrCode) :=
  [dimCheck s, alignCheck .y s, alignCheck .cb s, alignCheck .cr s,
   pixCheck s, planeCheck .y s, planeCheck .cb s, planeCheck .cr s]

/-- The pixel buffer overlaps a plane (20_memory.md R84). -/
def pixOverlapsPlane (s : State) : Bool :=
  s.pixRegion.overlaps (s.plane .y).region || s.pixRegion.overlaps (s.plane .cb).region
    || s.pixRegion.overlaps (s.plane .cr).region

/-- Two planes overlap (20_memory.md R84). -/
def planesOverlap (s : State) : Bool :=
  (s.plane .y).region.overlaps (s.plane .cb).region || (s.plane .y).region.overlaps (s.plane .cr).region
    || (s.plane .cb).region.overlaps (s.plane .cr).region

/-- `CCF` (41_colorspace.md R132). It reads the pixel buffer and writes the planes, so no two of the four regions may
overlap (20_memory.md R84). -/
def execCcf (s : State) : Result :=
  checked (imageChecks s) s <|
  unlessOverlap (pixOverlapsPlane s || planesOverlap s) <|
  withData (pixelLoop (ccfPixel s.imageBases) s.pixels 0 s.dmem) fun m =>
  complete (s.setDmem m)

/-- `CCI` (41_colorspace.md R135). It reads the planes and writes the pixel buffer; planes that overlap each other are
both only read, which is no fault (60_exceptions.md R275, log 9). -/
def execCci (s : State) : Result :=
  checked (imageChecks s) s <|
  unlessOverlap (pixOverlapsPlane s) <|
  withData (pixelLoop (cciPixel s.imageBases) s.pixels 0 s.dmem) fun m =>
  complete (s.setDmem m)

end Sys2Proof.Machine
end

