-- ==== Sys2Proof/Machine/BlockGrid.lean ====
section
/-! DEFINITION. The block-grid partitioner and reassembler: LDT and STT (42_blockgrid.md). -/

namespace Sys2Proof.Machine

/-- The tile of the given elements, if all of them have a value. -/
def tileOf? (f : Fin 64 → Option Word) : Option Tile :=
  if anyElem fun e => (f e).isNone then none else some (Vector.ofFn fun e => (f e).getD 0)

/-- Element `e` of `partition(ch, i)`: the sample, or 0 in the padding; `none` if a byte of it is unwritten
(42_blockgrid.md R151). -/
def partitionElem (m : Memory) (p : Plane) (i : Nat) (e : Fin 64) : Option Word :=
  match p.elemAddr i e with
  | some a => readWord m a
  | none => some 0

/-- `partition(ch, i)` (42_blockgrid.md R151). -/
def partition (m : Memory) (p : Plane) (i : Nat) : Option Tile := tileOf? (partitionElem m p i)

/-- Store element `e` of a tile, or discard it in the padding (42_blockgrid.md R153). -/
def storeElem (p : Plane) (i : Nat) (t : Tile) (m : Memory) (e : Fin 64) : Memory :=
  match p.elemAddr i e with
  | some a => writeWord m a t[e]
  | none => m

/-- Store a tile into tile `i` of a plane, cropping the padding (42_blockgrid.md R153, R154). -/
def reassemble (m : Memory) (p : Plane) (i : Nat) (t : Tile) : Memory :=
  (List.finRange 64).foldl (storeElem p i t) m

/-- The checks of LDT and STT, in order (42_blockgrid.md R152, R153). -/
def tileChecks (c : Channel) (s : State) : List (Bool × ErrCode) :=
  [dimCheck s, alignCheck c s, planeCheck c s, tidxCheck s]

/-- `LDT Td, ch [, INC]` (42_blockgrid.md R152). -/
def execLdt (rd : TReg) (ch : BitVec 2) (inc : Bool) (s : State) : Result :=
  withChannel ch s fun c =>
  checked (tileChecks c s) s <|
  withData (partition s.dmem (s.plane c) s.tidx.toNat) fun t =>
  complete ((s.writeTile rd t).bumpTidx inc)

/-- `STT Ts, ch [, INC]` (42_blockgrid.md R153). -/
def execStt (rs : TReg) (ch : BitVec 2) (inc : Bool) (s : State) : Result :=
  withChannel ch s fun c =>
  checked (tileChecks c s) s <|
  complete ((s.setDmem (reassemble s.dmem (s.plane c) s.tidx.toNat (s.readTile rs))).bumpTidx inc)

end Sys2Proof.Machine
end

