-- ==== Sys2Proof/Machine/CoefCoder.lean ====
section
/-! DEFINITION. The zigzag permutation network and the run-length coder: ZZS, ZZU, RLE, RLD (45_coefcoder.md). -/

namespace Sys2Proof.Machine

/-! ### The zigzag permutation -/

/-- The table `ZZ` (45_coefcoder.md R210). -/
def zzTable : Vector (Fin 64) 64 :=
  #v[0, 1, 8, 16, 9, 2, 3, 10,
     17, 24, 32, 25, 18, 11, 4, 5,
     12, 19, 26, 33, 40, 48, 41, 34,
     27, 20, 13, 6, 7, 14, 21, 28,
     35, 42, 49, 56, 57, 50, 43, 36,
     29, 22, 15, 23, 30, 37, 44, 51,
     58, 59, 52, 45, 38, 31, 39, 46,
     53, 60, 61, 54, 47, 55, 62, 63]

/-- The inverse table `IZ` (45_coefcoder.md R210). -/
def izTable : Vector (Fin 64) 64 :=
  #v[0, 1, 5, 6, 14, 15, 27, 28,
     2, 4, 7, 13, 16, 26, 29, 42,
     3, 8, 12, 17, 25, 30, 41, 43,
     9, 11, 18, 24, 31, 40, 44, 53,
     10, 19, 23, 32, 39, 45, 52, 54,
     20, 22, 33, 38, 46, 51, 55, 60,
     21, 34, 37, 47, 50, 56, 59, 61,
     35, 36, 48, 49, 57, 58, 62, 63]

/-- Tile to sequence: position `i` gets element `ZZ[i]` (45_coefcoder.md R211). -/
def scan (x : Tile) : Tile := Vector.ofFn fun i => x[zzTable[i]]

/-- Sequence to tile: element `e` gets position `IZ[e]` (45_coefcoder.md R212). -/
def unscan (x : Tile) : Tile := Vector.ofFn fun e => x[izTable[e]]

/-- `ZZS Td, Ts` (45_coefcoder.md R211). -/
def execZzs (rd rs : TReg) (s : State) : Result := complete (s.writeTile rd (scan (s.readTile rs)))

/-- `ZZU Td, Ts` (45_coefcoder.md R212). -/
def execZzu (rd rs : TReg) (s : State) : Result := complete (s.writeTile rd (unscan (s.readTile rs)))

/-! ### Run-length encoding -/

/-- A run-length pair: zero-run, value (00_scope.md R19). -/
abbrev RunPair := Nat × Int

/-- The pairs of a sequence of saturated values after `run` zeros; trailing zeros give no pair
(45_coefcoder.md R214). -/
def runPairs (run : Nat) : List Int → List RunPair
  | [] => []
  | v :: vs => if v = 0 then runPairs (run + 1) vs else (run, v) :: runPairs 0 vs

/-- The saturated values `s[i]` (45_coefcoder.md R214). -/
def satValues (x : Tile) : List Int := x.toList.map fun w => sat 16 w.toInt

/-- `pairs(S)` (45_coefcoder.md R214); an all-zero sequence gives the degenerate pair. -/
def pairs (x : Tile) : List RunPair :=
  match runPairs 0 (satValues x) with
  | [] => [(0, 0)]
  | ps => ps

/-- A `sat_16` in `pairs(S)` saturates (45_coefcoder.md R214). -/
def pairsOvf (x : Tile) : Bool := satFlag 16 fun e => x[e].toInt

/-- The two bytes of a 16-bit value, big-endian (20_memory.md R75). -/
def halfBytes (n : BitVec 16) : List Byte := [n.extractLsb' 8 8, n.extractLsb' 0 8]

/-- The three bytes of a pair (20_memory.md R82). -/
def pairBytes (p : RunPair) : List Byte := BitVec.ofNat 8 p.1 :: halfBytes (BitVec.ofInt 16 p.2)

/-- `record(P)` (45_coefcoder.md R215). -/
def record (ps : List RunPair) : List Byte := halfBytes (BitVec.ofNat 16 ps.length) ++ ps.flatMap pairBytes

/-- The size of a record of `n` pairs: `2 + 3n` bytes (45_coefcoder.md R215). -/
def recordSize (n : Nat) : Nat := 3 * n + 2

/-- The record of `n` pairs does not fit below the limit (45_coefcoder.md R216, R218). -/
def recordOverflows (p limit n : Nat) : Bool := limit < p || limit - p < recordSize n

/-- `RLE Ts` (45_coefcoder.md R216). -/
def execRle (rs : TReg) (s : State) : Result :=
  let x := s.readTile rs
  let ps := pairs x
  checked [limitCheck s, (recordOverflows s.rlePtr.toNat s.rleLimit.toNat ps.length, .eRleFull)] s <|
  complete (((s.setDmem (writeBytes s.dmem s.rlePtr.toNat (record ps))).setRlePtr
    (s.rlePtr.toNat + recordSize ps.length)).orOvf (pairsOvf x))

/-! ### Run-length decoding -/

/-- The values the pairs stand for, before truncation and padding (45_coefcoder.md R217). -/
def expandPairs (ps : List RunPair) : List Int := ps.flatMap fun p => List.replicate p.1 0 ++ [p.2]

/-- `decode(P)` as a tile: the first 64 values, padded with zeros (45_coefcoder.md R217, R218). -/
def decodePairs (ps : List RunPair) : Tile := Vector.ofFn fun e => BitVec.ofInt 32 ((expandPairs ps).getD e.val 0)

/-- The pair at `a`: one byte of run, two of value (20_memory.md R82). -/
def readPair (m : Memory) (a : Nat) : Option RunPair :=
  match cellRead m a, readBE m (a + 1) 2 with
  | some r, some v => some (r.toNat, (BitVec.ofNat 16 v).toInt)
  | _, _ => none

/-- The `n` pairs at `a` (45_coefcoder.md R218). -/
def readPairs (m : Memory) : Nat → Nat → Option (List RunPair)
  | _, 0 => some []
  | a, n + 1 =>
    match readPair m a, readPairs m (a + 3) n with
    | some p, some ps => some (p :: ps)
    | _, _ => none

/-- What reading one record comes to. -/
inductive RecordRead where
  /-- the record does not lie wholly below the limit: E_RLE_TRUNC -/
  | truncated
  /-- a byte of it is unwritten: F_UNWRITTEN -/
  | unwritten
  /-- its decoded tile, and the address after it -/
  | record (t : Tile) (next : Nat)
  deriving DecidableEq, Repr

/-- Read the record at `p` (45_coefcoder.md R218). -/
def readRecord (m : Memory) (p limit : Nat) : RecordRead :=
  if recordOverflows p limit 0 then .truncated
  else
    match readBE m p 2 with
    | none => .unwritten
    | some n =>
      if recordOverflows p limit n then .truncated
      else
        match readPairs m (p + 2) n with
        | none => .unwritten
        | some ps => .record (decodePairs ps) (p + recordSize n)

/-- `RLD Td` (45_coefcoder.md R218). -/
def execRld (rd : TReg) (s : State) : Result :=
  checked [limitCheck s] s <|
  match readRecord s.dmem s.rlePtr.toNat s.rleLimit.toNat with
  | .truncated => raise .eRleTrunc s
  | .unwritten => .fault .unwrittenData
  | .record t next => complete ((s.writeTile rd t).setRlePtr next)

end Sys2Proof.Machine
end

