-- ==== Sys2Proof/Machine/Quantizer.lean ====
section
/-! DEFINITION. The quantizer: QNT and DQNT (44_quantizer.md). -/

namespace Sys2Proof.Machine

/-- `RNE( w / (q * 2^16) )` of element `e`, before saturation (44_quantizer.md R190). -/
def qntRaw (x : Tile) (q : QTable) (e : Fin 64) : Int := rne x[e].toInt ((q[e].toNat : Int) * 2 ^ 16)

/-- `v * q * 2^16` of element `e`, before saturation (44_quantizer.md R191). -/
def dqntRaw (x : Tile) (q : QTable) (e : Fin 64) : Int := x[e].toInt * (q[e].toNat : Int) * 2 ^ 16

/-- Quantize a tile (44_quantizer.md R190). -/
def qnt (x : Tile) (q : QTable) : Tile := satTile 16 (qntRaw x q)

/-- Quantizing saturates somewhere. -/
def qntOvf (x : Tile) (q : QTable) : Bool := satFlag 16 (qntRaw x q)

/-- Dequantize a tile (44_quantizer.md R191). -/
def dqnt (x : Tile) (q : QTable) : Tile := satTile 32 (dqntRaw x q)

/-- Dequantizing saturates somewhere. -/
def dqntOvf (x : Tile) (q : QTable) : Bool := satFlag 32 (dqntRaw x q)

/-- `QNT Td, Ts, tbl` (44_quantizer.md R190). -/
def execQnt (rd rs : TReg) (t : TableSel) (s : State) : Result :=
  checked [qtCheck t s] s <|
  complete ((s.writeTile rd (qnt (s.readTile rs) (s.qt t))).orOvf (qntOvf (s.readTile rs) (s.qt t)))

/-- `DQNT Td, Ts, tbl` (44_quantizer.md R191). -/
def execDqnt (rd rs : TReg) (t : TableSel) (s : State) : Result :=
  checked [qtCheck t s] s <|
  complete ((s.writeTile rd (dqnt (s.readTile rs) (s.qt t))).orOvf (dqntOvf (s.readTile rs) (s.qt t)))

end Sys2Proof.Machine
end

