-- ==== Sys2Proof/Machine/Transform.lean ====
section
/-! DEFINITION. The 2D-DCT engine: FDCT and IDCT (43_transform.md), with the exact datapath that is the spec's value of
`DCT_IMPL` (00_scope.md R8, log 5). -/

namespace Sys2Proof.Machine

/-- The cosine constants `K`, row `k`, column `n` (43_transform.md R172). -/
def dctTable : Vector (Vector Int 8) 8 :=
  #v[#v[379625062, 379625062, 379625062, 379625062, 379625062, 379625062, 379625062, 379625062],
     #v[526555088, 446391849, 298269498, 104738319, -104738319, -298269498, -446391849, -526555088],
     #v[496004047, 205451603, -205451603, -496004047, -496004047, -205451603, 205451603, 496004047],
     #v[446391849, -104738319, -526555088, -298269498, 298269498, 526555088, 104738319, -446391849],
     #v[379625062, -379625062, -379625062, 379625062, 379625062, -379625062, -379625062, 379625062],
     #v[298269498, -526555088, 104738319, 446391849, -446391849, -104738319, 526555088, -298269498],
     #v[205451603, -496004047, 496004047, -205451603, -205451603, 496004047, -496004047, 205451603],
     #v[104738319, -298269498, 446391849, -526555088, 526555088, -446391849, 298269498, -104738319]]

/-- `K[k][n]` (43_transform.md R172). -/
def dctK (k n : Fin 8) : Int := dctTable[k][n]

/-- A sum over 0..7. -/
def sum8 (f : Fin 8 → Int) : Int := f 0 + f 1 + f 2 + f 3 + f 4 + f 5 + f 6 + f 7

/-- `S = Σ_r Σ_c K[u][r] * X[r][c] * K[v][c]`, exact (43_transform.md R173). -/
def fdctSum (x : Tile) (u v : Fin 8) : Int :=
  sum8 fun r => sum8 fun c => dctK u r * x[elemAt r c].toInt * dctK v c

/-- `S = Σ_u Σ_v K[u][r] * Cw[u][v] * K[v][c]`, exact (43_transform.md R174). -/
def idctSum (x : Tile) (r c : Fin 8) : Int :=
  sum8 fun u => sum8 fun v => dctK u r * x[elemAt u v].toInt * dctK v c

/-- `RNE(S / 2^60)` of each output element of FDCT, before saturation (43_transform.md R173). -/
def fdctRaw (x : Tile) (e : Fin 64) : Int := rne (fdctSum x (rowOf e) (colOf e)) (2 ^ 60)

/-- `RNE(S / 2^60)` of each output element of IDCT, before saturation (43_transform.md R174). -/
def idctRaw (x : Tile) (e : Fin 64) : Int := rne (idctSum x (rowOf e) (colOf e)) (2 ^ 60)

/-- The forward transform of a tile (43_transform.md R173). -/
def fdct (x : Tile) : Tile := satTile 32 (fdctRaw x)

/-- FDCT of this tile saturates somewhere. -/
def fdctOvf (x : Tile) : Bool := satFlag 32 (fdctRaw x)

/-- The inverse transform of a tile (43_transform.md R174). -/
def idct (x : Tile) : Tile := satTile 32 (idctRaw x)

/-- IDCT of this tile saturates somewhere. -/
def idctOvf (x : Tile) : Bool := satFlag 32 (idctRaw x)

/-- `FDCT Td, Ts` (43_transform.md R173). No checks. -/
def execFdct (rd rs : TReg) (s : State) : Result :=
  complete ((s.writeTile rd (fdct (s.readTile rs))).orOvf (fdctOvf (s.readTile rs)))

/-- `IDCT Td, Ts` (43_transform.md R174). No checks. -/
def execIdct (rd rs : TReg) (s : State) : Result :=
  complete ((s.writeTile rd (idct (s.readTile rs))).orOvf (idctOvf (s.readTile rs)))

end Sys2Proof.Machine
end

