-- ==== Sys2Proof/Machine/Pipeline.lean ====
section
/-! DEFINITION. The channel pipeline: ENCC and DECC (46_pipeline.md). Both run the units' functions on internal buffers,
tile by tile; neither touches a tile register or TIDX (10_state.md R66). -/

namespace Sys2Proof.Machine

/-- What a channel pass changes as it goes: DMEM, RLE_PTR, OVF. -/
structure PassState where
  mem : Memory
  ptr : Nat
  ovf : Bool
  deriving DecidableEq, Repr

/-- What a channel pass, or one tile of it, comes to. -/
inductive PassEnd where
  /-- the tiles so far are complete -/
  | done (p : PassState)
  /-- the stream limit is met at this tile: a mid-command error (46_pipeline.md R244) -/
  | streamError
  /-- an unwritten DMEM byte was read: F_UNWRITTEN -/
  | unwritten
  deriving DecidableEq, Repr

/-- Run `n` tiles from tile `i` on, in order (46_pipeline.md R240, R242). -/
def passLoop (body : Nat → PassState → PassEnd) : Nat → Nat → PassState → PassEnd
  | 0, _, p => .done p
  | n + 1, i, p =>
    match body i p with
    | .done p' => passLoop body n (i + 1) p'
    | .streamError => .streamError
    | .unwritten => .unwritten

/-- The quantized sequence of a spatial tile: fdct, qnt, zzs (46_pipeline.md R240). -/
def encodeTile (q : QTable) (x : Tile) : Tile := scan (qnt (fdct x) q)

/-- A saturation occurs while encoding the tile (46_pipeline.md R240, R245). -/
def encodeTileOvf (q : QTable) (x : Tile) : Bool :=
  fdctOvf x || qntOvf (fdct x) q || pairsOvf (encodeTile q x)

/-- ENCC's loop body for tile `i` (46_pipeline.md R240). -/
def encBody (pl : Plane) (q : QTable) (limit : Nat) (i : Nat) (p : PassState) : PassEnd :=
  match partition p.mem pl i with
  | none => .unwritten
  | some x =>
    let ps := pairs (encodeTile q x)
    if recordOverflows p.ptr limit ps.length then .streamError
    else .done { mem := writeBytes p.mem p.ptr (record ps), ptr := p.ptr + recordSize ps.length,
                 ovf := p.ovf || encodeTileOvf q x }

/-- The spatial tile of a decoded sequence: zzu, dqnt, idct (46_pipeline.md R242). -/
def decodeTile (q : QTable) (v : Tile) : Tile := idct (dqnt (unscan v) q)

/-- A saturation occurs while decoding the tile (46_pipeline.md R242, R245). -/
def decodeTileOvf (q : QTable) (v : Tile) : Bool :=
  dqntOvf (unscan v) q || idctOvf (dqnt (unscan v) q)

/-- DECC's loop body for tile `i` (46_pipeline.md R242). -/
def decBody (pl : Plane) (q : QTable) (limit : Nat) (i : Nat) (p : PassState) : PassEnd :=
  match readRecord p.mem p.ptr limit with
  | .truncated => .streamError
  | .unwritten => .unwritten
  | .record v next =>
    .done { mem := reassemble p.mem pl i (decodeTile q v), ptr := next, ovf := p.ovf || decodeTileOvf q v }

/-- The state a pass starts from. -/
def State.passStart (s : State) : PassState := { mem := s.dmem, ptr := s.rlePtr.toNat, ovf := s.ovf }

/-- The pass's results go into DMEM, RLE_PTR and OVF. -/
def State.afterPass (s : State) (p : PassState) : State :=
  { (s.setDmem p.mem).setRlePtr p.ptr with ovf := p.ovf }

/-- After a mid-command stream error the bytes of the region, RLE_PTR and OVF are unspecified (46_pipeline.md R244):
each becomes a free value (log 8). -/
def State.havocPass (s : State) (r : Region) : State :=
  { s with dmem := havocBytes s.draws s.dmem r.lo (r.hi - r.lo), rlePtr := Config.freeWord s.draws,
           ovf := Config.freeBit s.draws, draws := s.draws + 1 }

/-- The checks of ENCC, in order (46_pipeline.md R240). -/
def enccChecks (c : Channel) (t : TableSel) (s : State) : List (Bool × ErrCode) :=
  [dimCheck s, alignCheck c s, planeCheck c s, limitCheck s, qtCheck t s]

/-- The checks of DECC, in order (46_pipeline.md R242). -/
def deccChecks (c : Channel) (t : TableSel) (s : State) : List (Bool × ErrCode) :=
  [dimCheck s, alignCheck c s, planeCheck c s, limitCheck s, qtCheck t s, tcountCheck c s]

/-- `ENCC ch, tbl` (46_pipeline.md R240). -/
def execEncc (ch : BitVec 2) (t : TableSel) (s : State) : Result :=
  withChannel ch s fun c =>
  checked (enccChecks c t s) s <|
  unlessOverlap ((s.plane c).region.overlaps s.streamRegion) <|
  match passLoop (encBody (s.plane c) (s.qt t) s.rleLimit.toNat) s.tileCount 0 s.passStart with
  | .unwritten => .fault .unwrittenData
  | .streamError => raise .eRleFull (s.havocPass s.streamRegion)
  | .done p => complete ((s.afterPass p).setTcount c (BitVec.ofNat 32 s.tileCount))

/-- `DECC ch, tbl` (46_pipeline.md R242). -/
def execDecc (ch : BitVec 2) (t : TableSel) (s : State) : Result :=
  withChannel ch s fun c =>
  checked (deccChecks c t s) s <|
  unlessOverlap ((s.plane c).region.overlaps s.streamRegion) <|
  match passLoop (decBody (s.plane c) (s.qt t) s.rleLimit.toNat) s.tileCount 0 s.passStart with
  | .unwritten => .fault .unwrittenData
  | .streamError => raise .eRleTrunc (s.havocPass (s.plane c).region)
  | .done p => complete (s.afterPass p)

end Sys2Proof.Machine
end

