-- ==== Sys2Proof/Machine/Sequencer.lean ====
section
/-! DEFINITION. END and NOP (40_sequencer.md section 3). -/

namespace Sys2Proof.Machine

/-- `END`: `PC <- PC + 1; stop_done()` (40_sequencer.md R125). -/
def execEndList (s : State) : Result := .next s.advance.stopDone

/-- `NOP`: nothing but the advance of PC (40_sequencer.md R126). -/
def execNop (s : State) : Result := complete s

end Sys2Proof.Machine
end

