-- ==== Sys2Proof/Machine/Dispatch.lean ====
section
/-! DEFINITION. What each command does: one arm per constructor of `Instr`, in the order of spec/opcode_table.json. -/

namespace Sys2Proof.Machine

-- The rigid form of this file is the host's: one arm a line, one direct call an arm.
def exec (i : Instr) (s : State) : Host.Outcome State Fault Refusal :=
  match i with
  | .endList => Sys2Proof.Machine.execEndList s
  | .nop => Sys2Proof.Machine.execNop s
  | .ccf => Sys2Proof.Machine.execCcf s
  | .cci => Sys2Proof.Machine.execCci s
  | .ldt rd ch inc => Sys2Proof.Machine.execLdt rd ch inc s
  | .stt rs ch inc => Sys2Proof.Machine.execStt rs ch inc s
  | .fdct rd rs => Sys2Proof.Machine.execFdct rd rs s
  | .idct rd rs => Sys2Proof.Machine.execIdct rd rs s
  | .qnt rd rs t => Sys2Proof.Machine.execQnt rd rs t s
  | .dqnt rd rs t => Sys2Proof.Machine.execDqnt rd rs t s
  | .zzs rd rs => Sys2Proof.Machine.execZzs rd rs s
  | .zzu rd rs => Sys2Proof.Machine.execZzu rd rs s
  | .rle rs => Sys2Proof.Machine.execRle rs s
  | .rld rd => Sys2Proof.Machine.execRld rd s
  | .encc ch t => Sys2Proof.Machine.execEncc ch t s
  | .decc ch t => Sys2Proof.Machine.execDecc ch t s

end Sys2Proof.Machine
end

