-- ==== Sys2Proof/Machine/HostPort.lean ====
section
/-! DEFINITION. The host slave port (20_memory.md R71-R74, 10_state.md R35-R57), START (40_sequencer.md R120), ABORT
(60_exceptions.md R268), the interrupt output (R270) and the reset pin (70_reset_and_hazards.md R291, R292). -/

namespace Sys2Proof.Machine

/-! ### Control and status registers -/

/-- The CSRs of 10_state.md R36. -/
inductive Csr where
  | id
  | version
  | ctrl
  | status
  | errCode
  | errPc
  | pc
  | ie
  | is
  | width
  | height
  | tileSz
  | pixBase
  | planeBase (c : Channel)
  | rlePtr
  | rleLimit
  | tcount (c : Channel)
  | tidx
  | tilesX
  | tilesY
  | dmemSize
  | cmdSize
  /-- offsets 0x68..0xFC: RAZ/WI -/
  | reserved
  deriving DecidableEq, Repr

/-- The CSR map in offset order, 4 bytes each (10_state.md R36). -/
def csrMap : List Csr :=
  [.id, .version, .ctrl, .status, .errCode, .errPc, .pc, .ie, .is, .width, .height, .tileSz, .pixBase,
   .planeBase .y, .planeBase .cb, .planeBase .cr, .rlePtr, .rleLimit, .tcount .y, .tcount .cb, .tcount .cr,
   .tidx, .tilesX, .tilesY, .dmemSize, .cmdSize]

/-- The CSR at a byte offset of the CSR block. -/
def csrAt (offset : Nat) : Csr := csrMap.getD (offset / 4) .reserved

/-- The number of an error code (60_exceptions.md R260). -/
def ErrCode.code : ErrCode → BitVec 8
  | .eNone => 0
  | .eIllegal => 1
  | .eDim => 2
  | .eAddr => 3
  | .eAlign => 4
  | .eQtZero => 5
  | .eTIdx => 6
  | .eTCount => 7
  | .eRleFull => 8
  | .eRleTrunc => 9
  | .ePcRange => 10
  | .eAborted => 11

/-- STATUS as the host reads it: bits 4..0 are ABORTPEND, HACC, OVF, ERR, BUSY (10_state.md R40). -/
def State.statusWord (s : State) : Word :=
  0#27 ++ BitVec.ofBool s.abortPend ++ BitVec.ofBool s.hacc ++ BitVec.ofBool s.ovf ++ BitVec.ofBool s.err
    ++ BitVec.ofBool s.busy

/-- IE as the host reads it: bit 1 ERR_IE, bit 0 DONE_IE (10_state.md R43). -/
def State.ieWord (s : State) : Word := 0#30 ++ BitVec.ofBool s.errIe ++ BitVec.ofBool s.doneIe

/-- IS as the host reads it: bit 1 ERR, bit 0 DONE (10_state.md R44). -/
def State.isWord (s : State) : Word := 0#30 ++ BitVec.ofBool s.isErr ++ BitVec.ofBool s.isDone

/-- The value of a CSR (10_state.md R36-R57). -/
def State.csrRead (s : State) : Csr → Word
  | .id => 0x4243_4131#32
  | .version => 0x0001_0000#32
  | .ctrl => 0#32
  | .status => s.statusWord
  | .errCode => s.errCode.code.zeroExtend 32
  | .errPc => s.errPc
  | .pc => s.pc
  | .ie => s.ieWord
  | .is => s.isWord
  | .width => s.width
  | .height => s.height
  | .tileSz => 8#32
  | .pixBase => s.pixBase
  | .planeBase c => s.planeBase c
  | .rlePtr => s.rlePtr
  | .rleLimit => s.rleLimit
  | .tcount c => s.tcount c
  | .tidx => s.tidx
  | .tilesX => BitVec.ofNat 32 (ceil8 s.width.toNat)
  | .tilesY => BitVec.ofNat 32 (ceil8 s.height.toNat)
  | .dmemSize => BitVec.ofNat 32 s.params.dmemBytes
  | .cmdSize => BitVec.ofNat 32 s.params.nCmd
  | .reserved => 0#32

/-- A read while busy answers an unspecified value (10_state.md R47). -/
def Csr.unspecifiedWhileBusy : Csr → Bool
  | .pc | .rlePtr | .tidx | .tcount _ => true
  | .id | .version | .ctrl | .status | .errCode | .errPc | .ie | .is | .width | .height | .tileSz | .pixBase
  | .planeBase _ | .rleLimit | .tilesX | .tilesY | .dmemSize | .cmdSize | .reserved => false

/-- START (40_sequencer.md R120). -/
def State.start (s : State) : State :=
  { s with busy := true, err := false, abortPend := false, errCode := .eNone, errPc := 0 }

/-- STATUS.HACC <- 1 (10_state.md R46). -/
def State.violation (s : State) : State := { s with hacc := true }

/-- A write of CTRL (10_state.md R39): bit 0 START, bit 1 ABORT. While busy each bit acts on its own: START only sets HACC
(R46), ABORT makes an abort pending (60_exceptions.md R268, log 10). While idle START begins a run and ABORT is ignored. -/
def State.writeCtrl (s : State) (v : Word) : State :=
  if s.busy then { s with hacc := s.hacc || v.getLsbD 0, abortPend := s.abortPend || v.getLsbD 1 }
  else if v.getLsbD 0 then s.start else s

/-- A write of a read-write CSR while idle; the read-only and reserved ones ignore it (10_state.md R35, R36). -/
def State.configWrite (s : State) (c : Csr) (v : Word) : State :=
  match c with
  | .pc => { s with pc := v }
  | .width => { s with width := v }
  | .height => { s with height := v }
  | .pixBase => { s with pixBase := v }
  | .planeBase .y => { s with planeBase0 := v }
  | .planeBase .cb => { s with planeBase1 := v }
  | .planeBase .cr => { s with planeBase2 := v }
  | .rlePtr => { s with rlePtr := v }
  | .rleLimit => { s with rleLimit := v }
  | .tcount ch => s.setTcount ch v
  | .tidx => { s with tidx := v }
  | .id | .version | .ctrl | .status | .errCode | .errPc | .ie | .is | .tileSz | .tilesX | .tilesY | .dmemSize
  | .cmdSize | .reserved => s

/-- A host write of a CSR. CTRL, STATUS, IE and IS may be written while busy; a write of any other CSR while busy is
dropped and sets HACC (10_state.md R46, log 12). -/
def State.csrWrite (s : State) (c : Csr) (v : Word) : State :=
  match c with
  | .ctrl => s.writeCtrl v
  | .status => { s with ovf := s.ovf && !v.getLsbD 2, hacc := s.hacc && !v.getLsbD 3 }
  | .ie => { s with doneIe := v.getLsbD 0, errIe := v.getLsbD 1 }
  | .is => { s with isDone := s.isDone && !v.getLsbD 0, isErr := s.isErr && !v.getLsbD 1 }
  | c => if s.busy then s.violation else s.configWrite c v

/-! ### Windows -/

/-- What a host address names (20_memory.md R71). -/
inductive Target where
  | csr (c : Csr)
  | qt (t : TableSel) (e : Fin 64)
  | tile (i : TReg) (e : Fin 64)
  | cmd (k : Nat)
  | dmem (a : Nat)
  deriving DecidableEq, Repr

/-- The element a window word is for. -/
def windowElem (a : Nat) : Fin 64 := ⟨a / 4 % 64, by omega⟩

/-- The target of an aligned 32-bit access; `none` where the port answers SLVERR (20_memory.md R71, R73). -/
def targetOf (p : Params) (a : Nat) : Option Target :=
  if a < 0x100 then some (.csr (csrAt a))
  else if a < 0x400 then none
  else if a < 0x500 then some (.qt .luma (windowElem a))
  else if a < 0x600 then some (.qt .chroma (windowElem a))
  else if a < 0x800 then none
  else if a < 0x1000 then some (.tile ⟨(a - 0x800) / 256 % 8, by omega⟩ (windowElem a))
  else if a < 0x4000 then none
  else if a < 0x8000 then if (a - 0x4000) / 4 < p.nCmd then some (.cmd ((a - 0x4000) / 4)) else none
  else if a < 0x100_0000 then none
  else if a - 0x100_0000 < p.dmemBytes then some (.dmem (a - 0x100_0000)) else none

/-- The target of an access: only aligned 32-bit accesses are served (20_memory.md R73). -/
def accessTarget (p : Params) (size : AccessSize) (addr : BitVec 25) : Option Target :=
  if size = .word ∧ addr.toNat % 4 = 0 then targetOf p addr.toNat else none

/-- The port answers. -/
def State.respond (s : State) (r : HostResponse) : State := { s with resp := r }

/-- The port answers a read with a value the spec does not give: a free value (10_state.md R47, 20_memory.md R74). -/
def State.respondFree (s : State) : State :=
  { s with resp := .readOk (Config.freeWord s.draws), draws := s.draws + 1 }

/-- Set an entry of a table. -/
def State.writeQt (s : State) (t : TableSel) (e : Fin 64) (v : BitVec 16) : State :=
  match t with
  | .luma => { s with qtLuma := s.qtLuma.set e v }
  | .chroma => { s with qtChroma := s.qtChroma.set e v }

/-- A read served by the port. Windows are locked while busy (20_memory.md R74); an unwritten word or byte is F_UNWRITTEN
(10_state.md R61, R62). -/
def hostReadTarget (s : State) : Target → Result
  | .csr c => .next (if s.busy && c.unspecifiedWhileBusy then s.respondFree else s.respond (.readOk (s.csrRead c)))
  | .qt t e => .next (if s.busy then s.violation.respondFree else s.respond (.readOk ((s.qt t)[e].zeroExtend 32)))
  | .tile i e => .next (if s.busy then s.violation.respondFree else s.respond (.readOk (s.tileElem i e)))
  | .cmd k =>
    if s.busy then .next s.violation.respondFree
    else
      match cellRead s.cmdmem k with
      | some w => .next (s.respond (.readOk w))
      | none => .fault .unwrittenCommand
  | .dmem a =>
    if s.busy then .next s.violation.respondFree
    else withData (readWord s.dmem a) fun w => .next (s.respond (.readOk w))

/-- A write served by the port, before its answer (20_memory.md R72, R74). -/
def hostWriteTarget (s : State) (v : Word) : Target → State
  | .csr c => s.csrWrite c v
  | .qt t e => if s.busy then s.violation else s.writeQt t e (v.setWidth 16)
  | .tile i e => if s.busy then s.violation else s.writeElem i e v
  | .cmd k => if s.busy then s.violation else { s with cmdmem := cellWrite s.cmdmem k v }
  | .dmem a => if s.busy then s.violation else s.setDmem (writeWord s.dmem a v)

/-- One host access (20_memory.md R73, R88). While `rst_n` is low it has no effect and its response is unspecified
(70_reset_and_hazards.md R291); an access the port does not serve is answered SLVERR and changes no other state (log 11). -/
def hostAccess (s : State) : HostAccess → Result
  | .read size addr =>
    if s.rstN then
      match accessTarget s.params size addr with
      | some t => hostReadTarget s t
      | none => .next (s.respond .slverr)
    else .next (s.respond .unspecified)
  | .write size addr v =>
    if s.rstN then
      match accessTarget s.params size addr with
      | some t => .next ((hostWriteTarget s v t).respond .writeOk)
      | none => .next (s.respond .slverr)
    else .next (s.respond .unspecified)

/-! ### Pins -/

/-- `irq` (60_exceptions.md R270); 0 while `rst_n` is low (70_reset_and_hazards.md R291). -/
def State.irq (s : State) : Bool := s.rstN && ((s.isDone && s.doneIe) || (s.isErr && s.errIe))

/-- `rst_n` falls: the state of 70_reset_and_hazards.md R290, whatever was running (R292). The parameters, the
environment's list and the model's counters go on (log 15). -/
def State.resetLow (s : State) : State :=
  { State.atReset s.params with host := s.host, draws := s.draws, resets := s.resets + 1, rstN := false }

/-- `rst_n` rises. -/
def State.resetHigh (s : State) : State := { s with rstN := true }

end Sys2Proof.Machine
end

