-- ==== Sys2Proof/Machine/Run.lean ====
section
/-! DEFINITION. The sequencer's step (40_sequencer.md R121) and the environment's events (log 6). -/

namespace Sys2Proof.Machine

/-- `CMDMEM[PC]` (40_sequencer.md R122). -/
def fetch (s : State) : Option Word := cellRead s.cmdmem s.pc.toNat

/-- `step()` while STATUS.BUSY = 1 (40_sequencer.md R121), in the order of 60_exceptions.md R264. -/
def sequencerStep (s : State) : Result :=
  if s.abortPend then raise .eAborted s
  else if s.params.nCmd ≤ s.pc.toNat then raise .ePcRange s
  else
    match fetch s with
    | none => .fault .unwrittenCommand
    | some w =>
      match decode w with
      | .error _ => raise .eIllegal s
      | .ok i => exec i s

/-- The core moves: the sequencer while busy; while idle it keeps all its state (60_exceptions.md R286). -/
def coreStep (s : State) : Result := if s.busy then sequencerStep s else .next s

/-- One event of the environment (log 6). -/
def eventStep (s : State) : HostEvent → Result
  | .access a => hostAccess s a
  | .sequencer => coreStep s
  | .resetLow => .next s.resetLow
  | .resetHigh => .next s.resetHigh

/-- The next event, or the core where none is listed. -/
def machineStep (s : State) : Result :=
  match s.host with
  | [] => coreStep s
  | e :: rest => eventStep { s with host := rest } e

/-- Set all that running one command takes (log 14): the word at PC, STATUS as START leaves it, and nothing ahead of
the sequencer in the environment's list. A PC beyond CMDMEM is set to 0. -/
def placeCommand (s : State) (w : Word) : State :=
  let pc := if s.pc.toNat < s.params.nCmd then s.pc else 0#32
  { s.start with pc := pc, cmdmem := cellWrite s.cmdmem pc.toNat w, host := [], rstN := true }

end Sys2Proof.Machine
end

