-- ==== Sys2Proof/Machine/Step.lean ====
section
/-! DEFINITION. One step of BCA-CORE in its environment, and the host's placing of one command. -/

namespace Sys2Proof.Machine

/-- One step: the environment's next event, else the sequencer. -/
def step (s : State) : Host.Outcome State Fault Refusal := machineStep s

/-- The command word `w` stands where the next step fetches, and the sequencer is running (log 14). -/
def State.withFetchWord (s : State) (nbits w : Nat) : State := placeCommand s (BitVec.ofNat 32 (w % 2 ^ nbits))

end Sys2Proof.Machine
end

