-- ==== Sys2Proof/Machine/Asm.lean ====
section
/-! DEFINITION. The spec's assembler syntax and pseudo-commands (30_encoding.md R108-R116): a line of text to the command
words it stands for. The hardware never sees text; nothing in the machine uses this file. Text is a list of
characters. -/

namespace Sys2Proof.Machine

/-- The two-bit field of a channel (30_encoding.md R101). -/
def channelField : Channel → BitVec 2
  | .y => 0#2
  | .cb => 1#2
  | .cr => 2#2

/-- DOC00's pairing: Y uses the luma table, Cb and Cr the chroma table (30_encoding.md R110). -/
def channelTable : Channel → TableSel
  | .y => .luma
  | .cb | .cr => .chroma

/-- The pseudo-commands (30_encoding.md R110-R116). -/
inductive Pseudo where
  /-- ENC.Y, ENC.CB, ENC.CR -/
  | enc (c : Channel)
  /-- DEC.Y, DEC.CB, DEC.CR -/
  | dec (c : Channel)
  /-- ENCT Tw, ch, tbl -/
  | enct (tw : TReg) (c : Channel) (t : TableSel)
  /-- DECT Tw, ch, tbl -/
  | dect (tw : TReg) (c : Channel) (t : TableSel)
  /-- ENCIMG -/
  | encImg
  /-- DECIMG -/
  | decImg
  deriving DecidableEq, Repr

/-- The commands a pseudo-command expands to, in consecutive CMDMEM words (30_encoding.md R115). -/
def Pseudo.expand : Pseudo → List Instr
  | .enc c => [.encc (channelField c) (channelTable c)]
  | .dec c => [.decc (channelField c) (channelTable c)]
  | .enct tw c t => [.ldt tw (channelField c) true, .fdct tw tw, .qnt tw tw t, .zzs tw tw, .rle tw]
  | .dect tw c t => [.rld tw, .zzu tw tw, .dqnt tw tw t, .idct tw tw, .stt tw (channelField c) true]
  | .encImg => [.ccf, .encc 0#2 .luma, .encc 1#2 .chroma, .encc 2#2 .chroma]
  | .decImg => [.decc 0#2 .luma, .decc 1#2 .chroma, .decc 2#2 .chroma, .cci]

/-- An operand of an assembler line (30_encoding.md R108). -/
inductive AsmOperand where
  | treg (r : TReg)
  | channel (c : Channel)
  | table (t : TableSel)
  | inc
  deriving DecidableEq, Repr

/-- Upper case: mnemonics and keywords are case-insensitive (30_encoding.md R108). -/
def upperText (t : List Char) : List Char := t.map Char.toUpper

/-- An operand's text, in upper case. -/
def asmOperand? (t : List Char) : Option AsmOperand :=
  match t with
  | ['T', d] => if '0' ≤ d ∧ d ≤ '7' then some (.treg ⟨(d.toNat - 48) % 8, by omega⟩) else none
  | ['Y'] => some (.channel .y)
  | ['C', 'B'] => some (.channel .cb)
  | ['C', 'R'] => some (.channel .cr)
  | ['L', 'U', 'M', 'A'] => some (.table .luma)
  | ['C', 'H', 'R', 'O', 'M', 'A'] => some (.table .chroma)
  | ['I', 'N', 'C'] => some .inc
  | _ => none

/-- The commands of a mnemonic (in upper case) and its operands (30_encoding.md R108, R110-R116). -/
def asmCommands? (mnemonic : List Char) (ops : List AsmOperand) : Option (List Instr) :=
  match String.ofList mnemonic, ops with
  | "END", [] => some [.endList]
  | "NOP", [] => some [.nop]
  | "CCF", [] => some [.ccf]
  | "CCI", [] => some [.cci]
  | "LDT", [.treg d, .channel c] => some [.ldt d (channelField c) false]
  | "LDT", [.treg d, .channel c, .inc] => some [.ldt d (channelField c) true]
  | "STT", [.treg r, .channel c] => some [.stt r (channelField c) false]
  | "STT", [.treg r, .channel c, .inc] => some [.stt r (channelField c) true]
  | "FDCT", [.treg d, .treg r] => some [.fdct d r]
  | "IDCT", [.treg d, .treg r] => some [.idct d r]
  | "QNT", [.treg d, .treg r, .table t] => some [.qnt d r t]
  | "DQNT", [.treg d, .treg r, .table t] => some [.dqnt d r t]
  | "ZZS", [.treg d, .treg r] => some [.zzs d r]
  | "ZZU", [.treg d, .treg r] => some [.zzu d r]
  | "RLE", [.treg r] => some [.rle r]
  | "RLD", [.treg d] => some [.rld d]
  | "ENCC", [.channel c, .table t] => some [.encc (channelField c) t]
  | "DECC", [.channel c, .table t] => some [.decc (channelField c) t]
  | "ENC.Y", [] => some (Pseudo.enc .y).expand
  | "ENC.CB", [] => some (Pseudo.enc .cb).expand
  | "ENC.CR", [] => some (Pseudo.enc .cr).expand
  | "DEC.Y", [] => some (Pseudo.dec .y).expand
  | "DEC.CB", [] => some (Pseudo.dec .cb).expand
  | "DEC.CR", [] => some (Pseudo.dec .cr).expand
  | "ENCT", [.treg w, .channel c, .table t] => some (Pseudo.enct w c t).expand
  | "DECT", [.treg w, .channel c, .table t] => some (Pseudo.dect w c t).expand
  | "ENCIMG", [] => some Pseudo.encImg.expand
  | "DECIMG", [] => some Pseudo.decImg.expand
  | _, _ => none

/-- A hexadecimal digit, in upper case. -/
def hexDigit? (c : Char) : Option Nat :=
  if '0' ≤ c ∧ c ≤ '9' then some (c.toNat - 48)
  else if 'A' ≤ c ∧ c ≤ 'F' then some (c.toNat - 55) else none

/-- Hexadecimal digits, most significant first. -/
def hexValue? (acc : Nat) : List Char → Option Nat
  | [] => some acc
  | c :: cs =>
    match hexDigit? c with
    | some d => hexValue? (acc * 16 + d) cs
    | none => none

/-- The word of a `.word 0xHHHHHHHH` line: eight hexadecimal digits (30_encoding.md R108). -/
def rawWord? (t : List Char) : Option Word :=
  match t with
  | '0' :: 'X' :: ds => if ds.length = 8 then (hexValue? 0 ds).map (BitVec.ofNat 32) else none
  | _ => none

/-- A blank of a line. -/
def isBlank (c : Char) : Bool := c == ' ' || c == '\t'

/-- Drop the blanks at both ends. -/
def trimText (t : List Char) : List Char := ((t.dropWhile isBlank).reverse.dropWhile isBlank).reverse

/-- Cut at the commas; `acc` is the piece being read, reversed. -/
def splitCommas (acc : List Char) : List Char → List (List Char)
  | [] => [acc.reverse]
  | c :: cs => if c = ',' then acc.reverse :: splitCommas [] cs else splitCommas (c :: acc) cs

/-- All operands, or none if one is no operand. -/
def allOperands? : List (List Char) → Option (List AsmOperand)
  | [] => some []
  | t :: ts =>
    match asmOperand? (trimText t), allOperands? ts with
    | some o, some os => some (o :: os)
    | _, _ => none

/-- The words one line stands for; `;` starts a comment, an empty line stands for none (30_encoding.md R108). `none` where
the line is no command. -/
def assembleLine (line : List Char) : Option (List Word) :=
  let t := upperText (trimText (line.takeWhile (· != ';')))
  let mnemonic := t.takeWhile fun c => !isBlank c
  let rest := trimText (t.dropWhile fun c => !isBlank c)
  if t = [] then some []
  else if mnemonic = ['.', 'W', 'O', 'R', 'D'] then (rawWord? rest).map fun w => [w]
  else
    match if rest = [] then some [] else allOperands? (splitCommas [] rest) with
    | none => none
    | some ops => (asmCommands? mnemonic ops).map fun is => is.map encode

/-- A program text: its lines in order, each in the next words of CMDMEM (30_encoding.md R108, R115). -/
def assemble : List (List Char) → Option (List Word)
  | [] => some []
  | l :: ls =>
    match assembleLine l, assemble ls with
    | some w, some ws => some (w ++ ws)
    | _, _ => none

end Sys2Proof.Machine
end

