-- ==== Sys2Proof/Safety.lean ====
section
/-! DEFINITION. The terms claims use: the machine invariant, what a command may not change, and when a command's
operands are ready. -/

namespace Sys2Proof.Machine

/-- Every listed key is below `n`: the memory has no cell outside its address space. -/
def Cells.below {α : Type} (n : Nat) (m : Cells α) : Prop := ∀ c ∈ m, c.1 < n

/-- What holds of the machine after reset and after every step from a state where it holds. -/
structure Inv (s : State) : Prop where
  /-- the parameters are in the range of 00_scope.md R7 -/
  legal : s.params.Legal
  /-- DMEM keeps its canonical form -/
  dmemWf : Memory.wf s.dmem
  /-- DMEM has no byte at or above DMEM_BYTES (20_memory.md R70) -/
  dmemBelow : Cells.below s.params.dmemBytes s.dmem
  /-- CMDMEM keeps its canonical form -/
  cmdWf : Cells.wf s.cmdmem
  /-- CMDMEM has no word at or above N_CMD (20_memory.md R70) -/
  cmdBelow : Cells.below s.params.nCmd s.cmdmem
  /-- an abort is pending only during a run (10_state.md R40) -/
  idleNoAbort : s.busy = false → s.abortPend = false
  /-- a run in progress has no error (10_state.md R40) -/
  busyNoErr : s.busy = true → s.err = false
  /-- without an error the error registers are 0 (10_state.md R41, R42) -/
  noErrClear : s.err = false → s.errCode = .eNone ∧ s.errPc = 0
  /-- an error has a code (10_state.md R41) -/
  errHasCode : s.err = true → s.errCode ≠ .eNone
  /-- nothing runs while the reset pin is low (70_reset_and_hazards.md R290, R291) -/
  lowIdle : s.rstN = false → s.busy = false

/-- Nothing that only the host, the reset pin or nobody writes has changed: the "written by the core: never" rows of
10_state.md R36, the interrupt enables, HACC, the tables, CMDMEM, and the model's environment fields. -/
structure SameConfiguration (s t : State) : Prop where
  params : t.params = s.params
  host : t.host = s.host
  resp : t.resp = s.resp
  resets : t.resets = s.resets
  rstN : t.rstN = s.rstN
  hacc : t.hacc = s.hacc
  doneIe : t.doneIe = s.doneIe
  errIe : t.errIe = s.errIe
  width : t.width = s.width
  height : t.height = s.height
  pixBase : t.pixBase = s.pixBase
  planeBase : ∀ c, t.planeBase c = s.planeBase c
  rleLimit : t.rleLimit = s.rleLimit
  qt : ∀ sel, t.qt sel = s.qt sel
  cmdmem : t.cmdmem = s.cmdmem

/-- The run goes on as it was: STATUS.BUSY, STATUS.ERR, STATUS.ABORTPEND, ERRCODE, ERRPC and IS are unchanged. -/
structure SameRun (s t : State) : Prop where
  busy : t.busy = s.busy
  err : t.err = s.err
  abortPend : t.abortPend = s.abortPend
  errCode : t.errCode = s.errCode
  errPc : t.errPc = s.errPc
  isDone : t.isDone = s.isDone
  isErr : t.isErr = s.isErr

/-- The registers a command may advance are unchanged: RLE_PTR, TIDX and the tile counts. -/
structure SameProgress (s t : State) : Prop where
  rlePtr : t.rlePtr = s.rlePtr
  tidx : t.tidx = s.tidx
  tcount : ∀ c, t.tcount c = s.tcount c

/-- Every byte of DMEM outside `lo ≤ a < hi` reads as before. -/
def SameDmemOutside (lo hi : Nat) (s t : State) : Prop :=
  ∀ a, a < lo ∨ hi ≤ a → cellRead t.dmem a = cellRead s.dmem a

/-- Every byte of DMEM reads as before. -/
def SameDmem (s t : State) : Prop := ∀ a, cellRead t.dmem a = cellRead s.dmem a

/-- Every byte of the region has been written since reset. -/
def regionWritten (m : Memory) (r : Region) : Prop := ∀ a, r.lo ≤ a → a < r.hi → ∃ b, cellRead m a = some b

/-- Plane `c` passes the checks of a command that uses it (60_exceptions.md R264, items 4 to 6). -/
structure PlaneReady (c : Channel) (s : State) : Prop where
  width : s.width ≠ 0
  height : s.height ≠ 0
  aligned : (s.planeBase c).toNat % 4 = 0
  fits : (s.planeBase c).toNat + 4 * (s.width.toNat * s.height.toNat) ≤ s.params.dmemBytes

/-- No entry of the selected table is 0 (44_quantizer.md R192). -/
def TableReady (t : TableSel) (s : State) : Prop := ∀ e : Fin 64, (s.qt t)[e] ≠ 0#16

/-- The pixel buffer fits (20_memory.md R79). -/
def PixelsReady (s : State) : Prop :=
  s.pixBase.toNat + 3 * (s.width.toNat * s.height.toNat) ≤ s.params.dmemBytes

/-- Two regions share no byte. -/
def Region.Disjoint (r q : Region) : Prop := r.hi ≤ q.lo ∨ q.hi ≤ r.lo

/-- One row of the opcode table of 30_encoding.md R104. -/
structure OpcodeRow where
  op : Nat
  pattern : Word
  mask : Word
  usesChannel : Bool
  deriving DecidableEq, Repr

/-- The opcode table of 30_encoding.md R104, in its order. -/
def opcodeRows : List OpcodeRow :=
  [⟨0x00, 0x0000_0000#32, 0xFFFF_FFFF#32, false⟩, ⟨0x01, 0x0400_0000#32, 0xFFFF_FFFF#32, false⟩,
   ⟨0x02, 0x0800_0000#32, 0xFFFF_FFFF#32, false⟩, ⟨0x03, 0x0C00_0000#32, 0xFFFF_FFFF#32, false⟩,
   ⟨0x04, 0x1000_0000#32, 0xFC72_FFFF#32, true⟩, ⟨0x05, 0x1400_0000#32, 0xFF82_FFFF#32, true⟩,
   ⟨0x06, 0x1800_0000#32, 0xFC0F_FFFF#32, false⟩, ⟨0x07, 0x1C00_0000#32, 0xFC0F_FFFF#32, false⟩,
   ⟨0x08, 0x2000_0000#32, 0xFC0D_FFFF#32, false⟩, ⟨0x09, 0x2400_0000#32, 0xFC0D_FFFF#32, false⟩,
   ⟨0x0A, 0x2800_0000#32, 0xFC0F_FFFF#32, false⟩, ⟨0x0B, 0x2C00_0000#32, 0xFC0F_FFFF#32, false⟩,
   ⟨0x0C, 0x3000_0000#32, 0xFF8F_FFFF#32, false⟩, ⟨0x0D, 0x3400_0000#32, 0xFC7F_FFFF#32, false⟩,
   ⟨0x0E, 0x3800_0000#32, 0xFFF1_FFFF#32, true⟩, ⟨0x0F, 0x3C00_0000#32, 0xFFF1_FFFF#32, true⟩]

/-- From address `p` on, DMEM holds records that decode to these tiles one after another, all below `limit`; the last ends
at `q` (20_memory.md R83). -/
def RecordsAt (m : Memory) (limit : Nat) : Nat → List Tile → Nat → Prop
  | p, [], q => p = q
  | p, t :: ts, q => ∃ next, readRecord m p limit = .record t next ∧ RecordsAt m limit next ts q

/-- The run ends with no refusal: a stopped sequencer or a model fault. -/
def Stopped : Result → Prop
  | .next t => t.busy = false
  | .fault _ => True
  | .refused _ => False

/-- Run commands one after another as a run does, each only while the run still goes on (30_encoding.md R115). -/
def execSequence : List Instr → State → Result
  | [], s => .next s
  | i :: is, s =>
    if s.busy then
      match exec i s with
      | .next t => execSequence is t
      | .fault f => .fault f
      | .refused r => .refused r
    else .next s

end Sys2Proof.Machine
end

