-- ==== Sys2Proof/Certificates/Slice0/Obligations.lean ====
section
/-! DEFINITION. The statements for the provers: what the numbered rules of spec/ say the machine does. -/

open Sys2Proof Sys2Proof.Machine

/-! ### Reset, invariant, encoding -/

/-- 70_reset_and_hazards.md R290, 10_state.md R60: the state after reset, for every value of the parameters. -/
def Obligations.ResetLeavesTheSpecifiedState : Prop :=
  State.reset = State.atReset State.reset.params ∧
  ∀ p : Params, let s := State.atReset p
    (s.busy = false ∧ s.abortPend = false ∧ s.err = false ∧ s.ovf = false ∧ s.hacc = false ∧ s.irq = false) ∧
    (∀ c ∈ [Csr.ctrl, .status, .errCode, .errPc, .pc, .ie, .is, .width, .height, .pixBase, .planeBase .y,
        .planeBase .cb, .planeBase .cr, .rlePtr, .rleLimit, .tcount .y, .tcount .cb, .tcount .cr, .tidx, .tilesX,
        .tilesY, .reserved], s.csrRead c = 0#32) ∧
    s.csrRead .id = 0x4243_4131#32 ∧ s.csrRead .version = 0x0001_0000#32 ∧ s.csrRead .tileSz = 8#32 ∧
    s.csrRead .dmemSize = BitVec.ofNat 32 p.dmemBytes ∧ s.csrRead .cmdSize = BitVec.ofNat 32 p.nCmd ∧
    (s.qt .luma).toList.map BitVec.toNat =
      [16, 11, 10, 16, 24, 40, 51, 61, 12, 12, 14, 19, 26, 58, 60, 55] ++
      [14, 13, 16, 24, 40, 57, 69, 56, 14, 17, 22, 29, 51, 87, 80, 62] ++
      [18, 22, 37, 56, 68, 109, 103, 77, 24, 35, 55, 64, 81, 104, 113, 92] ++
      [49, 64, 78, 87, 103, 121, 120, 101, 72, 92, 95, 98, 112, 100, 103, 99] ∧
    (s.qt .chroma).toList.map BitVec.toNat =
      [17, 18, 24, 47, 99, 99, 99, 99, 18, 21, 26, 66, 99, 99, 99, 99] ++
      [24, 26, 56, 99, 99, 99, 99, 99, 47, 66, 99, 99, 99, 99, 99, 99] ++ List.replicate 32 99 ∧
    (∀ (i : TReg) (e : Fin 64), s.tiles[i].written[e] = false) ∧
    (∀ k, cellRead s.cmdmem k = none) ∧ (∀ a, cellRead s.dmem a = none)

/-- The invariant holds after reset, for every legal value of the parameters. -/
def Obligations.ResetMeetsTheInvariant : Prop := ∀ p : Params, p.Legal → Inv (State.atReset p)

/-- Every step keeps the invariant: the memories stay canonical and inside their spaces, STATUS, ERRCODE and ERRPC stay
consistent, nothing runs while the reset pin is low. -/
def Obligations.StepKeepsTheInvariant : Prop := ∀ s t : State, Inv s → step s = .next t → Inv t

/-- Decoding the word of a well-formed command gives it back, operands and all. -/
def Obligations.DecodeOfEncodeIsIdentity : Prop := ∀ i : Instr, i.wellFormed = true → decode (encode i) = .ok i

/-- A decoded word is the word of its command: no two words name one command and every decoded command is well formed.
-/
def Obligations.EncodeOfDecodeIsIdentity : Prop :=
  ∀ (w : Word) (i : Instr), decode w = .ok i → encode i = w ∧ i.wellFormed = true

/-- 30_encoding.md R104: a word is the named command if and only if it matches the row's mask and pattern and, where the
row has a channel field, the channel is not 3. -/
def Obligations.DecodeMatchesTheOpcodeTable : Prop :=
  ∀ w : Word,
    (∀ row ∈ opcodeRows, (∃ i, decode w = .ok i ∧ i.opcode.toNat = row.op) ↔
      (w &&& row.mask = row.pattern ∧ (row.usesChannel = true → w.extractLsb' 18 2 ≠ 3#2))) ∧
    ∀ i, decode w = .ok i → ∃ row ∈ opcodeRows, row.op = i.opcode.toNat

/-- 30_encoding.md R109: the worked encodings, the illegal words and their legal neighbours. -/
def Obligations.WorkedEncodingsDecode : Prop :=
  (∀ p ∈ [((0x0000_0000 : Word), Instr.endList), (0x0400_0000, .nop), (0x0800_0000, .ccf), (0x0C00_0000, .cci),
      (0x1001_0000, .ldt 0 0#2 true), (0x1439_0000, .stt 3 2#2 true), (0x1880_0000, .fdct 1 0),
      (0x1E30_0000, .idct 4 3), (0x2110_0000, .qnt 2 1 .luma), (0x25A2_0000, .dqnt 3 2 .chroma),
      (0x29A0_0000, .zzs 3 2), (0x2D10_0000, .zzu 2 1), (0x3030_0000, .rle 3), (0x3480_0000, .rld 1),
      (0x3800_0000, .encc 0#2 .luma), (0x3806_0000, .encc 1#2 .chroma), (0x380A_0000, .encc 2#2 .chroma),
      (0x3C00_0000, .decc 0#2 .luma), (0x3C06_0000, .decc 1#2 .chroma), (0x3C0A_0000, .decc 2#2 .chroma),
      (0x1890_0000, .fdct 1 1), (0x3808_0000, .encc 2#2 .luma), (0x1009_0000, .ldt 0 2#2 true)],
    decode p.1 = .ok p.2) ∧
  (∀ w ∈ [(0x4000_0000 : Word), 0xFC00_0000, 0x0000_0001, 0x1880_0001, 0x0080_0000, 0x380C_0000, 0x1884_0000,
      0x1003_0000], ∀ i, decode w ≠ .ok i)

/-! ### The sequencer -/

/-- 40_sequencer.md R121: while a run goes on and no abort is pending, a step is `exec` of the command the word at PC
decodes to; an event `sequencer` of the environment's list lets the same step happen. -/
def Obligations.StepRunsTheDecodedCommand : Prop :=
  ∀ (s : State) (w : Word) (i : Instr) (rest : List HostEvent), s.busy = true → s.abortPend = false →
    s.pc.toNat < s.params.nCmd → cellRead s.cmdmem s.pc.toNat = some w → decode w = .ok i →
    (s.host = [] → step s = exec i s) ∧
    (s.host = .sequencer :: rest → step s = exec i { s with host := rest })

/-- 40_sequencer.md R121, R122, 30_encoding.md R105, 60_exceptions.md R264, R266: the ways a step stops before a command
executes, in their order, with all that `stop_error` writes; an unwritten word is a model fault; while idle nothing
changes. -/
def Obligations.StepStopsBeforeExecuting : Prop :=
  ∀ s : State, s.host = [] →
    let stops (e : ErrCode) : Prop := step s = .next { s with errCode := e, errPc := s.pc, err := true, busy := false,
                                                              abortPend := false, isErr := true }
    (s.busy = false → step s = .next s) ∧
    (s.busy = true → s.abortPend = true → stops .eAborted) ∧
    (s.busy = true → s.abortPend = false → s.params.nCmd ≤ s.pc.toNat → stops .ePcRange) ∧
    (s.busy = true → s.abortPend = false → s.pc.toNat < s.params.nCmd →
      (cellRead s.cmdmem s.pc.toNat = none → step s = .fault .unwrittenCommand) ∧
      ∀ w r, cellRead s.cmdmem s.pc.toNat = some w → decode w = .error r → stops .eIllegal)

/-- 40_sequencer.md R123, R125, R126, 60_exceptions.md R263: NOP advances PC and END advances PC, ends the run and sets
IS.DONE; nothing else changes. -/
def Obligations.EndAndNopHaveNoOtherEffect : Prop :=
  ∀ s : State, exec .nop s = .next { s with pc := s.pc + 1 } ∧
    exec .endList s = .next { s with pc := s.pc + 1, busy := false, abortPend := false, isDone := true }

/-- 40_sequencer.md R123, R124: with no event of the environment left, a machine with legal parameters stops within
`N_CMD + 1` steps, whatever the command list. Runs into which the host still acts are not spoken of. -/
def Obligations.EveryRunStops : Prop :=
  ∀ s : State, s.params.Legal → s.host = [] → ∃ k ≤ s.params.nCmd + 1, Stopped (Host.Core.run Sys2Proof.core k s)

/-! ### Errors -/

/-- 42_blockgrid.md R152, R153, 60_exceptions.md R264: the checks of LDT and STT, in order. -/
def Obligations.TileTransfersCheckInOrder : Prop :=
  ∀ (s : State) (r : TReg) (c : Channel) (inc : Bool),
    let W := s.width.toNat; let H := s.height.toNat; let base := (s.planeBase c).toNat
    let stops (e : ErrCode) : Prop := exec (.ldt r (channelField c) inc) s = .next (s.stopError e) ∧
      exec (.stt r (channelField c) inc) s = .next (s.stopError e)
    (W = 0 ∨ H = 0 → stops .eDim) ∧
    (W ≠ 0 → H ≠ 0 → base % 4 ≠ 0 → stops .eAlign) ∧
    (W ≠ 0 → H ≠ 0 → base % 4 = 0 → s.params.dmemBytes < base + 4 * (W * H) → stops .eAddr) ∧
    (W ≠ 0 → H ≠ 0 → base % 4 = 0 → base + 4 * (W * H) ≤ s.params.dmemBytes →
      ceil8 W * ceil8 H ≤ s.tidx.toNat → stops .eTIdx)

/-- 41_colorspace.md R132, R135, 60_exceptions.md R264: the checks of CCF and CCI, in order. -/
def Obligations.ColorConvertersCheckInOrder : Prop :=
  ∀ s : State,
    let W := s.width.toNat; let H := s.height.toNat
    let stops (e : ErrCode) : Prop := exec .ccf s = .next (s.stopError e) ∧ exec .cci s = .next (s.stopError e)
    (W = 0 ∨ H = 0 → stops .eDim) ∧
    (W ≠ 0 → H ≠ 0 → (∃ c, (s.planeBase c).toNat % 4 ≠ 0) → stops .eAlign) ∧
    (W ≠ 0 → H ≠ 0 → (∀ c, (s.planeBase c).toNat % 4 = 0) →
      (s.params.dmemBytes < s.pixBase.toNat + 3 * (W * H) ∨
        ∃ c, s.params.dmemBytes < (s.planeBase c).toNat + 4 * (W * H)) → stops .eAddr)

/-- 44_quantizer.md R190-R192: a 0 entry of the selected table stops QNT and DQNT, whatever the tile holds. -/
def Obligations.QuantizerRefusesAZeroEntry : Prop :=
  ∀ (s : State) (rd rs : TReg) (t : TableSel) (e : Fin 64), (s.qt t)[e] = 0#16 →
    exec (.qnt rd rs t) s = .next (s.stopError .eQtZero) ∧ exec (.dqnt rd rs t) s = .next (s.stopError .eQtZero)

/-- 45_coefcoder.md R216, R218: the checks of RLE and RLD, in order. That an element nothing has written is read as a
free value, where R33 and R275 ask a model to fault, is the model's choice (log 1). -/
def Obligations.StreamCommandsCheckInOrder : Prop :=
  ∀ (s : State) (r : TReg),
    let p := s.rlePtr.toNat; let limit := s.rleLimit.toNat
    (s.params.dmemBytes < limit → exec (.rle r) s = .next (s.stopError .eAddr) ∧
      exec (.rld r) s = .next (s.stopError .eAddr)) ∧
    (limit ≤ s.params.dmemBytes → limit < p + (2 + 3 * (pairs (s.readTile r)).length) →
      exec (.rle r) s = .next (s.stopError .eRleFull)) ∧
    (limit ≤ s.params.dmemBytes → limit < p + 2 → exec (.rld r) s = .next (s.stopError .eRleTrunc)) ∧
    (∀ n, limit ≤ s.params.dmemBytes → p + 2 ≤ limit → readBE s.dmem p 2 = some n → limit < p + (2 + 3 * n) →
      exec (.rld r) s = .next (s.stopError .eRleTrunc))

/-- 46_pipeline.md R240, R242, 60_exceptions.md R264: the checks ENCC and DECC make before any write, in order. -/
def Obligations.ChannelPassesCheckInOrder : Prop :=
  ∀ (s : State) (c : Channel) (t : TableSel),
    let W := s.width.toNat; let H := s.height.toNat; let base := (s.planeBase c).toNat
    let stops (e : ErrCode) : Prop := exec (.encc (channelField c) t) s = .next (s.stopError e) ∧
      exec (.decc (channelField c) t) s = .next (s.stopError e)
    (W = 0 ∨ H = 0 → stops .eDim) ∧
    (W ≠ 0 → H ≠ 0 → base % 4 ≠ 0 → stops .eAlign) ∧
    (W ≠ 0 → H ≠ 0 → base % 4 = 0 →
      (s.params.dmemBytes < base + 4 * (W * H) ∨ s.params.dmemBytes < s.rleLimit.toNat) → stops .eAddr) ∧
    (PlaneReady c s → s.rleLimit.toNat ≤ s.params.dmemBytes → (∃ e : Fin 64, (s.qt t)[e] = 0#16) → stops .eQtZero) ∧
    (PlaneReady c s → s.rleLimit.toNat ≤ s.params.dmemBytes → TableReady t s →
      (s.tcount c).toNat ≠ ceil8 W * ceil8 H →
      exec (.decc (channelField c) t) s = .next (s.stopError .eTCount))

/-- The reserved channel 3 is illegal (30_encoding.md R105 (d)): no decoded word has it, and the meanings, given such a
term, raise E_ILLEGAL. The second half is the model's choice (log 13). -/
def Obligations.ReservedChannelIsIllegal : Prop :=
  (∀ (w : Word) (i : Instr), decode w = .ok i → ∀ (r : TReg) (b : Bool) (t : TableSel),
    i ≠ .ldt r 3#2 b ∧ i ≠ .stt r 3#2 b ∧ i ≠ .encc 3#2 t ∧ i ≠ .decc 3#2 t) ∧
  ∀ (s : State) (r : TReg) (b : Bool) (t : TableSel),
    ∀ i ∈ [Instr.ldt r 3#2 b, .stt r 3#2 b, .encc 3#2 t, .decc 3#2 t], exec i s = .next (s.stopError .eIllegal)

/-- 60_exceptions.md R265, R266: during a run a command that leaves STATUS.BUSY at 0 is END, or stopped with an error
that changed nothing but what `stop_error` writes, or is ENCC or DECC stopped by a mid-command stream error. -/
def Obligations.AStoppedCommandHadNoEffect : Prop :=
  ∀ (i : Instr) (s t : State), s.busy = true → exec i s = .next t → t.busy = false →
    i = .endList ∨
    (∃ e, e ≠ .eNone ∧ t = { s with errCode := e, errPc := s.pc, err := true, busy := false, abortPend := false,
                                    isErr := true }) ∨
    (∃ ch tb, i = .encc ch tb ∧ t.errCode = .eRleFull ∧ t.draws = s.draws + 1) ∨
    (∃ ch tb, i = .decc ch tb ∧ t.errCode = .eRleTrunc ∧ t.draws = s.draws + 1)

/-- 46_pipeline.md R244: where the up-front checks pass, the tiles before some tile are done and its record does not
fit below RLE_LIMIT, ENCC stops with E_RLE_FULL and DECC with E_RLE_TRUNC. PC, ERRPC and the error registers are
exact, and outside the named region, RLE_PTR and OVF nothing else changes. `xs` and `vs` are the tiles already done,
none of them where the first record does not fit. What the region, RLE_PTR and OVF hold is free (log 8). -/
def Obligations.MidCommandStreamErrors : Prop :=
  ∀ (s : State) (c : Channel) (tb : TableSel), PlaneReady c s → TableReady tb s →
    s.rleLimit.toNat ≤ s.params.dmemBytes → (s.plane c).region.Disjoint s.streamRegion →
    let nt := ceil8 s.width.toNat * ceil8 s.height.toNat; let limit := s.rleLimit.toNat
    let tileRecord (x : Tile) : List Byte := record (pairs (scan (qnt (fdct x) (s.qt tb))))
    let stopped (u : State) (e : ErrCode) (lo hi : Nat) : Prop :=
      u.errCode = e ∧ u.errPc = s.pc ∧ u.pc = s.pc ∧ u.err = true ∧ u.busy = false ∧ u.abortPend = false ∧
      u.isErr = true ∧ u.isDone = s.isDone ∧ u.tiles = s.tiles ∧ u.tidx = s.tidx ∧
      (∀ d, u.tcount d = s.tcount d) ∧ SameConfiguration s u ∧ SameDmemOutside lo hi s u
    (∀ (xs : List Tile) (x : Tile), xs.length < nt →
      (∀ i (h : i < xs.length), partition s.dmem (s.plane c) i = some xs[i]) →
      partition s.dmem (s.plane c) xs.length = some x →
      let q := s.rlePtr.toNat + (xs.flatMap tileRecord).length
      xs = [] ∨ q ≤ limit → limit < q + (tileRecord x).length →
      ∃ u, exec (.encc (channelField c) tb) s = .next u ∧ stopped u .eRleFull s.rlePtr.toNat limit) ∧
    ∀ (vs : List Tile) (q : Nat), vs.length < nt → (s.tcount c).toNat = nt →
      RecordsAt s.dmem limit s.rlePtr.toNat vs q →
      (limit < q + 2 ∨ ∃ n, q + 2 ≤ limit ∧ readBE s.dmem q 2 = some n ∧ limit < q + (2 + 3 * n)) →
      ∃ u, exec (.decc (channelField c) tb) s = .next u ∧
        stopped u .eRleTrunc (s.plane c).region.lo (s.plane c).region.hi

/-- 20_memory.md R84, 60_exceptions.md R275: overlapping regions are the model fault F_OVERLAP. That the fault stands
after the command's own checks, and that DECC's region is the whole of R84's and not the records R245 names, is the
model's reading (log 9). -/
def Obligations.OverlapIsAModelFault : Prop :=
  ∀ s : State,
    ((∀ c, PlaneReady c s) → PixelsReady s →
      ((∃ c, s.pixRegion.overlaps (s.plane c).region = true) →
        exec .ccf s = .fault .overlap ∧ exec .cci s = .fault .overlap) ∧
      ((∃ c d, c ≠ d ∧ (s.plane c).region.overlaps (s.plane d).region = true) → exec .ccf s = .fault .overlap)) ∧
    ∀ (c : Channel) (tb : TableSel), PlaneReady c s → TableReady tb s → s.rleLimit.toNat ≤ s.params.dmemBytes →
      (s.plane c).region.overlaps s.streamRegion = true →
      exec (.encc (channelField c) tb) s = .fault .overlap ∧
      ((s.tcount c).toNat = s.tileCount → exec (.decc (channelField c) tb) s = .fault .overlap)

/-! ### What each command computes, and where it completes -/

/-- 41_colorspace.md R130, R132: CCF completes where its checks pass, the regions are apart and the pixel bytes are
written; every plane word is the converted sample. -/
def Obligations.CcfConvertsEveryPixel : Prop :=
  ∀ s : State, (∀ c, PlaneReady c s) → PixelsReady s →
    (∀ c, s.pixRegion.Disjoint (s.plane c).region) →
    (∀ c d, c ≠ d → (s.plane c).region.Disjoint (s.plane d).region) → regionWritten s.dmem s.pixRegion →
    ∃ t, exec .ccf s = .next t ∧ t.pc = s.pc + 1 ∧ t.ovf = s.ovf ∧
      ∀ p < s.width.toNat * s.height.toNat, ∀ rb gb bb : Byte,
        cellRead s.dmem (s.pixBase.toNat + 3 * p) = some rb → cellRead s.dmem (s.pixBase.toNat + 3 * p + 1) = some gb →
        cellRead s.dmem (s.pixBase.toNat + 3 * p + 2) = some bb →
        let r : Int := rb.toNat; let g : Int := gb.toNat; let b : Int := bb.toNat
        let word (n : Int) : Word := BitVec.ofInt 32 (clamp255 (rne n 1000000) * 2 ^ 16)
        readWord t.dmem (s.planeBase0.toNat + 4 * p) = some (word (299000 * r + 587000 * g + 114000 * b)) ∧
        readWord t.dmem (s.planeBase1.toNat + 4 * p) =
          some (word (-168736 * r - 331264 * g + 500000 * b + 128000000)) ∧
        readWord t.dmem (s.planeBase2.toNat + 4 * p) =
          some (word (500000 * r - 418688 * g - 81312 * b + 128000000))

/-- 41_colorspace.md R131, R135: CCI completes where its checks pass, the buffer is apart from the planes and the plane
bytes are written; every pixel byte is the converted one. That planes which overlap each other are no fault here is the
model's reading of 20_memory.md R84 (log 9). -/
def Obligations.CciConvertsEveryPixel : Prop :=
  ∀ s : State, (∀ c, PlaneReady c s) → PixelsReady s →
    (∀ c, s.pixRegion.Disjoint (s.plane c).region) → (∀ c, regionWritten s.dmem (s.plane c).region) →
    ∃ t, exec .cci s = .next t ∧ t.pc = s.pc + 1 ∧ t.ovf = s.ovf ∧
      ∀ p < s.width.toNat * s.height.toNat, ∀ yw cbw crw : Word,
        readWord s.dmem (s.planeBase0.toNat + 4 * p) = some yw →
        readWord s.dmem (s.planeBase1.toNat + 4 * p) = some cbw →
        readWord s.dmem (s.planeBase2.toNat + 4 * p) = some crw →
        let y := yw.toInt; let cb := cbw.toInt - 0x0080_0000; let cr := crw.toInt - 0x0080_0000
        let byte (n : Int) : Byte := BitVec.ofInt 8 (clamp255 (rne n (1000000 * 2 ^ 16)))
        cellRead t.dmem (s.pixBase.toNat + 3 * p) = some (byte (1000000 * y + 1402000 * cr)) ∧
        cellRead t.dmem (s.pixBase.toNat + 3 * p + 1) = some (byte (1000000 * y - 344136 * cb - 714136 * cr)) ∧
        cellRead t.dmem (s.pixBase.toNat + 3 * p + 2) = some (byte (1000000 * y + 1772000 * cb))

/-- 42_blockgrid.md R151, R152: LDT completes where its checks pass and the plane is written; each element is its
sample, or 0 in the padding. -/
def Obligations.LdtLoadsTheTile : Prop :=
  ∀ (s : State) (rd : TReg) (c : Channel) (inc : Bool), PlaneReady c s →
    s.tidx.toNat < ceil8 s.width.toNat * ceil8 s.height.toNat → regionWritten s.dmem (s.plane c).region →
    ∃ t, exec (.ldt rd (channelField c) inc) s = .next t ∧ t.pc = s.pc + 1 ∧ t.ovf = s.ovf ∧
      t.tidx = (if inc then s.tidx + 1 else s.tidx) ∧
      ∀ r k : Fin 8,
        let W := s.width.toNat; let i := s.tidx.toNat
        let y := 8 * (i / ceil8 W) + r.val; let x := 8 * (i % ceil8 W) + k.val
        (y < s.height.toNat ∧ x < W →
          some (t.tileElem rd (elemAt r k)) = readWord s.dmem ((s.planeBase c).toNat + 4 * (y * W + x))) ∧
        (¬(y < s.height.toNat ∧ x < W) → t.tileElem rd (elemAt r k) = 0#32)

/-- 42_blockgrid.md R153, R154: STT completes where its checks pass; each in-range element stands at its sample, and
no other byte of DMEM changes. That an element nothing has written is read as a free value, where R33 and R275 ask a
model to fault, is the model's choice (log 1). -/
def Obligations.SttStoresTheTile : Prop :=
  ∀ (s : State) (rs : TReg) (c : Channel) (inc : Bool), PlaneReady c s →
    s.tidx.toNat < ceil8 s.width.toNat * ceil8 s.height.toNat →
    ∃ t, exec (.stt rs (channelField c) inc) s = .next t ∧ t.pc = s.pc + 1 ∧ t.ovf = s.ovf ∧
      t.tidx = (if inc then s.tidx + 1 else s.tidx) ∧
      (∀ r k : Fin 8,
        let W := s.width.toNat; let i := s.tidx.toNat
        let y := 8 * (i / ceil8 W) + r.val; let x := 8 * (i % ceil8 W) + k.val
        y < s.height.toNat ∧ x < W →
          readWord t.dmem ((s.planeBase c).toNat + 4 * (y * W + x)) = some (s.tileElem rs (elemAt r k))) ∧
      ∀ b, (∀ e a, (s.plane c).elemAddr s.tidx.toNat e = some a → b < a ∨ a + 4 ≤ b) →
        cellRead t.dmem b = cellRead s.dmem b

/-- 43_transform.md R172, R173: FDCT completes in every state; element `8u + v` is the exact double sum, rounded once
and saturated, and OVF is set if one saturates. That an element nothing has written is read as a free value, where R33
and R275 ask a model to fault, is the model's choice (log 1). -/
def Obligations.FdctIsTheRoundedSum : Prop :=
  ∀ (s : State) (rd rs : TReg), ∃ t, exec (.fdct rd rs) s = .next t ∧ t.pc = s.pc + 1 ∧
    let n (u v : Fin 8) : Int :=
      rne (∑ r : Fin 8, ∑ c : Fin 8, dctK u r * (s.tileElem rs (elemAt r c)).toInt * dctK v c) (2 ^ 60)
    (∀ u v, t.tileElem rd (elemAt u v) = BitVec.ofInt 32 (sat 32 (n u v))) ∧
    (t.ovf = true ↔ s.ovf = true ∨ ∃ u v, n u v < -2147483648 ∨ 2147483647 < n u v)

/-- 43_transform.md R172, R174: IDCT completes in every state; element `8r + c` is the exact double sum, rounded once
and saturated, and OVF is set if one saturates. That an element nothing has written is read as a free value, where R33
and R275 ask a model to fault, is the model's choice (log 1). -/
def Obligations.IdctIsTheRoundedSum : Prop :=
  ∀ (s : State) (rd rs : TReg), ∃ t, exec (.idct rd rs) s = .next t ∧ t.pc = s.pc + 1 ∧
    let n (r c : Fin 8) : Int :=
      rne (∑ u : Fin 8, ∑ v : Fin 8, dctK u r * (s.tileElem rs (elemAt u v)).toInt * dctK v c) (2 ^ 60)
    (∀ r c, t.tileElem rd (elemAt r c) = BitVec.ofInt 32 (sat 32 (n r c))) ∧
    (t.ovf = true ↔ s.ovf = true ∨ ∃ r c, n r c < -2147483648 ∨ 2147483647 < n r c)

/-- 44_quantizer.md R190: QNT completes where the table has no 0 entry; each element is the rounded quotient,
saturated to 16 bits, and OVF is set if one saturates. That an element nothing has written is read as a free value,
where R33 and R275 ask a model to fault, is the model's choice (log 1). -/
def Obligations.QntDividesAndRounds : Prop :=
  ∀ (s : State) (rd rs : TReg) (tb : TableSel), TableReady tb s →
    ∃ t, exec (.qnt rd rs tb) s = .next t ∧ t.pc = s.pc + 1 ∧
      let n (e : Fin 64) : Int := rne (s.tileElem rs e).toInt (((s.qt tb)[e].toNat : Int) * 2 ^ 16)
      (∀ e, t.tileElem rd e =
        BitVec.ofInt 32 (if n e < -32768 then -32768 else if 32767 < n e then 32767 else n e)) ∧
      (t.ovf = true ↔ s.ovf = true ∨ ∃ e, n e < -32768 ∨ 32767 < n e)

/-- 44_quantizer.md R191: DQNT completes where the table has no 0 entry; each element is the exact product, saturated
to 32 bits, and OVF is set if one saturates. That an element nothing has written is read as a free value, where R33
and R275 ask a model to fault, is the model's choice (log 1). -/
def Obligations.DqntMultiplies : Prop :=
  ∀ (s : State) (rd rs : TReg) (tb : TableSel), TableReady tb s →
    ∃ t, exec (.dqnt rd rs tb) s = .next t ∧ t.pc = s.pc + 1 ∧
      let n (e : Fin 64) : Int := (s.tileElem rs e).toInt * ((s.qt tb)[e].toNat : Int) * 2 ^ 16
      (∀ e, t.tileElem rd e = BitVec.ofInt 32
        (if n e < -2147483648 then -2147483648 else if 2147483647 < n e then 2147483647 else n e)) ∧
      (t.ovf = true ↔ s.ovf = true ∨ ∃ e, n e < -2147483648 ∨ 2147483647 < n e)

/-- 45_coefcoder.md R210-R212: ZZS and ZZU complete in every state. Position `i` of the sequence is the `i`-th element
along the diagonals `d = r + c` taken in ascending order, walked with `r` falling for even `d` and rising for odd `d`;
`k` counts the elements that come before `(r, c)` on that walk. That an element nothing has written is read as a free
value, where R33 and R275 ask a model to fault, is the model's choice (log 1). -/
def Obligations.ZigzagMovesElements : Prop :=
  ∀ (s : State) (rd rs : TReg),
    let before (r c r' c' : Fin 8) : Bool := decide (r'.val + c'.val < r.val + c.val) ||
      (decide (r'.val + c'.val = r.val + c.val) &&
        if (r.val + c.val) % 2 = 0 then decide (r.val < r'.val) else decide (r'.val < r.val))
    let position (r c : Fin 8) : Nat :=
      ((List.finRange 8).flatMap fun r' => (List.finRange 8).filter fun c' => before r c r' c').length
    (∃ t, exec (.zzs rd rs) s = .next t ∧ t.pc = s.pc + 1 ∧ t.ovf = s.ovf ∧
      ∀ (r c : Fin 8) (k : Fin 64), k.val = position r c → t.tileElem rd k = s.tileElem rs (elemAt r c)) ∧
    (∃ t, exec (.zzu rd rs) s = .next t ∧ t.pc = s.pc + 1 ∧ t.ovf = s.ovf ∧
      ∀ (r c : Fin 8) (k : Fin 64), k.val = position r c → t.tileElem rd (elemAt r c) = s.tileElem rs k)

/-- 45_coefcoder.md R216: RLE completes where RLE_LIMIT is inside DMEM and the record fits; the record's bytes stand
at RLE_PTR, which moves past them, and OVF is set if an element is outside 16 bits. That an element nothing has
written is read as a free value, where R33 and R275 ask a model to fault, is the model's choice (log 1). -/
def Obligations.RleAppendsTheRecord : Prop :=
  ∀ (s : State) (rs : TReg),
    let ps := pairs (s.readTile rs); let p := s.rlePtr.toNat
    s.rleLimit.toNat ≤ s.params.dmemBytes → p + (2 + 3 * ps.length) ≤ s.rleLimit.toNat →
    ∃ t, exec (.rle rs) s = .next t ∧ t.pc = s.pc + 1 ∧ t.rlePtr.toNat = p + (2 + 3 * ps.length) ∧
      (∀ j (h : j < (record ps).length), cellRead t.dmem (p + j) = some (record ps)[j]) ∧
      (t.ovf = true ↔ s.ovf = true ∨ ∃ e, (s.tileElem rs e).toInt < -32768 ∨ 32767 < (s.tileElem rs e).toInt)

/-- 45_coefcoder.md R214: the pairs of a sequence. An all-zero sequence has the one pair (0, 0); otherwise every value
is nonzero and the pairs, expanded, are the saturated values up to the last nonzero one. -/
def Obligations.PairsDescribeTheSequence : Prop :=
  ∀ x : Tile,
    let vs : List Int := x.toList.map fun w => sat 16 w.toInt
    1 ≤ (pairs x).length ∧ (pairs x).length ≤ 64 ∧
    (∀ q ∈ pairs x, q.1 ≤ 63 ∧ -32768 ≤ q.2 ∧ q.2 ≤ 32767) ∧
    ((∀ v ∈ vs, v = 0) → pairs x = [(0, 0)]) ∧
    ((∃ v ∈ vs, v ≠ 0) → (∀ q ∈ pairs x, q.2 ≠ 0) ∧
      ∃ k, ((pairs x).flatMap fun q => List.replicate q.1 0 ++ [q.2]) ++ List.replicate k 0 = vs)

/-- 20_memory.md R82, 45_coefcoder.md R215: the bytes of a record. -/
def Obligations.RecordHasTheSpecifiedBytes : Prop :=
  ∀ ps : List RunPair, ps.length < 65536 →
    (record ps).length = 2 + 3 * ps.length ∧
    (record ps)[0]? = some (BitVec.ofNat 8 (ps.length / 256)) ∧ (record ps)[1]? = some (BitVec.ofNat 8 ps.length) ∧
    ∀ j (h : j < ps.length),
      (record ps)[2 + 3 * j]? = some (BitVec.ofNat 8 ps[j].1) ∧
      (record ps)[3 + 3 * j]? = some (BitVec.ofInt 8 (ps[j].2 / 256)) ∧
      (record ps)[4 + 3 * j]? = some (BitVec.ofInt 8 ps[j].2)

/-- 45_coefcoder.md R217, R218: RLD completes where a whole written record lies below RLE_LIMIT; the tile holds the
first 64 values of the expanded pairs, padded with zeros, and RLE_PTR moves past the record. -/
def Obligations.RldDecodesTheRecord : Prop :=
  ∀ (s : State) (rd : TReg) (run : Nat → Byte) (value : Nat → BitVec 16) (n : Nat),
    let p := s.rlePtr.toNat
    s.rleLimit.toNat ≤ s.params.dmemBytes → p + (2 + 3 * n) ≤ s.rleLimit.toNat → readBE s.dmem p 2 = some n →
    (∀ j < n, cellRead s.dmem (p + 2 + 3 * j) = some (run j) ∧
      readBE s.dmem (p + 3 + 3 * j) 2 = some (value j).toNat) →
    ∃ t, exec (.rld rd) s = .next t ∧ t.pc = s.pc + 1 ∧ t.ovf = s.ovf ∧ t.rlePtr.toNat = p + (2 + 3 * n) ∧
      ∀ e : Fin 64, t.tileElem rd e = BitVec.ofInt 32
        (((List.range n).flatMap fun j => List.replicate (run j).toNat 0 ++ [(value j).toInt]).getD e.val 0)

/-- 46_pipeline.md R240: ENCC completes where its checks pass, the plane is written and apart from the stream, and the
records of its tiles fit below RLE_LIMIT; they stand back to back in tile order from RLE_PTR on, RLE_PTR moves past
them, TCOUNT gets the tile count, and OVF is set if a tile saturates. -/
def Obligations.EnccWritesTheChannelStream : Prop :=
  ∀ (s : State) (c : Channel) (tb : TableSel) (xs : List Tile), PlaneReady c s → TableReady tb s →
    s.rleLimit.toNat ≤ s.params.dmemBytes → (s.plane c).region.Disjoint s.streamRegion →
    xs.length = ceil8 s.width.toNat * ceil8 s.height.toNat →
    (∀ i (h : i < xs.length), partition s.dmem (s.plane c) i = some xs[i]) →
    let stream := xs.flatMap fun x => record (pairs (scan (qnt (fdct x) (s.qt tb))))
    s.rlePtr.toNat + stream.length ≤ s.rleLimit.toNat →
    ∃ t, exec (.encc (channelField c) tb) s = .next t ∧ t.pc = s.pc + 1 ∧
      (∀ j (h : j < stream.length), cellRead t.dmem (s.rlePtr.toNat + j) = some stream[j]) ∧
      t.rlePtr.toNat = s.rlePtr.toNat + stream.length ∧ (t.tcount c).toNat = xs.length ∧
      t.ovf = (s.ovf || xs.any fun x => fdctOvf x || qntOvf (fdct x) (s.qt tb))

/-- 46_pipeline.md R242: DECC completes where its checks pass, the plane is apart from the stream, and one record a tile
stands below RLE_LIMIT; every sample of the plane is the decoded one, and RLE_PTR moves past the records. -/
def Obligations.DeccWritesThePlane : Prop :=
  ∀ (s : State) (c : Channel) (tb : TableSel) (vs : List Tile) (q : Nat), PlaneReady c s → TableReady tb s →
    s.rleLimit.toNat ≤ s.params.dmemBytes → (s.plane c).region.Disjoint s.streamRegion →
    let nt := ceil8 s.width.toNat * ceil8 s.height.toNat
    (s.tcount c).toNat = nt → vs.length = nt → RecordsAt s.dmem s.rleLimit.toNat s.rlePtr.toNat vs q →
    ∃ t, exec (.decc (channelField c) tb) s = .next t ∧ t.pc = s.pc + 1 ∧ t.rlePtr.toNat = q ∧
      (∀ i (h : i < vs.length) (e : Fin 64) (a : Nat), (s.plane c).elemAddr i e = some a →
        readWord t.dmem a = some (idct (dqnt (unscan vs[i]) (s.qt tb)))[e]) ∧
      t.ovf = (s.ovf || vs.any fun v => dqntOvf (unscan v) (s.qt tb) || idctOvf (dqnt (unscan v) (s.qt tb)))

/-! ### Frames -/

/-- 10_state.md R36, R59, R61, 40_sequencer.md R123: no command writes a table entry, CMDMEM, a configuration CSR, an
interrupt enable or HACC. -/
def Obligations.CommandsKeepTheConfiguration : Prop :=
  ∀ (i : Instr) (s t : State), exec i s = .next t → SameConfiguration s t

/-- The frame of FDCT, IDCT, QNT, DQNT, ZZS, ZZU: only `T[rd]`, PC and (not for ZZS, ZZU) OVF, which is never cleared;
or, for QNT and DQNT, the error registers of E_QTZERO alone. -/
def Obligations.TileCommandFrame : Prop :=
  ∀ (s t : State) (rd rs : TReg) (tb : TableSel),
    ∀ i ∈ [Instr.fdct rd rs, .idct rd rs, .qnt rd rs tb, .dqnt rd rs tb, .zzs rd rs, .zzu rd rs],
      exec i s = .next t →
      SameConfiguration s t ∧ SameProgress s t ∧ SameDmem s t ∧ t.draws = s.draws ∧
      (∀ r : TReg, r ≠ rd → t.tiles[r] = s.tiles[r]) ∧ (s.ovf = true → t.ovf = true) ∧
      (i ∈ [Instr.zzs rd rs, .zzu rd rs] → t.ovf = s.ovf) ∧ (SameRun s t ∨ t = s.stopError .eQtZero)

/-- The frame of LDT and RLD: only `T[rd]`, PC, and TIDX (LDT with INC) or RLE_PTR (RLD); or the error registers
alone. -/
def Obligations.TileLoadFrame : Prop :=
  ∀ (s t : State) (rd : TReg) (ch : BitVec 2) (inc : Bool),
    ∀ i ∈ [Instr.ldt rd ch inc, .rld rd], exec i s = .next t →
      SameConfiguration s t ∧ SameDmem s t ∧ t.draws = s.draws ∧ t.ovf = s.ovf ∧ (∀ c, t.tcount c = s.tcount c) ∧
      (∀ r : TReg, r ≠ rd → t.tiles[r] = s.tiles[r]) ∧
      (i = .rld rd ∨ inc = false → t.tidx = s.tidx) ∧ (i = .ldt rd ch inc → t.rlePtr = s.rlePtr) ∧
      (SameRun s t ∨ ∃ e, t = s.stopError e)

/-- The frame of STT and RLE: no tile register; the bytes of the tile's in-range elements, or of the record at RLE_PTR;
PC, TIDX (STT with INC), RLE_PTR and OVF (RLE); or the error registers alone. -/
def Obligations.TileStoreFrame : Prop :=
  ∀ (s t : State) (rs : TReg) (c : Channel) (inc : Bool),
    (exec (.stt rs (channelField c) inc) s = .next t →
      SameConfiguration s t ∧ t.tiles = s.tiles ∧ t.draws = s.draws ∧ t.ovf = s.ovf ∧ t.rlePtr = s.rlePtr ∧
      (∀ d, t.tcount d = s.tcount d) ∧ (inc = false → t.tidx = s.tidx) ∧
      (∀ b, (∀ e a, (s.plane c).elemAddr s.tidx.toNat e = some a → b < a ∨ a + 4 ≤ b) →
        cellRead t.dmem b = cellRead s.dmem b) ∧ (SameRun s t ∨ ∃ e, t = s.stopError e)) ∧
    (exec (.rle rs) s = .next t →
      SameConfiguration s t ∧ t.tiles = s.tiles ∧ t.draws = s.draws ∧ (s.ovf = true → t.ovf = true) ∧
      t.tidx = s.tidx ∧ (∀ d, t.tcount d = s.tcount d) ∧
      SameDmemOutside s.rlePtr.toNat (s.rlePtr.toNat + (2 + 3 * (pairs (s.readTile rs)).length)) s t ∧
      (SameRun s t ∨ ∃ e, t = s.stopError e))

/-- The frame of CCF and CCI (41_colorspace.md R138): no tile register, no flag, no progress register; the bytes of the
three planes (CCF) or of the pixel buffer (CCI); PC; or the error registers alone. -/
def Obligations.ColorConverterFrame : Prop :=
  ∀ s t : State,
    (∀ i ∈ [Instr.ccf, .cci], exec i s = .next t →
      SameConfiguration s t ∧ SameProgress s t ∧ t.tiles = s.tiles ∧ t.draws = s.draws ∧ t.ovf = s.ovf ∧
      (SameRun s t ∨ ∃ e, t = s.stopError e)) ∧
    (exec .ccf s = .next t → ∀ a, (∀ c, a < (s.plane c).region.lo ∨ (s.plane c).region.hi ≤ a) →
      cellRead t.dmem a = cellRead s.dmem a) ∧
    (exec .cci s = .next t → SameDmemOutside s.pixRegion.lo s.pixRegion.hi s t)

/-- The frame of ENCC and DECC (46_pipeline.md R240-R246): no tile register, not TIDX, no other channel's tile count; a
completed ENCC changes the bytes between the old and the new RLE_PTR, a completed DECC bytes of its plane only and no
tile count; after a mid-command stream error the bytes of the stream region (ENCC) or of the plane (DECC) only. -/
def Obligations.ChannelPassFrame : Prop :=
  ∀ (s t : State) (c : Channel) (tb : TableSel),
    (exec (.encc (channelField c) tb) s = .next t →
      SameConfiguration s t ∧ t.tiles = s.tiles ∧ t.tidx = s.tidx ∧ (∀ d, d ≠ c → t.tcount d = s.tcount d) ∧
      ((SameRun s t ∧ t.draws = s.draws ∧ (s.ovf = true → t.ovf = true) ∧
          SameDmemOutside s.rlePtr.toNat t.rlePtr.toNat s t) ∨
        (∃ e, t = s.stopError e) ∨
        (t.errCode = .eRleFull ∧ t.draws = s.draws + 1 ∧ t.tcount c = s.tcount c ∧
          SameDmemOutside s.rlePtr.toNat s.rleLimit.toNat s t))) ∧
    (exec (.decc (channelField c) tb) s = .next t →
      SameConfiguration s t ∧ t.tiles = s.tiles ∧ t.tidx = s.tidx ∧ (∀ d, t.tcount d = s.tcount d) ∧
      SameDmemOutside (s.plane c).region.lo (s.plane c).region.hi s t ∧
      ((SameRun s t ∧ t.draws = s.draws ∧ (s.ovf = true → t.ovf = true)) ∨ (∃ e, t = s.stopError e) ∨
        (t.errCode = .eRleTrunc ∧ t.draws = s.draws + 1)))

/-- 40_sequencer.md R123, R125: a command that leaves the run going, and END, advance PC by one; a command stopped by an
error leaves PC at its own index. -/
def Obligations.PcAdvancesByOneOrStays : Prop :=
  ∀ (i : Instr) (s t : State), s.busy = true → exec i s = .next t →
    (t.busy = true ∨ i = .endList → t.pc = s.pc + 1 ∧ t.err = s.err ∧ t.errCode = s.errCode ∧ t.errPc = s.errPc) ∧
    (t.busy = false ∧ i ≠ .endList → t.pc = s.pc ∧ t.errPc = s.pc ∧ t.err = true ∧ t.isErr = true)

/-- 60_exceptions.md R272: a step that stops a run sets exactly one of IS.DONE and IS.ERR and leaves the other as it
was; a step that does not stop it leaves both. -/
def Obligations.AStopSetsOneInterruptBit : Prop :=
  ∀ s t : State, s.host = [] → s.busy = true → step s = .next t →
    (t.busy = true → t.isDone = s.isDone ∧ t.isErr = s.isErr) ∧
    (t.busy = false → (t.isDone = true ∧ t.isErr = s.isErr ∧ t.err = s.err) ∨
      (t.isErr = true ∧ t.isDone = s.isDone ∧ t.err = true))

/-! ### Properties of the units -/

/-- 00_scope.md R14: `RNE(p / q)` is a nearest integer, and the even one at a tie. -/
def Obligations.RneIsNearestTiesToEven : Prop :=
  ∀ p q : Int, 0 < q →
    (∀ n : Int, |q * rne p q - p| ≤ |q * n - p|) ∧
    (2 * |q * rne p q - p| = q → rne p q % 2 = 0)

/-- 45_coefcoder.md R213: ZZU undoes ZZS and ZZS undoes ZZU, bit for bit, for any words and any registers, equal ones
too. That two reads of an element nothing has written agree is the model's choice (log 1). -/
def Obligations.ZigzagIsABijection : Prop :=
  ∀ (s : State) (a b d : TReg),
    (∃ t u, exec (.zzs a b) s = .next t ∧ exec (.zzu d a) t = .next u ∧ u.readTile d = s.readTile b) ∧
    (∃ t u, exec (.zzu a b) s = .next t ∧ exec (.zzs d a) t = .next u ∧ u.readTile d = s.readTile b)

/-- 44_quantizer.md R196: quantizing a dequantized tile gives it back and sets no flag, where every element is a
16-bit value and no product leaves -32768..32767. That an element nothing has written is read as a free value, where
R33 and R275 ask a model to fault, is the model's choice (log 1). -/
def Obligations.RequantizationIsExact : Prop :=
  ∀ (s : State) (a b d : TReg) (tb : TableSel), TableReady tb s →
    (∀ e, -32768 ≤ (s.tileElem b e).toInt ∧ (s.tileElem b e).toInt ≤ 32767 ∧
      -32768 ≤ (s.tileElem b e).toInt * ((s.qt tb)[e].toNat : Int) ∧
      (s.tileElem b e).toInt * ((s.qt tb)[e].toNat : Int) ≤ 32767) →
    ∃ t u, exec (.dqnt a b tb) s = .next t ∧ exec (.qnt d a tb) t = .next u ∧
      u.readTile d = s.readTile b ∧ t.ovf = s.ovf ∧ u.ovf = s.ovf

/-- 44_quantizer.md R197: where neither command saturates, dequantizing a quantized coefficient differs from it by at
most half a quantization step. -/
def Obligations.QuantizationErrorIsHalfAStep : Prop :=
  ∀ (x : Tile) (q : QTable), (∀ e : Fin 64, q[e] ≠ 0#16) → qntOvf x q = false → dqntOvf (qnt x q) q = false →
    ∀ e : Fin 64, 2 * |(dqnt (qnt x q) q)[e].toInt - x[e].toInt| ≤ (q[e].toNat : Int) * 2 ^ 16

/-- 43_transform.md R175: the separable row-then-column form and the even/odd butterfly form of each one-dimensional
pass, with exact intermediates, give the same tile and the same flag as the direct sum, forward and inverse. -/
def Obligations.ExactDatapathsAgree : Prop :=
  ∀ x : Tile,
    let X (r c : Fin 8) : Int := x[elemAt r c].toInt
    let sign (b : Bool) : Int := if b then 1 else -1
    let mirror (n : Fin 8) : Fin 8 := ⟨7 - n.val, by omega⟩
    let sumOver (ks : List (Fin 8)) (f : Fin 8 → Int) : Int := (ks.map f).sum
    let forward (f : Fin 8 → Int) (k : Fin 8) : Int :=
      sumOver [0, 1, 2, 3] fun n => (f n + sign (k.val % 2 == 0) * f (mirror n)) * dctK k n
    let inverse (f : Fin 8 → Int) (n : Fin 8) : Int :=
      let m := if n.val < 4 then n else mirror n
      sumOver [0, 2, 4, 6] (fun k => f k * dctK k m) + sign (n.val < 4) * sumOver [1, 3, 5, 7] fun k => f k * dctK k m
    let rounded (form : Fin 64 → Int) (e : Fin 64) : Int := rne (form e) (2 ^ 60)
    (∀ form ∈ [(fun e => ∑ r : Fin 8, dctK (rowOf e) r * ∑ c : Fin 8, X r c * dctK (colOf e) c : Fin 64 → Int),
        fun e => forward (fun r => forward (fun c => X r c) (colOf e)) (rowOf e)],
      fdct x = satTile 32 (rounded form) ∧ fdctOvf x = satFlag 32 (rounded form)) ∧
    (∀ form ∈ [(fun e => ∑ u : Fin 8, dctK u (rowOf e) * ∑ v : Fin 8, X u v * dctK v (colOf e) : Fin 64 → Int),
        fun e => inverse (fun u => inverse (fun v => X u v) (colOf e)) (rowOf e)],
      idct x = satTile 32 (rounded form) ∧ idctOvf x = satFlag 32 (rounded form))

/-- 43_transform.md R172, R177: the constants, row `k`, column `n`; neither transform saturates on inputs of magnitude
at most 4095; a constant tile has no coefficient but element 0. -/
def Obligations.TransformCornerCases : Prop :=
  ((List.finRange 8).map fun k => (List.finRange 8).map fun n => dctK k n) =
    [[379625062, 379625062, 379625062, 379625062, 379625062, 379625062, 379625062, 379625062],
     [526555088, 446391849, 298269498, 104738319, -104738319, -298269498, -446391849, -526555088],
     [496004047, 205451603, -205451603, -496004047, -496004047, -205451603, 205451603, 496004047],
     [446391849, -104738319, -526555088, -298269498, 298269498, 526555088, 104738319, -446391849],
     [379625062, -379625062, -379625062, 379625062, 379625062, -379625062, -379625062, 379625062],
     [298269498, -526555088, 104738319, 446391849, -446391849, -104738319, 526555088, -298269498],
     [205451603, -496004047, 496004047, -205451603, -205451603, 496004047, -496004047, 205451603],
     [104738319, -298269498, 446391849, -526555088, 526555088, -446391849, 298269498, -104738319]] ∧
  (∀ x : Tile, (∀ e : Fin 64, |x[e].toInt| ≤ 4095 * 2 ^ 16) → fdctOvf x = false ∧ idctOvf x = false) ∧
  ∀ w : Word, let x : Tile := Vector.replicate 64 w
    (∀ e : Fin 64, e ≠ 0 → (fdct x)[e] = 0#32) ∧
    (fdct x)[(0 : Fin 64)] = BitVec.ofInt 32 (sat 32 (rne (64 * 379625062 ^ 2 * w.toInt) (2 ^ 60)))

/-- 41_colorspace.md R137: the colour round trip is within 1 in each channel, and not always exact. -/
def Obligations.ColorRoundTripWithinOne : Prop :=
  (∀ r g b : Int, 0 ≤ r → r ≤ 255 → 0 ≤ g → g ≤ 255 → 0 ≤ b → b ≤ 255 →
    let y := lumaOf r g b * 2 ^ 16; let cb := cbOf r g b * 2 ^ 16; let cr := crOf r g b * 2 ^ 16
    |redOf y cb cr - r| ≤ 1 ∧ |greenOf y cb cr - g| ≤ 1 ∧ |blueOf y cb cr - b| ≤ 1) ∧
  lumaOf 255 0 0 = 76 ∧ cbOf 255 0 0 = 85 ∧ crOf 255 0 0 = 255 ∧
  redOf (76 * 2 ^ 16) (85 * 2 ^ 16) (255 * 2 ^ 16) = 254

/-- 45_coefcoder.md R222: RLE then RLD of the same record gives the sequence back, each element saturated to 16 bits,
and sets no flag where every element is a 16-bit value. That an element nothing has written is read as a free value,
where R33 and R275 ask a model to fault, is the model's choice (log 1). -/
def Obligations.RunLengthRoundTrip : Prop :=
  ∀ (s : State) (rs rd : TReg), s.rleLimit.toNat ≤ s.params.dmemBytes →
    s.rlePtr.toNat + (2 + 3 * (pairs (s.readTile rs)).length) ≤ s.rleLimit.toNat →
    ∃ t u, exec (.rle rs) s = .next t ∧ exec (.rld rd) { t with rlePtr := s.rlePtr } = .next u ∧
      (∀ e, u.tileElem rd e = BitVec.ofInt 32 (sat 16 (s.tileElem rs e).toInt)) ∧
      ((∀ e, -32768 ≤ (s.tileElem rs e).toInt ∧ (s.tileElem rs e).toInt ≤ 32767) →
        u.readTile rd = s.readTile rs ∧ t.ovf = s.ovf ∧ u.ovf = s.ovf) ∧
      u.rlePtr = t.rlePtr

/-- 46_pipeline.md R241: a completed ENCC and `NT` repetitions of ENCT from TIDX = 0 leave the same DMEM, RLE_PTR and
OVF, whatever Tw; they differ only in Tw, TIDX, TCOUNT of the channel, and in how far PC has moved. -/
def Obligations.EnccEqualsRepeatedEnct : Prop :=
  ∀ (s u : State) (c : Channel) (tb : TableSel) (tw : TReg), s.busy = true →
    exec (.encc (channelField c) tb) s = .next u → u.busy = true →
    ∃ v, execSequence (List.replicate (ceil8 s.width.toNat * ceil8 s.height.toNat) (Pseudo.enct tw c tb).expand).flatten
        { s with tidx := 0 } = .next v ∧
      v.dmem = u.dmem ∧ v.rlePtr = u.rlePtr ∧ v.ovf = u.ovf ∧ SameConfiguration u v ∧ SameRun u v ∧
      v.tidx.toNat = ceil8 s.width.toNat * ceil8 s.height.toNat ∧ u.tidx = s.tidx ∧ u.tiles = s.tiles ∧
      (∀ r : TReg, r ≠ tw → v.tiles[r] = u.tiles[r]) ∧ (∀ d, v.tcount d = s.tcount d) ∧
      (u.tcount c).toNat = ceil8 s.width.toNat * ceil8 s.height.toNat ∧
      (∀ d, d ≠ c → u.tcount d = s.tcount d)

/-- 46_pipeline.md R243: a completed DECC and `NT` repetitions of DECT from TIDX = 0 leave the same DMEM, RLE_PTR and
OVF, whatever Tw; they differ only in Tw, TIDX, and in how far PC has moved. -/
def Obligations.DeccEqualsRepeatedDect : Prop :=
  ∀ (s u : State) (c : Channel) (tb : TableSel) (tw : TReg), s.busy = true →
    exec (.decc (channelField c) tb) s = .next u → u.busy = true →
    ∃ v, execSequence (List.replicate (ceil8 s.width.toNat * ceil8 s.height.toNat) (Pseudo.dect tw c tb).expand).flatten
        { s with tidx := 0 } = .next v ∧
      v.dmem = u.dmem ∧ v.rlePtr = u.rlePtr ∧ v.ovf = u.ovf ∧ SameConfiguration u v ∧ SameRun u v ∧
      v.tidx.toNat = ceil8 s.width.toNat * ceil8 s.height.toNat ∧ u.tidx = s.tidx ∧ u.tiles = s.tiles ∧
      (∀ r : TReg, r ≠ tw → v.tiles[r] = u.tiles[r]) ∧ (∀ d, v.tcount d = s.tcount d) ∧
      ∀ d, u.tcount d = s.tcount d

/-! ### The host -/

/-- 40_sequencer.md R120, 10_state.md R39, R46, 60_exceptions.md R268: a write of CTRL with START begins a run while
idle, all of it at once; while busy its START bit only sets HACC and its ABORT bit makes an abort pending; any other
write, and ABORT while idle, has no effect. That the two bits of one write while busy act each on its own is the
model's reading of R268 against R46 (log 10). -/
def Obligations.CtrlWritesStartAndAbort : Prop :=
  ∀ (s : State) (v : Word) (rest : List HostEvent), s.rstN = true →
    s.host = .access (.write .word 0x008#25 v) :: rest →
    (s.busy = false → v.getLsbD 0 = true →
      step s = .next { s with host := rest, resp := .writeOk, busy := true, err := false, abortPend := false,
                              errCode := .eNone, errPc := 0 }) ∧
    (s.busy = false → v.getLsbD 0 = false → step s = .next { s with host := rest, resp := .writeOk }) ∧
    (s.busy = true → step s = .next { s with host := rest, resp := .writeOk, hacc := s.hacc || v.getLsbD 0,
                                             abortPend := s.abortPend || v.getLsbD 1 })

/-- 10_state.md R46, 20_memory.md R74, 70_reset_and_hazards.md R299: while busy an access of a window or a write of a
CSR other than CTRL, STATUS, IE, IS only sets HACC; a read of a window answers some value. That a write of a read-only
or reserved CSR sets HACC too is the model's reading of R46 against R35 (log 12). Reads of CSRs while busy are in
CsrMapReadsAndWrites. -/
def Obligations.BusyLocksTheHostOut : Prop :=
  ∀ (s : State) (addr : BitVec 25) (v : Word) (tg : Target) (rest : List HostEvent), s.rstN = true → s.busy = true →
    accessTarget s.params .word addr = some tg →
    ((∀ c, tg = .csr c → c ≠ .ctrl ∧ c ≠ .status ∧ c ≠ .ie ∧ c ≠ .is) →
      step { s with host := .access (.write .word addr v) :: rest } =
        .next { s with host := rest, resp := .writeOk, hacc := true }) ∧
    ((∀ c, tg ≠ .csr c) → ∃ data, step { s with host := .access (.read .word addr) :: rest } =
        .next { s with host := rest, resp := .readOk data, hacc := true, draws := s.draws + 1 })

/-- 10_state.md R36-R57, 60_exceptions.md R260: what the host reads at each CSR offset and what it writes there while
idle. Every CSR but PC, RLE_PTR, TIDX and the tile counts answers its current value busy or idle, ERRCODE the number
of R260; those six answer theirs while idle and some value while busy (R47). A read changes nothing but the port's
answer (and, for some value, the draw counter of log 7). -/
def Obligations.CsrMapReadsAndWrites : Prop :=
  ∀ (s : State) (v : Word), s.rstN = true →
    let number : Word := match s.errCode with
      | .eNone => 0 | .eIllegal => 1 | .eDim => 2 | .eAddr => 3 | .eAlign => 4 | .eQtZero => 5 | .eTIdx => 6
      | .eTCount => 7 | .eRleFull => 8 | .eRleTrunc => 9 | .ePcRange => 10 | .eAborted => 11
    let read (offset : Nat) : Host.Outcome State Fault Refusal :=
      step { s with host := [.access (.read .word (BitVec.ofNat 25 offset))] }
    let reads (offset : Nat) (w : Word) : Prop := read offset = .next { s with host := [], resp := .readOk w }
    let writes (offset : Nat) (t : State) : Prop :=
      step { s with host := [.access (.write .word (BitVec.ofNat 25 offset) v)] } =
        .next { t with host := [], resp := .writeOk }
    (∀ row ∈ [(0x00, (0x4243_4131 : Word)), (0x04, 0x0001_0000), (0x08, 0), (0x10, number),
        (0x14, s.errPc), (0x24, s.width), (0x28, s.height), (0x2C, 8), (0x30, s.pixBase),
        (0x34, s.planeBase0), (0x38, s.planeBase1), (0x3C, s.planeBase2), (0x44, s.rleLimit),
        (0x58, BitVec.ofNat 32 ((s.width.toNat + 7) / 8)), (0x5C, BitVec.ofNat 32 ((s.height.toNat + 7) / 8)),
        (0x60, BitVec.ofNat 32 s.params.dmemBytes), (0x64, BitVec.ofNat 32 s.params.nCmd)], reads row.1 row.2) ∧
    (∀ k < 38, reads (0x68 + 4 * k) 0) ∧
    (∃ w, reads 0x0C w ∧ w.toNat = s.busy.toNat + 2 * s.err.toNat + 4 * s.ovf.toNat + 8 * s.hacc.toNat +
      16 * s.abortPend.toNat) ∧
    (∃ w, reads 0x1C w ∧ w.toNat = s.doneIe.toNat + 2 * s.errIe.toNat) ∧
    (∃ w, reads 0x20 w ∧ w.toNat = s.isDone.toNat + 2 * s.isErr.toNat) ∧
    (∀ row ∈ [(0x18, s.pc), (0x40, s.rlePtr), (0x48, s.tcount0), (0x4C, s.tcount1), (0x50, s.tcount2),
        (0x54, s.tidx)], (s.busy = false → reads row.1 row.2) ∧
      (s.busy = true → ∃ data, read row.1 =
        .next { s with host := [], resp := .readOk data, draws := s.draws + 1 })) ∧
    (s.busy = false →
      (∀ row ∈ [(0x18, { s with pc := v }), (0x24, { s with width := v }), (0x28, { s with height := v }),
          (0x30, { s with pixBase := v }), (0x34, { s with planeBase0 := v }), (0x38, { s with planeBase1 := v }),
          (0x3C, { s with planeBase2 := v }), (0x40, { s with rlePtr := v }), (0x44, { s with rleLimit := v }),
          (0x48, { s with tcount0 := v }), (0x4C, { s with tcount1 := v }), (0x50, { s with tcount2 := v }),
          (0x54, { s with tidx := v })], writes row.1 row.2) ∧
      (∀ offset ∈ [0x00, 0x04, 0x10, 0x14, 0x2C, 0x58, 0x5C, 0x60, 0x64], writes offset s) ∧
      ∀ k < 38, writes (0x68 + 4 * k) s)

/-- 20_memory.md R71, R72, R75: while idle a host write of a window stores the element, entry, command or big-endian
bytes its address names and answers, and changes nothing else; a read answers them and changes nothing else, or is a
model fault where a command word or a byte is unwritten (logs 2, 3). That the read of an unwritten tile element
answers a free value and does not fault is the model's choice (log 1). -/
def Obligations.HostWindowsReachTheState : Prop :=
  ∀ (s : State) (v : Word), s.rstN = true → s.busy = false →
    let read (addr : Nat) : Host.Outcome State Fault Refusal :=
      step { s with host := [.access (.read .word (BitVec.ofNat 25 addr))] }
    let answers (addr : Nat) (w : Word) : Prop := read addr = .next { s with host := [], resp := .readOk w }
    let writes (addr : Nat) (t : State) : Prop :=
      step { s with host := [.access (.write .word (BitVec.ofNat 25 addr) v)] } =
        .next { t with host := [], resp := .writeOk }
    (∀ (i : TReg) (e : Fin 64), answers (0x800 + 256 * i.val + 4 * e.val) (s.tileElem i e)) ∧
    (∀ e : Fin 64, answers (0x400 + 4 * e.val) ((s.qt .luma)[e].setWidth 32) ∧
      answers (0x500 + 4 * e.val) ((s.qt .chroma)[e].setWidth 32)) ∧
    (∀ k, k < s.params.nCmd → k < 4096 → (∀ w, cellRead s.cmdmem k = some w → answers (0x4000 + 4 * k) w) ∧
      (cellRead s.cmdmem k = none → read (0x4000 + 4 * k) = .fault .unwrittenCommand)) ∧
    (∀ k, 4 * k < s.params.dmemBytes → 4 * k < 0x100_0000 →
      (∀ b0 b1 b2 b3 : Byte, cellRead s.dmem (4 * k) = some b0 → cellRead s.dmem (4 * k + 1) = some b1 →
        cellRead s.dmem (4 * k + 2) = some b2 → cellRead s.dmem (4 * k + 3) = some b3 →
        answers (0x100_0000 + 4 * k) (b0 ++ b1 ++ b2 ++ b3)) ∧
      ((∃ j < 4, cellRead s.dmem (4 * k + j) = none) → read (0x100_0000 + 4 * k) = .fault .unwrittenData)) ∧
    (∀ (i : TReg) (e : Fin 64), ∃ tiles, writes (0x800 + 256 * i.val + 4 * e.val) { s with tiles := tiles } ∧
      ∀ j f, ({ s with tiles := tiles } : State).tileElem j f = if j = i ∧ f = e then v else s.tileElem j f) ∧
    (∀ e : Fin 64, writes (0x400 + 4 * e.val) { s with qtLuma := s.qtLuma.set e (v.setWidth 16) } ∧
      writes (0x500 + 4 * e.val) { s with qtChroma := s.qtChroma.set e (v.setWidth 16) }) ∧
    (∀ k, k < s.params.nCmd → k < 4096 → ∃ m, writes (0x4000 + 4 * k) { s with cmdmem := m } ∧
      ∀ j, cellRead m j = if j = k then some v else cellRead s.cmdmem j) ∧
    (∀ k, 4 * k < s.params.dmemBytes → 4 * k < 0x100_0000 → ∃ m, writes (0x100_0000 + 4 * k) { s with dmem := m } ∧
      ∀ a, cellRead m a =
        if a = 4 * k then some (v.extractLsb' 24 8) else if a = 4 * k + 1 then some (v.extractLsb' 16 8)
        else if a = 4 * k + 2 then some (v.extractLsb' 8 8) else if a = 4 * k + 3 then some (v.extractLsb' 0 8)
        else cellRead s.dmem a)

/-- 20_memory.md R73: a narrow, misaligned, unmapped or out-of-range access is answered with an error and changes
nothing. That HACC stays as it was after such an access while busy too is the model's reading of R73 against R46 (log
11). -/
def Obligations.BusErrorsChangeNothing : Prop :=
  ∀ (s : State) (size : AccessSize) (addr : BitVec 25) (v : Word) (rest : List HostEvent), s.rstN = true →
    (size ≠ .word ∨ addr.toNat % 4 ≠ 0 ∨ (0x100 ≤ addr.toNat ∧ addr.toNat < 0x400) ∨
      (0x600 ≤ addr.toNat ∧ addr.toNat < 0x800) ∨ (0x1000 ≤ addr.toNat ∧ addr.toNat < 0x4000) ∨
      (0x4000 ≤ addr.toNat ∧ addr.toNat < 0x8000 ∧ s.params.nCmd ≤ (addr.toNat - 0x4000) / 4) ∨
      (0x8000 ≤ addr.toNat ∧ addr.toNat < 0x100_0000) ∨
      (0x100_0000 ≤ addr.toNat ∧ s.params.dmemBytes ≤ addr.toNat - 0x100_0000)) →
    ∀ a ∈ [HostAccess.read size addr, .write size addr v],
      step { s with host := .access a :: rest } = .next { s with host := rest, resp := .slverr }

/-- 60_exceptions.md R270, R271, 10_state.md R43, R44: the interrupt line, and the writes that move it. -/
def Obligations.InterruptLineAndItsRegisters : Prop :=
  ∀ (s : State) (v : Word) (rest : List HostEvent), s.rstN = true →
    (s.irq = true ↔ (s.isDone = true ∧ s.doneIe = true) ∨ (s.isErr = true ∧ s.errIe = true)) ∧
    step { s with host := .access (.write .word 0x01C#25 v) :: rest } =
      .next { s with host := rest, resp := .writeOk, doneIe := v.getLsbD 0, errIe := v.getLsbD 1 } ∧
    step { s with host := .access (.write .word 0x020#25 v) :: rest } =
      .next { s with host := rest, resp := .writeOk, isDone := s.isDone && !v.getLsbD 0,
                     isErr := s.isErr && !v.getLsbD 1 } ∧
    step { s with host := .access (.write .word 0x00C#25 v) :: rest } =
      .next { s with host := rest, resp := .writeOk, ovf := s.ovf && !v.getLsbD 2, hacc := s.hacc && !v.getLsbD 3 }

/-- 70_reset_and_hazards.md R291, R292: the reset pin ends any run and leaves the reset state; while it is low a host
access has no effect and `irq` is 0. The counters and the pending list are the model's (log 15). -/
def Obligations.ResetPinLeavesTheResetState : Prop :=
  ∀ (s : State) (rest : List HostEvent),
    (s.host = .resetLow :: rest → step s = .next { State.atReset s.params with
      host := rest, draws := s.draws, resets := s.resets + 1, rstN := false }) ∧
    (s.rstN = false → s.irq = false ∧ ∀ a, s.host = .access a :: rest →
      step s = .next { s with host := rest, resp := .unspecified }) ∧
    (s.host = .resetHigh :: rest → step s = .next { s with host := rest, rstN := true })
end

