-- ==== Sys2Proof/Laws/Flags.lean ====
section
/-! SUPPORT. Rounding and saturation: the bounds that pin them down. -/

namespace Sys2Proof.Machine

/-- The quotient and remainder behind `rne`, for `omega`. -/
theorem rne_cases (p q : Int) :
    (2 * (p - p / q * q) < q ∧ rne p q = p / q) ∨
    (q < 2 * (p - p / q * q) ∧ rne p q = p / q + 1) ∨
    (2 * (p - p / q * q) = q ∧ p / q % 2 = 0 ∧ rne p q = p / q) ∨
    (2 * (p - p / q * q) = q ∧ p / q % 2 = 1 ∧ rne p q = p / q + 1) := by
  unfold rne
  simp only
  split
  · exact .inl ⟨by assumption, rfl⟩
  · split
    · exact .inr (.inl ⟨by assumption, rfl⟩)
    · split
      · exact .inr (.inr (.inl ⟨by omega, by assumption, rfl⟩))
      · exact .inr (.inr (.inr ⟨by omega, by omega, rfl⟩))

/-- `rne p q` is within half a unit of `p / q`. -/
theorem rne_near {p q : Int} (hq : 0 < q) : 2 * (rne p q * q - p) ≤ q ∧ 2 * (p - rne p q * q) ≤ q := by
  have h1 := Int.emod_nonneg p (Int.ne_of_gt hq)
  have h2 := Int.emod_lt_of_pos p hq
  have h3 : p / q * q = p - p % q := by have := Int.mul_ediv_add_emod p q; rw [Int.mul_comm] at this; omega
  have h4 : (p / q + 1) * q = p / q * q + q := by ring
  rcases rne_cases p q with ⟨hc, hr⟩ | ⟨hc, hr⟩ | ⟨hc, _, hr⟩ | ⟨hc, _, hr⟩ <;> rw [hr] <;> (try rw [h4]) <;>
    rw [h3] at * <;> constructor <;> omega

/-- An exact quotient is answered exactly. -/
theorem rne_exact {q : Int} (hq : 0 < q) (n : Int) : rne (n * q) q = n := by
  have h : n * q / q = n := Int.mul_ediv_cancel n (Int.ne_of_gt hq)
  rcases rne_cases (n * q) q with ⟨_, hr⟩ | ⟨hc, _⟩ | ⟨hc, _, _⟩ | ⟨hc, _, _⟩
  · rw [hr, h]
  all_goals rw [h] at hc; omega

theorem clamp255_range (n : Int) : 0 ≤ clamp255 n ∧ clamp255 n ≤ 255 := by
  unfold clamp255; split <;> [skip; split] <;> omega

theorem sat_of_not_saturates {bits : Nat} {n : Int} (h : saturates bits n = false) : sat bits n = n := by
  simp only [saturates, Bool.or_eq_false_iff, decide_eq_false_iff_not] at h
  rw [sat, if_neg h.1, if_neg h.2]

theorem sat_range (bits : Nat) (n : Int) : satMin bits ≤ sat bits n ∧ sat bits n ≤ satMax bits := by
  have h : satMin bits ≤ satMax bits := by
    have : (0 : Int) < 2 ^ (bits - 1) := by positivity
    unfold satMin satMax; omega
  unfold sat; split <;> [skip; split] <;> omega

theorem saturates_eq_false_iff {bits : Nat} {n : Int} :
    saturates bits n = false ↔ satMin bits ≤ n ∧ n ≤ satMax bits := by
  simp [saturates]

/-- The bounds of `sat_16`. -/
theorem satMin16 : satMin 16 = -32768 := by decide

theorem satMax16 : satMax 16 = 32767 := by decide

/-- The bounds of `sat_32`. -/
theorem satMin32 : satMin 32 = -2147483648 := by decide

theorem satMax32 : satMax 32 = 2147483647 := by decide

@[simp] theorem anyElem_eq_true {p : Fin 64 → Bool} : anyElem p = true ↔ ∃ e, p e = true := by
  simp [anyElem]

@[simp] theorem anyElem_eq_false {p : Fin 64 → Bool} : anyElem p = false ↔ ∀ e, p e = false := by
  simp [anyElem]

@[simp] theorem satTile_getElem (bits : Nat) (raw : Fin 64 → Int) (e : Fin 64) :
    (satTile bits raw)[e] = BitVec.ofInt 32 (sat bits (raw e)) := by simp [satTile]

end Sys2Proof.Machine
end

