-- ==== Sys2Proof/Laws/Memory.lean ====
section
/-! SUPPORT. The laws of the sparse memories and of the big-endian accesses: what a read after a write answers, what a write
leaves alone, and that every operation keeps the canonical form and the address bound. -/

namespace Sys2Proof.Machine

/-! ### One cell -/

@[simp] theorem cellRead_nil {α : Type} (a : Nat) : cellRead ([] : Cells α) a = none := rfl

@[simp] theorem cellRead_cellWrite {α : Type} (m : Cells α) (a b : Nat) (v : α) :
    cellRead (cellWrite m a v) b = if b = a then some v else cellRead m b := by
  induction m with
  | nil => rfl
  | cons c m ih =>
    obtain ⟨k, w⟩ := c
    unfold cellWrite
    split
    · rfl
    · split
      · rename_i h; subst h
        simp only [cellRead]; split <;> rfl
      · simp only [cellRead, ih]
        by_cases hk : b = k
        · subst hk; simp only [if_true]; rw [if_neg]; omega
        · simp only [if_neg hk]

theorem cellWrite_mem {α : Type} {m : Cells α} {a : Nat} {v : α} {c : Nat × α} (h : c ∈ cellWrite m a v) :
    c = (a, v) ∨ c ∈ m := by
  induction m with
  | nil => simpa [cellWrite] using h
  | cons d m ih =>
    obtain ⟨k, w⟩ := d
    unfold cellWrite at h
    split at h
    · simpa using h
    · split at h
      · rcases List.mem_cons.1 h with h | h
        · exact .inl h
        · exact .inr (List.mem_cons_of_mem _ h)
      · rcases List.mem_cons.1 h with h | h
        · exact .inr (h ▸ List.mem_cons_self)
        · rcases ih h with h | h
          · exact .inl h
          · exact .inr (List.mem_cons_of_mem _ h)

theorem cellWrite_wf {α : Type} {m : Cells α} (h : Cells.wf m) (a : Nat) (v : α) : Cells.wf (cellWrite m a v) := by
  induction m with
  | nil => exact List.pairwise_singleton _ _
  | cons d m ih =>
    obtain ⟨k, w⟩ := d
    obtain ⟨hk, hm⟩ := List.pairwise_cons.1 h
    unfold cellWrite
    split
    · rename_i hak
      refine List.pairwise_cons.2 ⟨fun c hc => ?_, h⟩
      rcases List.mem_cons.1 hc with rfl | hc
      · exact hak
      · exact Nat.lt_trans hak (hk c hc)
    · split
      · rename_i h2; subst h2
        exact List.pairwise_cons.2 ⟨hk, hm⟩
      · refine List.pairwise_cons.2 ⟨fun c hc => ?_, ih hm⟩
        rcases cellWrite_mem hc with rfl | hc
        · show k < a; omega
        · exact hk c hc

theorem cellWrite_below {α : Type} {m : Cells α} {n a : Nat} (h : Cells.below n m) (ha : a < n) (v : α) :
    Cells.below n (cellWrite m a v) := by
  intro c hc
  rcases cellWrite_mem hc with rfl | hc
  · exact ha
  · exact h c hc

theorem cellRead_mem {α : Type} {m : Cells α} {a : Nat} {v : α} (h : cellRead m a = some v) : (a, v) ∈ m := by
  induction m with
  | nil => simp at h
  | cons c m ih =>
    obtain ⟨k, w⟩ := c
    unfold cellRead at h
    split at h
    · rename_i hk; subst hk; cases h; exact List.mem_cons_self
    · exact List.mem_cons_of_mem _ (ih h)

theorem cellRead_below {α : Type} {m : Cells α} {n a : Nat} {v : α} (hb : Cells.below n m)
    (h : cellRead m a = some v) : a < n := hb _ (cellRead_mem h)

/-- Two memories in canonical form that read alike everywhere are equal. -/
theorem cells_ext {α : Type} {m m' : Cells α} (h : Cells.wf m) (h' : Cells.wf m')
    (heq : ∀ a, cellRead m a = cellRead m' a) : m = m' := by
  have none_of_lt : ∀ {l : Cells α} {k : Nat}, (∀ c ∈ l, k < c.1) → cellRead l k = none := by
    intro l k hl
    cases hr : cellRead l k with
    | none => rfl
    | some v => exact absurd (hl _ (cellRead_mem hr)) (Nat.lt_irrefl _)
  induction m generalizing m' with
  | nil =>
    cases m' with
    | nil => rfl
    | cons c m' => obtain ⟨k, w⟩ := c; have := heq k; simp [cellRead] at this
  | cons c m ih =>
    obtain ⟨k, w⟩ := c
    obtain ⟨hk, hm⟩ := List.pairwise_cons.1 h
    cases m' with
    | nil => have := heq k; simp [cellRead] at this
    | cons c' m' =>
      obtain ⟨k', w'⟩ := c'
      obtain ⟨hk', hm'⟩ := List.pairwise_cons.1 h'
      have hkk : k = k' := by
        rcases Nat.lt_trichotomy k k' with hlt | he | hlt
        · have h1 := heq k
          rw [none_of_lt (l := (k', w') :: m')] at h1
          · simp [cellRead] at h1
          · intro c hc
            rcases List.mem_cons.1 hc with rfl | hc
            · exact hlt
            · exact Nat.lt_trans hlt (hk' c hc)
        · exact he
        · have h1 := heq k'
          rw [none_of_lt (l := (k, w) :: m)] at h1
          · simp [cellRead] at h1
          · intro c hc
            rcases List.mem_cons.1 hc with rfl | hc
            · exact hlt
            · exact Nat.lt_trans hlt (hk c hc)
      subst hkk
      have hw : w = w' := by have := heq k; simpa [cellRead] using this
      subst hw
      have : m = m' := by
        refine ih hm hm' fun a => ?_
        have h1 := heq a
        by_cases hak : a = k
        · subst hak
          rw [none_of_lt hk, none_of_lt hk']
        · simpa [cellRead, hak] using h1
      rw [this]

/-! ### Operations that write bytes of a region only -/

/-- `m'` differs from `m` at most at the `n` addresses from `a` on, keeps the canonical form, and has no new cell outside
them. -/
structure WritesOnly (a n : Nat) (m m' : Memory) : Prop where
  outside : ∀ b, b < a ∨ a + n ≤ b → cellRead m' b = cellRead m b
  wf : Memory.wf m → Memory.wf m'
  below : ∀ lim, a + n ≤ lim → Cells.below lim m → Cells.below lim m'

theorem WritesOnly.refl (a n : Nat) (m : Memory) : WritesOnly a n m m := ⟨fun _ _ => rfl, id, fun _ _ h => h⟩

theorem WritesOnly.trans {a n : Nat} {m₁ m₂ m₃ : Memory} (h : WritesOnly a n m₁ m₂) (h' : WritesOnly a n m₂ m₃) :
    WritesOnly a n m₁ m₃ :=
  ⟨fun b hb => (h'.outside b hb).trans (h.outside b hb), fun hw => h'.wf (h.wf hw),
   fun lim hl hb => h'.below lim hl (h.below lim hl hb)⟩

theorem WritesOnly.widen {a n a' n' : Nat} {m m' : Memory} (h : WritesOnly a n m m') (hlo : a' ≤ a)
    (hhi : a + n ≤ a' + n') : WritesOnly a' n' m m' :=
  ⟨fun b hb => h.outside b (by omega), h.wf, fun lim hl => h.below lim (by omega)⟩

theorem cellWrite_writesOnly (m : Memory) (a : Nat) (v : Byte) : WritesOnly a 1 m (cellWrite m a v) :=
  ⟨fun b hb => by rw [cellRead_cellWrite, if_neg]; omega, fun h => cellWrite_wf h a v,
   fun lim hl h => cellWrite_below h (by omega) v⟩

theorem writeBE_writesOnly (m : Memory) (a n v : Nat) : WritesOnly a n m (writeBE m a n v) := by
  induction n generalizing v with
  | zero => exact WritesOnly.refl a 0 m
  | succ n ih =>
    exact ((ih (v / 256)).widen (Nat.le_refl _) (by omega)).trans
      ((cellWrite_writesOnly _ (a + n) _).widen (by omega) (by omega))

theorem writeWord_writesOnly (m : Memory) (a : Nat) (w : Word) : WritesOnly a 4 m (writeWord m a w) :=
  writeBE_writesOnly m a 4 w.toNat

theorem writeBytes_writesOnly (m : Memory) (a : Nat) (bs : List Byte) :
    WritesOnly a bs.length m (writeBytes m a bs) := by
  induction bs generalizing m a with
  | nil => exact WritesOnly.refl a 0 m
  | cons b bs ih =>
    rw [List.length_cons]
    exact ((cellWrite_writesOnly m a b).widen (Nat.le_refl _) (by omega)).trans
      ((ih (cellWrite m a b) (a + 1)).widen (by omega) (by omega))

theorem havocBytes_writesOnly (d : Nat) (m : Memory) (a n : Nat) : WritesOnly a n m (havocBytes d m a n) := by
  induction n generalizing m a with
  | zero => exact WritesOnly.refl a 0 m
  | succ n ih =>
    exact ((cellWrite_writesOnly m a _).widen (Nat.le_refl _) (by omega)).trans
      ((ih (cellWrite m a _) (a + 1)).widen (by omega) (by omega))

/-! ### Reading -/

/-- A big-endian read looks at no byte outside its own. -/
theorem readBE_congr {m m' : Memory} {a n : Nat} (h : ∀ b, a ≤ b → b < a + n → cellRead m' b = cellRead m b) :
    readBE m' a n = readBE m a n := by
  induction n with
  | zero => rfl
  | succ n ih =>
    simp only [readBE]
    rw [ih fun b h1 h2 => h b h1 (by omega), h (a + n) (by omega) (by omega)]

theorem readWord_congr {m m' : Memory} {a : Nat} (h : ∀ b, a ≤ b → b < a + 4 → cellRead m' b = cellRead m b) :
    readWord m' a = readWord m a := by rw [readWord, readWord, readBE_congr h]

/-- A read succeeds exactly where all its bytes are written. -/
theorem readBE_isSome (m : Memory) (a n : Nat) :
    (readBE m a n).isSome ↔ ∀ b, a ≤ b → b < a + n → (cellRead m b).isSome := by
  induction n with
  | zero => simp [readBE]; intros; omega
  | succ n ih =>
    constructor
    · intro h
      simp only [readBE] at h
      cases h1 : readBE m a n with
      | none => simp [h1] at h
      | some x =>
        cases h2 : cellRead m (a + n) with
        | none => simp [h1, h2] at h
        | some y =>
          intro b hb hb'
          by_cases he : b = a + n
          · subst he; simp [h2]
          · exact ih.1 (by simp [h1]) b hb (by omega)
    · intro h
      obtain ⟨x, hx⟩ := Option.isSome_iff_exists.1 (ih.2 fun b h1 h2 => h b h1 (by omega))
      obtain ⟨y, hy⟩ := Option.isSome_iff_exists.1 (h (a + n) (by omega) (by omega))
      simp [readBE, hx, hy]

theorem readBE_writeBE (m : Memory) (a n v : Nat) : readBE (writeBE m a n v) a n = some (v % 256 ^ n) := by
  induction n generalizing v with
  | zero => simp [readBE, Nat.mod_one]
  | succ n ih =>
    have h1 : readBE (writeBE m a (n + 1) v) a n = readBE (writeBE m a n (v / 256)) a n :=
      readBE_congr fun b hb hb' => by
        simp only [writeBE, cellRead_cellWrite]; rw [if_neg]; omega
    simp only [readBE, h1, ih]
    simp only [writeBE, cellRead_cellWrite, if_true, BitVec.toNat_ofNat]
    congr 1
    rw [show (2 : Nat) ^ 8 = 256 from rfl, Nat.pow_succ, Nat.mul_comm (256 ^ n) 256, Nat.mod_mul]
    ring

@[simp] theorem readWord_writeWord (m : Memory) (a : Nat) (w : Word) : readWord (writeWord m a w) a = some w := by
  rw [readWord, writeWord, readBE_writeBE]
  simp only [Option.map_some]
  congr 1
  apply BitVec.eq_of_toNat_eq
  simp only [BitVec.toNat_ofNat]
  have := w.isLt
  omega

/-- A word elsewhere is left alone by a word write. -/
theorem readWord_writeWord_disjoint (m : Memory) {a b : Nat} (w : Word) (h : b + 4 ≤ a ∨ a + 4 ≤ b) :
    readWord (writeWord m a w) b = readWord m b :=
  readWord_congr fun c h1 h2 => (writeWord_writesOnly m a w).outside c (by omega)

/-- What `writeBytes` leaves in its region. -/
theorem cellRead_writeBytes (m : Memory) (a : Nat) (bs : List Byte) (j : Nat) (h : j < bs.length) :
    cellRead (writeBytes m a bs) (a + j) = some bs[j] := by
  induction bs generalizing m a j with
  | nil => simp at h
  | cons b bs ih =>
    cases j with
    | zero =>
      simp only [writeBytes, Nat.add_zero]
      rw [(writeBytes_writesOnly _ (a + 1) bs).outside a (by omega), cellRead_cellWrite, if_pos rfl]
      rfl
    | succ j =>
      simp only [writeBytes]
      have := ih (cellWrite m a b) (a + 1) j (by simpa using h)
      rw [show a + (j + 1) = a + 1 + j by omega, this]
      rfl

theorem writeBytes_append (m : Memory) (a : Nat) (bs cs : List Byte) :
    writeBytes m a (bs ++ cs) = writeBytes (writeBytes m a bs) (a + bs.length) cs := by
  induction bs generalizing m a with
  | nil => rfl
  | cons b bs ih =>
    simp only [List.cons_append, writeBytes, ih, List.length_cons]
    rw [show a + 1 + bs.length = a + (bs.length + 1) by omega]

end Sys2Proof.Machine
end

