-- ==== Sys2Proof/Laws/State.lean ====
section
/-! SUPPORT. What each named update of State does to each field: one lemma per field per update. -/

namespace Sys2Proof.Machine

variable (s : State)

/-! ### advance -/

@[simp] theorem State.advance_params : s.advance.params = s.params := rfl
@[simp] theorem State.advance_host : s.advance.host = s.host := rfl
@[simp] theorem State.advance_resp : s.advance.resp = s.resp := rfl
@[simp] theorem State.advance_draws : s.advance.draws = s.draws := rfl
@[simp] theorem State.advance_resets : s.advance.resets = s.resets := rfl
@[simp] theorem State.advance_rstN : s.advance.rstN = s.rstN := rfl
@[simp] theorem State.advance_tiles : s.advance.tiles = s.tiles := rfl
@[simp] theorem State.advance_pc : s.advance.pc = s.pc + 1 := rfl
@[simp] theorem State.advance_busy : s.advance.busy = s.busy := rfl
@[simp] theorem State.advance_err : s.advance.err = s.err := rfl
@[simp] theorem State.advance_ovf : s.advance.ovf = s.ovf := rfl
@[simp] theorem State.advance_hacc : s.advance.hacc = s.hacc := rfl
@[simp] theorem State.advance_abortPend : s.advance.abortPend = s.abortPend := rfl
@[simp] theorem State.advance_errCode : s.advance.errCode = s.errCode := rfl
@[simp] theorem State.advance_errPc : s.advance.errPc = s.errPc := rfl
@[simp] theorem State.advance_doneIe : s.advance.doneIe = s.doneIe := rfl
@[simp] theorem State.advance_errIe : s.advance.errIe = s.errIe := rfl
@[simp] theorem State.advance_isDone : s.advance.isDone = s.isDone := rfl
@[simp] theorem State.advance_isErr : s.advance.isErr = s.isErr := rfl
@[simp] theorem State.advance_width : s.advance.width = s.width := rfl
@[simp] theorem State.advance_height : s.advance.height = s.height := rfl
@[simp] theorem State.advance_pixBase : s.advance.pixBase = s.pixBase := rfl
@[simp] theorem State.advance_planeBase0 : s.advance.planeBase0 = s.planeBase0 := rfl
@[simp] theorem State.advance_planeBase1 : s.advance.planeBase1 = s.planeBase1 := rfl
@[simp] theorem State.advance_planeBase2 : s.advance.planeBase2 = s.planeBase2 := rfl
@[simp] theorem State.advance_rlePtr : s.advance.rlePtr = s.rlePtr := rfl
@[simp] theorem State.advance_rleLimit : s.advance.rleLimit = s.rleLimit := rfl
@[simp] theorem State.advance_tcount0 : s.advance.tcount0 = s.tcount0 := rfl
@[simp] theorem State.advance_tcount1 : s.advance.tcount1 = s.tcount1 := rfl
@[simp] theorem State.advance_tcount2 : s.advance.tcount2 = s.tcount2 := rfl
@[simp] theorem State.advance_tidx : s.advance.tidx = s.tidx := rfl
@[simp] theorem State.advance_qtLuma : s.advance.qtLuma = s.qtLuma := rfl
@[simp] theorem State.advance_qtChroma : s.advance.qtChroma = s.qtChroma := rfl
@[simp] theorem State.advance_cmdmem : s.advance.cmdmem = s.cmdmem := rfl
@[simp] theorem State.advance_dmem : s.advance.dmem = s.dmem := rfl

/-! ### stopError -/

@[simp] theorem State.stopError_params (e : ErrCode) : (s.stopError e).params = s.params := rfl
@[simp] theorem State.stopError_host (e : ErrCode) : (s.stopError e).host = s.host := rfl
@[simp] theorem State.stopError_resp (e : ErrCode) : (s.stopError e).resp = s.resp := rfl
@[simp] theorem State.stopError_draws (e : ErrCode) : (s.stopError e).draws = s.draws := rfl
@[simp] theorem State.stopError_resets (e : ErrCode) : (s.stopError e).resets = s.resets := rfl
@[simp] theorem State.stopError_rstN (e : ErrCode) : (s.stopError e).rstN = s.rstN := rfl
@[simp] theorem State.stopError_tiles (e : ErrCode) : (s.stopError e).tiles = s.tiles := rfl
@[simp] theorem State.stopError_pc (e : ErrCode) : (s.stopError e).pc = s.pc := rfl
@[simp] theorem State.stopError_busy (e : ErrCode) : (s.stopError e).busy = false := rfl
@[simp] theorem State.stopError_err (e : ErrCode) : (s.stopError e).err = true := rfl
@[simp] theorem State.stopError_ovf (e : ErrCode) : (s.stopError e).ovf = s.ovf := rfl
@[simp] theorem State.stopError_hacc (e : ErrCode) : (s.stopError e).hacc = s.hacc := rfl
@[simp] theorem State.stopError_abortPend (e : ErrCode) : (s.stopError e).abortPend = false := rfl
@[simp] theorem State.stopError_errCode (e : ErrCode) : (s.stopError e).errCode = e := rfl
@[simp] theorem State.stopError_errPc (e : ErrCode) : (s.stopError e).errPc = s.pc := rfl
@[simp] theorem State.stopError_doneIe (e : ErrCode) : (s.stopError e).doneIe = s.doneIe := rfl
@[simp] theorem State.stopError_errIe (e : ErrCode) : (s.stopError e).errIe = s.errIe := rfl
@[simp] theorem State.stopError_isDone (e : ErrCode) : (s.stopError e).isDone = s.isDone := rfl
@[simp] theorem State.stopError_isErr (e : ErrCode) : (s.stopError e).isErr = true := rfl
@[simp] theorem State.stopError_width (e : ErrCode) : (s.stopError e).width = s.width := rfl
@[simp] theorem State.stopError_height (e : ErrCode) : (s.stopError e).height = s.height := rfl
@[simp] theorem State.stopError_pixBase (e : ErrCode) : (s.stopError e).pixBase = s.pixBase := rfl
@[simp] theorem State.stopError_planeBase0 (e : ErrCode) : (s.stopError e).planeBase0 = s.planeBase0 := rfl
@[simp] theorem State.stopError_planeBase1 (e : ErrCode) : (s.stopError e).planeBase1 = s.planeBase1 := rfl
@[simp] theorem State.stopError_planeBase2 (e : ErrCode) : (s.stopError e).planeBase2 = s.planeBase2 := rfl
@[simp] theorem State.stopError_rlePtr (e : ErrCode) : (s.stopError e).rlePtr = s.rlePtr := rfl
@[simp] theorem State.stopError_rleLimit (e : ErrCode) : (s.stopError e).rleLimit = s.rleLimit := rfl
@[simp] theorem State.stopError_tcount0 (e : ErrCode) : (s.stopError e).tcount0 = s.tcount0 := rfl
@[simp] theorem State.stopError_tcount1 (e : ErrCode) : (s.stopError e).tcount1 = s.tcount1 := rfl
@[simp] theorem State.stopError_tcount2 (e : ErrCode) : (s.stopError e).tcount2 = s.tcount2 := rfl
@[simp] theorem State.stopError_tidx (e : ErrCode) : (s.stopError e).tidx = s.tidx := rfl
@[simp] theorem State.stopError_qtLuma (e : ErrCode) : (s.stopError e).qtLuma = s.qtLuma := rfl
@[simp] theorem State.stopError_qtChroma (e : ErrCode) : (s.stopError e).qtChroma = s.qtChroma := rfl
@[simp] theorem State.stopError_cmdmem (e : ErrCode) : (s.stopError e).cmdmem = s.cmdmem := rfl
@[simp] theorem State.stopError_dmem (e : ErrCode) : (s.stopError e).dmem = s.dmem := rfl

/-! ### stopDone -/

@[simp] theorem State.stopDone_params : s.stopDone.params = s.params := rfl
@[simp] theorem State.stopDone_host : s.stopDone.host = s.host := rfl
@[simp] theorem State.stopDone_resp : s.stopDone.resp = s.resp := rfl
@[simp] theorem State.stopDone_draws : s.stopDone.draws = s.draws := rfl
@[simp] theorem State.stopDone_resets : s.stopDone.resets = s.resets := rfl
@[simp] theorem State.stopDone_rstN : s.stopDone.rstN = s.rstN := rfl
@[simp] theorem State.stopDone_tiles : s.stopDone.tiles = s.tiles := rfl
@[simp] theorem State.stopDone_pc : s.stopDone.pc = s.pc := rfl
@[simp] theorem State.stopDone_busy : s.stopDone.busy = false := rfl
@[simp] theorem State.stopDone_err : s.stopDone.err = s.err := rfl
@[simp] theorem State.stopDone_ovf : s.stopDone.ovf = s.ovf := rfl
@[simp] theorem State.stopDone_hacc : s.stopDone.hacc = s.hacc := rfl
@[simp] theorem State.stopDone_abortPend : s.stopDone.abortPend = false := rfl
@[simp] theorem State.stopDone_errCode : s.stopDone.errCode = s.errCode := rfl
@[simp] theorem State.stopDone_errPc : s.stopDone.errPc = s.errPc := rfl
@[simp] theorem State.stopDone_doneIe : s.stopDone.doneIe = s.doneIe := rfl
@[simp] theorem State.stopDone_errIe : s.stopDone.errIe = s.errIe := rfl
@[simp] theorem State.stopDone_isDone : s.stopDone.isDone = true := rfl
@[simp] theorem State.stopDone_isErr : s.stopDone.isErr = s.isErr := rfl
@[simp] theorem State.stopDone_width : s.stopDone.width = s.width := rfl
@[simp] theorem State.stopDone_height : s.stopDone.height = s.height := rfl
@[simp] theorem State.stopDone_pixBase : s.stopDone.pixBase = s.pixBase := rfl
@[simp] theorem State.stopDone_planeBase0 : s.stopDone.planeBase0 = s.planeBase0 := rfl
@[simp] theorem State.stopDone_planeBase1 : s.stopDone.planeBase1 = s.planeBase1 := rfl
@[simp] theorem State.stopDone_planeBase2 : s.stopDone.planeBase2 = s.planeBase2 := rfl
@[simp] theorem State.stopDone_rlePtr : s.stopDone.rlePtr = s.rlePtr := rfl
@[simp] theorem State.stopDone_rleLimit : s.stopDone.rleLimit = s.rleLimit := rfl
@[simp] theorem State.stopDone_tcount0 : s.stopDone.tcount0 = s.tcount0 := rfl
@[simp] theorem State.stopDone_tcount1 : s.stopDone.tcount1 = s.tcount1 := rfl
@[simp] theorem State.stopDone_tcount2 : s.stopDone.tcount2 = s.tcount2 := rfl
@[simp] theorem State.stopDone_tidx : s.stopDone.tidx = s.tidx := rfl
@[simp] theorem State.stopDone_qtLuma : s.stopDone.qtLuma = s.qtLuma := rfl
@[simp] theorem State.stopDone_qtChroma : s.stopDone.qtChroma = s.qtChroma := rfl
@[simp] theorem State.stopDone_cmdmem : s.stopDone.cmdmem = s.cmdmem := rfl
@[simp] theorem State.stopDone_dmem : s.stopDone.dmem = s.dmem := rfl

/-! ### orOvf -/

@[simp] theorem State.orOvf_params (b : Bool) : (s.orOvf b).params = s.params := rfl
@[simp] theorem State.orOvf_host (b : Bool) : (s.orOvf b).host = s.host := rfl
@[simp] theorem State.orOvf_resp (b : Bool) : (s.orOvf b).resp = s.resp := rfl
@[simp] theorem State.orOvf_draws (b : Bool) : (s.orOvf b).draws = s.draws := rfl
@[simp] theorem State.orOvf_resets (b : Bool) : (s.orOvf b).resets = s.resets := rfl
@[simp] theorem State.orOvf_rstN (b : Bool) : (s.orOvf b).rstN = s.rstN := rfl
@[simp] theorem State.orOvf_tiles (b : Bool) : (s.orOvf b).tiles = s.tiles := rfl
@[simp] theorem State.orOvf_pc (b : Bool) : (s.orOvf b).pc = s.pc := rfl
@[simp] theorem State.orOvf_busy (b : Bool) : (s.orOvf b).busy = s.busy := rfl
@[simp] theorem State.orOvf_err (b : Bool) : (s.orOvf b).err = s.err := rfl
@[simp] theorem State.orOvf_ovf (b : Bool) : (s.orOvf b).ovf = (s.ovf || b) := rfl
@[simp] theorem State.orOvf_hacc (b : Bool) : (s.orOvf b).hacc = s.hacc := rfl
@[simp] theorem State.orOvf_abortPend (b : Bool) : (s.orOvf b).abortPend = s.abortPend := rfl
@[simp] theorem State.orOvf_errCode (b : Bool) : (s.orOvf b).errCode = s.errCode := rfl
@[simp] theorem State.orOvf_errPc (b : Bool) : (s.orOvf b).errPc = s.errPc := rfl
@[simp] theorem State.orOvf_doneIe (b : Bool) : (s.orOvf b).doneIe = s.doneIe := rfl
@[simp] theorem State.orOvf_errIe (b : Bool) : (s.orOvf b).errIe = s.errIe := rfl
@[simp] theorem State.orOvf_isDone (b : Bool) : (s.orOvf b).isDone = s.isDone := rfl
@[simp] theorem State.orOvf_isErr (b : Bool) : (s.orOvf b).isErr = s.isErr := rfl
@[simp] theorem State.orOvf_width (b : Bool) : (s.orOvf b).width = s.width := rfl
@[simp] theorem State.orOvf_height (b : Bool) : (s.orOvf b).height = s.height := rfl
@[simp] theorem State.orOvf_pixBase (b : Bool) : (s.orOvf b).pixBase = s.pixBase := rfl
@[simp] theorem State.orOvf_planeBase0 (b : Bool) : (s.orOvf b).planeBase0 = s.planeBase0 := rfl
@[simp] theorem State.orOvf_planeBase1 (b : Bool) : (s.orOvf b).planeBase1 = s.planeBase1 := rfl
@[simp] theorem State.orOvf_planeBase2 (b : Bool) : (s.orOvf b).planeBase2 = s.planeBase2 := rfl
@[simp] theorem State.orOvf_rlePtr (b : Bool) : (s.orOvf b).rlePtr = s.rlePtr := rfl
@[simp] theorem State.orOvf_rleLimit (b : Bool) : (s.orOvf b).rleLimit = s.rleLimit := rfl
@[simp] theorem State.orOvf_tcount0 (b : Bool) : (s.orOvf b).tcount0 = s.tcount0 := rfl
@[simp] theorem State.orOvf_tcount1 (b : Bool) : (s.orOvf b).tcount1 = s.tcount1 := rfl
@[simp] theorem State.orOvf_tcount2 (b : Bool) : (s.orOvf b).tcount2 = s.tcount2 := rfl
@[simp] theorem State.orOvf_tidx (b : Bool) : (s.orOvf b).tidx = s.tidx := rfl
@[simp] theorem State.orOvf_qtLuma (b : Bool) : (s.orOvf b).qtLuma = s.qtLuma := rfl
@[simp] theorem State.orOvf_qtChroma (b : Bool) : (s.orOvf b).qtChroma = s.qtChroma := rfl
@[simp] theorem State.orOvf_cmdmem (b : Bool) : (s.orOvf b).cmdmem = s.cmdmem := rfl
@[simp] theorem State.orOvf_dmem (b : Bool) : (s.orOvf b).dmem = s.dmem := rfl

/-! ### writeTile -/

@[simp] theorem State.writeTile_params (i : TReg) (t : Tile) : (s.writeTile i t).params = s.params := rfl
@[simp] theorem State.writeTile_host (i : TReg) (t : Tile) : (s.writeTile i t).host = s.host := rfl
@[simp] theorem State.writeTile_resp (i : TReg) (t : Tile) : (s.writeTile i t).resp = s.resp := rfl
@[simp] theorem State.writeTile_draws (i : TReg) (t : Tile) : (s.writeTile i t).draws = s.draws := rfl
@[simp] theorem State.writeTile_resets (i : TReg) (t : Tile) : (s.writeTile i t).resets = s.resets := rfl
@[simp] theorem State.writeTile_rstN (i : TReg) (t : Tile) : (s.writeTile i t).rstN = s.rstN := rfl
@[simp] theorem State.writeTile_tiles (i : TReg) (t : Tile) : (s.writeTile i t).tiles = s.tiles.set i { vals := t, written := Vector.replicate 64 true } := rfl
@[simp] theorem State.writeTile_pc (i : TReg) (t : Tile) : (s.writeTile i t).pc = s.pc := rfl
@[simp] theorem State.writeTile_busy (i : TReg) (t : Tile) : (s.writeTile i t).busy = s.busy := rfl
@[simp] theorem State.writeTile_err (i : TReg) (t : Tile) : (s.writeTile i t).err = s.err := rfl
@[simp] theorem State.writeTile_ovf (i : TReg) (t : Tile) : (s.writeTile i t).ovf = s.ovf := rfl
@[simp] theorem State.writeTile_hacc (i : TReg) (t : Tile) : (s.writeTile i t).hacc = s.hacc := rfl
@[simp] theorem State.writeTile_abortPend (i : TReg) (t : Tile) : (s.writeTile i t).abortPend = s.abortPend := rfl
@[simp] theorem State.writeTile_errCode (i : TReg) (t : Tile) : (s.writeTile i t).errCode = s.errCode := rfl
@[simp] theorem State.writeTile_errPc (i : TReg) (t : Tile) : (s.writeTile i t).errPc = s.errPc := rfl
@[simp] theorem State.writeTile_doneIe (i : TReg) (t : Tile) : (s.writeTile i t).doneIe = s.doneIe := rfl
@[simp] theorem State.writeTile_errIe (i : TReg) (t : Tile) : (s.writeTile i t).errIe = s.errIe := rfl
@[simp] theorem State.writeTile_isDone (i : TReg) (t : Tile) : (s.writeTile i t).isDone = s.isDone := rfl
@[simp] theorem State.writeTile_isErr (i : TReg) (t : Tile) : (s.writeTile i t).isErr = s.isErr := rfl
@[simp] theorem State.writeTile_width (i : TReg) (t : Tile) : (s.writeTile i t).width = s.width := rfl
@[simp] theorem State.writeTile_height (i : TReg) (t : Tile) : (s.writeTile i t).height = s.height := rfl
@[simp] theorem State.writeTile_pixBase (i : TReg) (t : Tile) : (s.writeTile i t).pixBase = s.pixBase := rfl
@[simp] theorem State.writeTile_planeBase0 (i : TReg) (t : Tile) : (s.writeTile i t).planeBase0 = s.planeBase0 := rfl
@[simp] theorem State.writeTile_planeBase1 (i : TReg) (t : Tile) : (s.writeTile i t).planeBase1 = s.planeBase1 := rfl
@[simp] theorem State.writeTile_planeBase2 (i : TReg) (t : Tile) : (s.writeTile i t).planeBase2 = s.planeBase2 := rfl
@[simp] theorem State.writeTile_rlePtr (i : TReg) (t : Tile) : (s.writeTile i t).rlePtr = s.rlePtr := rfl
@[simp] theorem State.writeTile_rleLimit (i : TReg) (t : Tile) : (s.writeTile i t).rleLimit = s.rleLimit := rfl
@[simp] theorem State.writeTile_tcount0 (i : TReg) (t : Tile) : (s.writeTile i t).tcount0 = s.tcount0 := rfl
@[simp] theorem State.writeTile_tcount1 (i : TReg) (t : Tile) : (s.writeTile i t).tcount1 = s.tcount1 := rfl
@[simp] theorem State.writeTile_tcount2 (i : TReg) (t : Tile) : (s.writeTile i t).tcount2 = s.tcount2 := rfl
@[simp] theorem State.writeTile_tidx (i : TReg) (t : Tile) : (s.writeTile i t).tidx = s.tidx := rfl
@[simp] theorem State.writeTile_qtLuma (i : TReg) (t : Tile) : (s.writeTile i t).qtLuma = s.qtLuma := rfl
@[simp] theorem State.writeTile_qtChroma (i : TReg) (t : Tile) : (s.writeTile i t).qtChroma = s.qtChroma := rfl
@[simp] theorem State.writeTile_cmdmem (i : TReg) (t : Tile) : (s.writeTile i t).cmdmem = s.cmdmem := rfl
@[simp] theorem State.writeTile_dmem (i : TReg) (t : Tile) : (s.writeTile i t).dmem = s.dmem := rfl

/-! ### writeElem -/

@[simp] theorem State.writeElem_params (i : TReg) (e : Fin 64) (v : Word) : (s.writeElem i e v).params = s.params := rfl
@[simp] theorem State.writeElem_host (i : TReg) (e : Fin 64) (v : Word) : (s.writeElem i e v).host = s.host := rfl
@[simp] theorem State.writeElem_resp (i : TReg) (e : Fin 64) (v : Word) : (s.writeElem i e v).resp = s.resp := rfl
@[simp] theorem State.writeElem_draws (i : TReg) (e : Fin 64) (v : Word) : (s.writeElem i e v).draws = s.draws := rfl
@[simp] theorem State.writeElem_resets (i : TReg) (e : Fin 64) (v : Word) : (s.writeElem i e v).resets = s.resets := rfl
@[simp] theorem State.writeElem_rstN (i : TReg) (e : Fin 64) (v : Word) : (s.writeElem i e v).rstN = s.rstN := rfl
@[simp] theorem State.writeElem_pc (i : TReg) (e : Fin 64) (v : Word) : (s.writeElem i e v).pc = s.pc := rfl
@[simp] theorem State.writeElem_busy (i : TReg) (e : Fin 64) (v : Word) : (s.writeElem i e v).busy = s.busy := rfl
@[simp] theorem State.writeElem_err (i : TReg) (e : Fin 64) (v : Word) : (s.writeElem i e v).err = s.err := rfl
@[simp] theorem State.writeElem_ovf (i : TReg) (e : Fin 64) (v : Word) : (s.writeElem i e v).ovf = s.ovf := rfl
@[simp] theorem State.writeElem_hacc (i : TReg) (e : Fin 64) (v : Word) : (s.writeElem i e v).hacc = s.hacc := rfl
@[simp] theorem State.writeElem_abortPend (i : TReg) (e : Fin 64) (v : Word) : (s.writeElem i e v).abortPend = s.abortPend := rfl
@[simp] theorem State.writeElem_errCode (i : TReg) (e : Fin 64) (v : Word) : (s.writeElem i e v).errCode = s.errCode := rfl
@[simp] theorem State.writeElem_errPc (i : TReg) (e : Fin 64) (v : Word) : (s.writeElem i e v).errPc = s.errPc := rfl
@[simp] theorem State.writeElem_doneIe (i : TReg) (e : Fin 64) (v : Word) : (s.writeElem i e v).doneIe = s.doneIe := rfl
@[simp] theorem State.writeElem_errIe (i : TReg) (e : Fin 64) (v : Word) : (s.writeElem i e v).errIe = s.errIe := rfl
@[simp] theorem State.writeElem_isDone (i : TReg) (e : Fin 64) (v : Word) : (s.writeElem i e v).isDone = s.isDone := rfl
@[simp] theorem State.writeElem_isErr (i : TReg) (e : Fin 64) (v : Word) : (s.writeElem i e v).isErr = s.isErr := rfl
@[simp] theorem State.writeElem_width (i : TReg) (e : Fin 64) (v : Word) : (s.writeElem i e v).width = s.width := rfl
@[simp] theorem State.writeElem_height (i : TReg) (e : Fin 64) (v : Word) : (s.writeElem i e v).height = s.height := rfl
@[simp] theorem State.writeElem_pixBase (i : TReg) (e : Fin 64) (v : Word) : (s.writeElem i e v).pixBase = s.pixBase := rfl
@[simp] theorem State.writeElem_planeBase0 (i : TReg) (e : Fin 64) (v : Word) : (s.writeElem i e v).planeBase0 = s.planeBase0 := rfl
@[simp] theorem State.writeElem_planeBase1 (i : TReg) (e : Fin 64) (v : Word) : (s.writeElem i e v).planeBase1 = s.planeBase1 := rfl
@[simp] theorem State.writeElem_planeBase2 (i : TReg) (e : Fin 64) (v : Word) : (s.writeElem i e v).planeBase2 = s.planeBase2 := rfl
@[simp] theorem State.writeElem_rlePtr (i : TReg) (e : Fin 64) (v : Word) : (s.writeElem i e v).rlePtr = s.rlePtr := rfl
@[simp] theorem State.writeElem_rleLimit (i : TReg) (e : Fin 64) (v : Word) : (s.writeElem i e v).rleLimit = s.rleLimit := rfl
@[simp] theorem State.writeElem_tcount0 (i : TReg) (e : Fin 64) (v : Word) : (s.writeElem i e v).tcount0 = s.tcount0 := rfl
@[simp] theorem State.writeElem_tcount1 (i : TReg) (e : Fin 64) (v : Word) : (s.writeElem i e v).tcount1 = s.tcount1 := rfl
@[simp] theorem State.writeElem_tcount2 (i : TReg) (e : Fin 64) (v : Word) : (s.writeElem i e v).tcount2 = s.tcount2 := rfl
@[simp] theorem State.writeElem_tidx (i : TReg) (e : Fin 64) (v : Word) : (s.writeElem i e v).tidx = s.tidx := rfl
@[simp] theorem State.writeElem_qtLuma (i : TReg) (e : Fin 64) (v : Word) : (s.writeElem i e v).qtLuma = s.qtLuma := rfl
@[simp] theorem State.writeElem_qtChroma (i : TReg) (e : Fin 64) (v : Word) : (s.writeElem i e v).qtChroma = s.qtChroma := rfl
@[simp] theorem State.writeElem_cmdmem (i : TReg) (e : Fin 64) (v : Word) : (s.writeElem i e v).cmdmem = s.cmdmem := rfl
@[simp] theorem State.writeElem_dmem (i : TReg) (e : Fin 64) (v : Word) : (s.writeElem i e v).dmem = s.dmem := rfl

/-! ### setDmem -/

@[simp] theorem State.setDmem_params (m : Memory) : (s.setDmem m).params = s.params := rfl
@[simp] theorem State.setDmem_host (m : Memory) : (s.setDmem m).host = s.host := rfl
@[simp] theorem State.setDmem_resp (m : Memory) : (s.setDmem m).resp = s.resp := rfl
@[simp] theorem State.setDmem_draws (m : Memory) : (s.setDmem m).draws = s.draws := rfl
@[simp] theorem State.setDmem_resets (m : Memory) : (s.setDmem m).resets = s.resets := rfl
@[simp] theorem State.setDmem_rstN (m : Memory) : (s.setDmem m).rstN = s.rstN := rfl
@[simp] theorem State.setDmem_tiles (m : Memory) : (s.setDmem m).tiles = s.tiles := rfl
@[simp] theorem State.setDmem_pc (m : Memory) : (s.setDmem m).pc = s.pc := rfl
@[simp] theorem State.setDmem_busy (m : Memory) : (s.setDmem m).busy = s.busy := rfl
@[simp] theorem State.setDmem_err (m : Memory) : (s.setDmem m).err = s.err := rfl
@[simp] theorem State.setDmem_ovf (m : Memory) : (s.setDmem m).ovf = s.ovf := rfl
@[simp] theorem State.setDmem_hacc (m : Memory) : (s.setDmem m).hacc = s.hacc := rfl
@[simp] theorem State.setDmem_abortPend (m : Memory) : (s.setDmem m).abortPend = s.abortPend := rfl
@[simp] theorem State.setDmem_errCode (m : Memory) : (s.setDmem m).errCode = s.errCode := rfl
@[simp] theorem State.setDmem_errPc (m : Memory) : (s.setDmem m).errPc = s.errPc := rfl
@[simp] theorem State.setDmem_doneIe (m : Memory) : (s.setDmem m).doneIe = s.doneIe := rfl
@[simp] theorem State.setDmem_errIe (m : Memory) : (s.setDmem m).errIe = s.errIe := rfl
@[simp] theorem State.setDmem_isDone (m : Memory) : (s.setDmem m).isDone = s.isDone := rfl
@[simp] theorem State.setDmem_isErr (m : Memory) : (s.setDmem m).isErr = s.isErr := rfl
@[simp] theorem State.setDmem_width (m : Memory) : (s.setDmem m).width = s.width := rfl
@[simp] theorem State.setDmem_height (m : Memory) : (s.setDmem m).height = s.height := rfl
@[simp] theorem State.setDmem_pixBase (m : Memory) : (s.setDmem m).pixBase = s.pixBase := rfl
@[simp] theorem State.setDmem_planeBase0 (m : Memory) : (s.setDmem m).planeBase0 = s.planeBase0 := rfl
@[simp] theorem State.setDmem_planeBase1 (m : Memory) : (s.setDmem m).planeBase1 = s.planeBase1 := rfl
@[simp] theorem State.setDmem_planeBase2 (m : Memory) : (s.setDmem m).planeBase2 = s.planeBase2 := rfl
@[simp] theorem State.setDmem_rlePtr (m : Memory) : (s.setDmem m).rlePtr = s.rlePtr := rfl
@[simp] theorem State.setDmem_rleLimit (m : Memory) : (s.setDmem m).rleLimit = s.rleLimit := rfl
@[simp] theorem State.setDmem_tcount0 (m : Memory) : (s.setDmem m).tcount0 = s.tcount0 := rfl
@[simp] theorem State.setDmem_tcount1 (m : Memory) : (s.setDmem m).tcount1 = s.tcount1 := rfl
@[simp] theorem State.setDmem_tcount2 (m : Memory) : (s.setDmem m).tcount2 = s.tcount2 := rfl
@[simp] theorem State.setDmem_tidx (m : Memory) : (s.setDmem m).tidx = s.tidx := rfl
@[simp] theorem State.setDmem_qtLuma (m : Memory) : (s.setDmem m).qtLuma = s.qtLuma := rfl
@[simp] theorem State.setDmem_qtChroma (m : Memory) : (s.setDmem m).qtChroma = s.qtChroma := rfl
@[simp] theorem State.setDmem_cmdmem (m : Memory) : (s.setDmem m).cmdmem = s.cmdmem := rfl
@[simp] theorem State.setDmem_dmem (m : Memory) : (s.setDmem m).dmem = m := rfl

/-! ### setRlePtr -/

@[simp] theorem State.setRlePtr_params (p : Nat) : (s.setRlePtr p).params = s.params := rfl
@[simp] theorem State.setRlePtr_host (p : Nat) : (s.setRlePtr p).host = s.host := rfl
@[simp] theorem State.setRlePtr_resp (p : Nat) : (s.setRlePtr p).resp = s.resp := rfl
@[simp] theorem State.setRlePtr_draws (p : Nat) : (s.setRlePtr p).draws = s.draws := rfl
@[simp] theorem State.setRlePtr_resets (p : Nat) : (s.setRlePtr p).resets = s.resets := rfl
@[simp] theorem State.setRlePtr_rstN (p : Nat) : (s.setRlePtr p).rstN = s.rstN := rfl
@[simp] theorem State.setRlePtr_tiles (p : Nat) : (s.setRlePtr p).tiles = s.tiles := rfl
@[simp] theorem State.setRlePtr_pc (p : Nat) : (s.setRlePtr p).pc = s.pc := rfl
@[simp] theorem State.setRlePtr_busy (p : Nat) : (s.setRlePtr p).busy = s.busy := rfl
@[simp] theorem State.setRlePtr_err (p : Nat) : (s.setRlePtr p).err = s.err := rfl
@[simp] theorem State.setRlePtr_ovf (p : Nat) : (s.setRlePtr p).ovf = s.ovf := rfl
@[simp] theorem State.setRlePtr_hacc (p : Nat) : (s.setRlePtr p).hacc = s.hacc := rfl
@[simp] theorem State.setRlePtr_abortPend (p : Nat) : (s.setRlePtr p).abortPend = s.abortPend := rfl
@[simp] theorem State.setRlePtr_errCode (p : Nat) : (s.setRlePtr p).errCode = s.errCode := rfl
@[simp] theorem State.setRlePtr_errPc (p : Nat) : (s.setRlePtr p).errPc = s.errPc := rfl
@[simp] theorem State.setRlePtr_doneIe (p : Nat) : (s.setRlePtr p).doneIe = s.doneIe := rfl
@[simp] theorem State.setRlePtr_errIe (p : Nat) : (s.setRlePtr p).errIe = s.errIe := rfl
@[simp] theorem State.setRlePtr_isDone (p : Nat) : (s.setRlePtr p).isDone = s.isDone := rfl
@[simp] theorem State.setRlePtr_isErr (p : Nat) : (s.setRlePtr p).isErr = s.isErr := rfl
@[simp] theorem State.setRlePtr_width (p : Nat) : (s.setRlePtr p).width = s.width := rfl
@[simp] theorem State.setRlePtr_height (p : Nat) : (s.setRlePtr p).height = s.height := rfl
@[simp] theorem State.setRlePtr_pixBase (p : Nat) : (s.setRlePtr p).pixBase = s.pixBase := rfl
@[simp] theorem State.setRlePtr_planeBase0 (p : Nat) : (s.setRlePtr p).planeBase0 = s.planeBase0 := rfl
@[simp] theorem State.setRlePtr_planeBase1 (p : Nat) : (s.setRlePtr p).planeBase1 = s.planeBase1 := rfl
@[simp] theorem State.setRlePtr_planeBase2 (p : Nat) : (s.setRlePtr p).planeBase2 = s.planeBase2 := rfl
@[simp] theorem State.setRlePtr_rlePtr (p : Nat) : (s.setRlePtr p).rlePtr = BitVec.ofNat 32 p := rfl
@[simp] theorem State.setRlePtr_rleLimit (p : Nat) : (s.setRlePtr p).rleLimit = s.rleLimit := rfl
@[simp] theorem State.setRlePtr_tcount0 (p : Nat) : (s.setRlePtr p).tcount0 = s.tcount0 := rfl
@[simp] theorem State.setRlePtr_tcount1 (p : Nat) : (s.setRlePtr p).tcount1 = s.tcount1 := rfl
@[simp] theorem State.setRlePtr_tcount2 (p : Nat) : (s.setRlePtr p).tcount2 = s.tcount2 := rfl
@[simp] theorem State.setRlePtr_tidx (p : Nat) : (s.setRlePtr p).tidx = s.tidx := rfl
@[simp] theorem State.setRlePtr_qtLuma (p : Nat) : (s.setRlePtr p).qtLuma = s.qtLuma := rfl
@[simp] theorem State.setRlePtr_qtChroma (p : Nat) : (s.setRlePtr p).qtChroma = s.qtChroma := rfl
@[simp] theorem State.setRlePtr_cmdmem (p : Nat) : (s.setRlePtr p).cmdmem = s.cmdmem := rfl
@[simp] theorem State.setRlePtr_dmem (p : Nat) : (s.setRlePtr p).dmem = s.dmem := rfl

/-! ### bumpTidx -/

@[simp] theorem State.bumpTidx_params (b : Bool) : (s.bumpTidx b).params = s.params := rfl
@[simp] theorem State.bumpTidx_host (b : Bool) : (s.bumpTidx b).host = s.host := rfl
@[simp] theorem State.bumpTidx_resp (b : Bool) : (s.bumpTidx b).resp = s.resp := rfl
@[simp] theorem State.bumpTidx_draws (b : Bool) : (s.bumpTidx b).draws = s.draws := rfl
@[simp] theorem State.bumpTidx_resets (b : Bool) : (s.bumpTidx b).resets = s.resets := rfl
@[simp] theorem State.bumpTidx_rstN (b : Bool) : (s.bumpTidx b).rstN = s.rstN := rfl
@[simp] theorem State.bumpTidx_tiles (b : Bool) : (s.bumpTidx b).tiles = s.tiles := rfl
@[simp] theorem State.bumpTidx_pc (b : Bool) : (s.bumpTidx b).pc = s.pc := rfl
@[simp] theorem State.bumpTidx_busy (b : Bool) : (s.bumpTidx b).busy = s.busy := rfl
@[simp] theorem State.bumpTidx_err (b : Bool) : (s.bumpTidx b).err = s.err := rfl
@[simp] theorem State.bumpTidx_ovf (b : Bool) : (s.bumpTidx b).ovf = s.ovf := rfl
@[simp] theorem State.bumpTidx_hacc (b : Bool) : (s.bumpTidx b).hacc = s.hacc := rfl
@[simp] theorem State.bumpTidx_abortPend (b : Bool) : (s.bumpTidx b).abortPend = s.abortPend := rfl
@[simp] theorem State.bumpTidx_errCode (b : Bool) : (s.bumpTidx b).errCode = s.errCode := rfl
@[simp] theorem State.bumpTidx_errPc (b : Bool) : (s.bumpTidx b).errPc = s.errPc := rfl
@[simp] theorem State.bumpTidx_doneIe (b : Bool) : (s.bumpTidx b).doneIe = s.doneIe := rfl
@[simp] theorem State.bumpTidx_errIe (b : Bool) : (s.bumpTidx b).errIe = s.errIe := rfl
@[simp] theorem State.bumpTidx_isDone (b : Bool) : (s.bumpTidx b).isDone = s.isDone := rfl
@[simp] theorem State.bumpTidx_isErr (b : Bool) : (s.bumpTidx b).isErr = s.isErr := rfl
@[simp] theorem State.bumpTidx_width (b : Bool) : (s.bumpTidx b).width = s.width := rfl
@[simp] theorem State.bumpTidx_height (b : Bool) : (s.bumpTidx b).height = s.height := rfl
@[simp] theorem State.bumpTidx_pixBase (b : Bool) : (s.bumpTidx b).pixBase = s.pixBase := rfl
@[simp] theorem State.bumpTidx_planeBase0 (b : Bool) : (s.bumpTidx b).planeBase0 = s.planeBase0 := rfl
@[simp] theorem State.bumpTidx_planeBase1 (b : Bool) : (s.bumpTidx b).planeBase1 = s.planeBase1 := rfl
@[simp] theorem State.bumpTidx_planeBase2 (b : Bool) : (s.bumpTidx b).planeBase2 = s.planeBase2 := rfl
@[simp] theorem State.bumpTidx_rlePtr (b : Bool) : (s.bumpTidx b).rlePtr = s.rlePtr := rfl
@[simp] theorem State.bumpTidx_rleLimit (b : Bool) : (s.bumpTidx b).rleLimit = s.rleLimit := rfl
@[simp] theorem State.bumpTidx_tcount0 (b : Bool) : (s.bumpTidx b).tcount0 = s.tcount0 := rfl
@[simp] theorem State.bumpTidx_tcount1 (b : Bool) : (s.bumpTidx b).tcount1 = s.tcount1 := rfl
@[simp] theorem State.bumpTidx_tcount2 (b : Bool) : (s.bumpTidx b).tcount2 = s.tcount2 := rfl
@[simp] theorem State.bumpTidx_tidx (b : Bool) : (s.bumpTidx b).tidx = if b then s.tidx + 1 else s.tidx := rfl
@[simp] theorem State.bumpTidx_qtLuma (b : Bool) : (s.bumpTidx b).qtLuma = s.qtLuma := rfl
@[simp] theorem State.bumpTidx_qtChroma (b : Bool) : (s.bumpTidx b).qtChroma = s.qtChroma := rfl
@[simp] theorem State.bumpTidx_cmdmem (b : Bool) : (s.bumpTidx b).cmdmem = s.cmdmem := rfl
@[simp] theorem State.bumpTidx_dmem (b : Bool) : (s.bumpTidx b).dmem = s.dmem := rfl

/-! ### afterPass -/

@[simp] theorem State.afterPass_params (p : PassState) : (s.afterPass p).params = s.params := rfl
@[simp] theorem State.afterPass_host (p : PassState) : (s.afterPass p).host = s.host := rfl
@[simp] theorem State.afterPass_resp (p : PassState) : (s.afterPass p).resp = s.resp := rfl
@[simp] theorem State.afterPass_draws (p : PassState) : (s.afterPass p).draws = s.draws := rfl
@[simp] theorem State.afterPass_resets (p : PassState) : (s.afterPass p).resets = s.resets := rfl
@[simp] theorem State.afterPass_rstN (p : PassState) : (s.afterPass p).rstN = s.rstN := rfl
@[simp] theorem State.afterPass_tiles (p : PassState) : (s.afterPass p).tiles = s.tiles := rfl
@[simp] theorem State.afterPass_pc (p : PassState) : (s.afterPass p).pc = s.pc := rfl
@[simp] theorem State.afterPass_busy (p : PassState) : (s.afterPass p).busy = s.busy := rfl
@[simp] theorem State.afterPass_err (p : PassState) : (s.afterPass p).err = s.err := rfl
@[simp] theorem State.afterPass_ovf (p : PassState) : (s.afterPass p).ovf = p.ovf := rfl
@[simp] theorem State.afterPass_hacc (p : PassState) : (s.afterPass p).hacc = s.hacc := rfl
@[simp] theorem State.afterPass_abortPend (p : PassState) : (s.afterPass p).abortPend = s.abortPend := rfl
@[simp] theorem State.afterPass_errCode (p : PassState) : (s.afterPass p).errCode = s.errCode := rfl
@[simp] theorem State.afterPass_errPc (p : PassState) : (s.afterPass p).errPc = s.errPc := rfl
@[simp] theorem State.afterPass_doneIe (p : PassState) : (s.afterPass p).doneIe = s.doneIe := rfl
@[simp] theorem State.afterPass_errIe (p : PassState) : (s.afterPass p).errIe = s.errIe := rfl
@[simp] theorem State.afterPass_isDone (p : PassState) : (s.afterPass p).isDone = s.isDone := rfl
@[simp] theorem State.afterPass_isErr (p : PassState) : (s.afterPass p).isErr = s.isErr := rfl
@[simp] theorem State.afterPass_width (p : PassState) : (s.afterPass p).width = s.width := rfl
@[simp] theorem State.afterPass_height (p : PassState) : (s.afterPass p).height = s.height := rfl
@[simp] theorem State.afterPass_pixBase (p : PassState) : (s.afterPass p).pixBase = s.pixBase := rfl
@[simp] theorem State.afterPass_planeBase0 (p : PassState) : (s.afterPass p).planeBase0 = s.planeBase0 := rfl
@[simp] theorem State.afterPass_planeBase1 (p : PassState) : (s.afterPass p).planeBase1 = s.planeBase1 := rfl
@[simp] theorem State.afterPass_planeBase2 (p : PassState) : (s.afterPass p).planeBase2 = s.planeBase2 := rfl
@[simp] theorem State.afterPass_rlePtr (p : PassState) : (s.afterPass p).rlePtr = BitVec.ofNat 32 p.ptr := rfl
@[simp] theorem State.afterPass_rleLimit (p : PassState) : (s.afterPass p).rleLimit = s.rleLimit := rfl
@[simp] theorem State.afterPass_tcount0 (p : PassState) : (s.afterPass p).tcount0 = s.tcount0 := rfl
@[simp] theorem State.afterPass_tcount1 (p : PassState) : (s.afterPass p).tcount1 = s.tcount1 := rfl
@[simp] theorem State.afterPass_tcount2 (p : PassState) : (s.afterPass p).tcount2 = s.tcount2 := rfl
@[simp] theorem State.afterPass_tidx (p : PassState) : (s.afterPass p).tidx = s.tidx := rfl
@[simp] theorem State.afterPass_qtLuma (p : PassState) : (s.afterPass p).qtLuma = s.qtLuma := rfl
@[simp] theorem State.afterPass_qtChroma (p : PassState) : (s.afterPass p).qtChroma = s.qtChroma := rfl
@[simp] theorem State.afterPass_cmdmem (p : PassState) : (s.afterPass p).cmdmem = s.cmdmem := rfl
@[simp] theorem State.afterPass_dmem (p : PassState) : (s.afterPass p).dmem = p.mem := rfl

/-! ### havocPass -/

@[simp] theorem State.havocPass_params (r : Region) : (s.havocPass r).params = s.params := rfl
@[simp] theorem State.havocPass_host (r : Region) : (s.havocPass r).host = s.host := rfl
@[simp] theorem State.havocPass_resp (r : Region) : (s.havocPass r).resp = s.resp := rfl
@[simp] theorem State.havocPass_draws (r : Region) : (s.havocPass r).draws = s.draws + 1 := rfl
@[simp] theorem State.havocPass_resets (r : Region) : (s.havocPass r).resets = s.resets := rfl
@[simp] theorem State.havocPass_rstN (r : Region) : (s.havocPass r).rstN = s.rstN := rfl
@[simp] theorem State.havocPass_tiles (r : Region) : (s.havocPass r).tiles = s.tiles := rfl
@[simp] theorem State.havocPass_pc (r : Region) : (s.havocPass r).pc = s.pc := rfl
@[simp] theorem State.havocPass_busy (r : Region) : (s.havocPass r).busy = s.busy := rfl
@[simp] theorem State.havocPass_err (r : Region) : (s.havocPass r).err = s.err := rfl
@[simp] theorem State.havocPass_ovf (r : Region) : (s.havocPass r).ovf = Config.freeBit s.draws := rfl
@[simp] theorem State.havocPass_hacc (r : Region) : (s.havocPass r).hacc = s.hacc := rfl
@[simp] theorem State.havocPass_abortPend (r : Region) : (s.havocPass r).abortPend = s.abortPend := rfl
@[simp] theorem State.havocPass_errCode (r : Region) : (s.havocPass r).errCode = s.errCode := rfl
@[simp] theorem State.havocPass_errPc (r : Region) : (s.havocPass r).errPc = s.errPc := rfl
@[simp] theorem State.havocPass_doneIe (r : Region) : (s.havocPass r).doneIe = s.doneIe := rfl
@[simp] theorem State.havocPass_errIe (r : Region) : (s.havocPass r).errIe = s.errIe := rfl
@[simp] theorem State.havocPass_isDone (r : Region) : (s.havocPass r).isDone = s.isDone := rfl
@[simp] theorem State.havocPass_isErr (r : Region) : (s.havocPass r).isErr = s.isErr := rfl
@[simp] theorem State.havocPass_width (r : Region) : (s.havocPass r).width = s.width := rfl
@[simp] theorem State.havocPass_height (r : Region) : (s.havocPass r).height = s.height := rfl
@[simp] theorem State.havocPass_pixBase (r : Region) : (s.havocPass r).pixBase = s.pixBase := rfl
@[simp] theorem State.havocPass_planeBase0 (r : Region) : (s.havocPass r).planeBase0 = s.planeBase0 := rfl
@[simp] theorem State.havocPass_planeBase1 (r : Region) : (s.havocPass r).planeBase1 = s.planeBase1 := rfl
@[simp] theorem State.havocPass_planeBase2 (r : Region) : (s.havocPass r).planeBase2 = s.planeBase2 := rfl
@[simp] theorem State.havocPass_rlePtr (r : Region) : (s.havocPass r).rlePtr = Config.freeWord s.draws := rfl
@[simp] theorem State.havocPass_rleLimit (r : Region) : (s.havocPass r).rleLimit = s.rleLimit := rfl
@[simp] theorem State.havocPass_tcount0 (r : Region) : (s.havocPass r).tcount0 = s.tcount0 := rfl
@[simp] theorem State.havocPass_tcount1 (r : Region) : (s.havocPass r).tcount1 = s.tcount1 := rfl
@[simp] theorem State.havocPass_tcount2 (r : Region) : (s.havocPass r).tcount2 = s.tcount2 := rfl
@[simp] theorem State.havocPass_tidx (r : Region) : (s.havocPass r).tidx = s.tidx := rfl
@[simp] theorem State.havocPass_qtLuma (r : Region) : (s.havocPass r).qtLuma = s.qtLuma := rfl
@[simp] theorem State.havocPass_qtChroma (r : Region) : (s.havocPass r).qtChroma = s.qtChroma := rfl
@[simp] theorem State.havocPass_cmdmem (r : Region) : (s.havocPass r).cmdmem = s.cmdmem := rfl
@[simp] theorem State.havocPass_dmem (r : Region) : (s.havocPass r).dmem = havocBytes s.draws s.dmem r.lo (r.hi - r.lo) := rfl

/-! ### start -/

@[simp] theorem State.start_params : s.start.params = s.params := rfl
@[simp] theorem State.start_host : s.start.host = s.host := rfl
@[simp] theorem State.start_resp : s.start.resp = s.resp := rfl
@[simp] theorem State.start_draws : s.start.draws = s.draws := rfl
@[simp] theorem State.start_resets : s.start.resets = s.resets := rfl
@[simp] theorem State.start_rstN : s.start.rstN = s.rstN := rfl
@[simp] theorem State.start_tiles : s.start.tiles = s.tiles := rfl
@[simp] theorem State.start_pc : s.start.pc = s.pc := rfl
@[simp] theorem State.start_busy : s.start.busy = true := rfl
@[simp] theorem State.start_err : s.start.err = false := rfl
@[simp] theorem State.start_ovf : s.start.ovf = s.ovf := rfl
@[simp] theorem State.start_hacc : s.start.hacc = s.hacc := rfl
@[simp] theorem State.start_abortPend : s.start.abortPend = false := rfl
@[simp] theorem State.start_errCode : s.start.errCode = .eNone := rfl
@[simp] theorem State.start_errPc : s.start.errPc = 0 := rfl
@[simp] theorem State.start_doneIe : s.start.doneIe = s.doneIe := rfl
@[simp] theorem State.start_errIe : s.start.errIe = s.errIe := rfl
@[simp] theorem State.start_isDone : s.start.isDone = s.isDone := rfl
@[simp] theorem State.start_isErr : s.start.isErr = s.isErr := rfl
@[simp] theorem State.start_width : s.start.width = s.width := rfl
@[simp] theorem State.start_height : s.start.height = s.height := rfl
@[simp] theorem State.start_pixBase : s.start.pixBase = s.pixBase := rfl
@[simp] theorem State.start_planeBase0 : s.start.planeBase0 = s.planeBase0 := rfl
@[simp] theorem State.start_planeBase1 : s.start.planeBase1 = s.planeBase1 := rfl
@[simp] theorem State.start_planeBase2 : s.start.planeBase2 = s.planeBase2 := rfl
@[simp] theorem State.start_rlePtr : s.start.rlePtr = s.rlePtr := rfl
@[simp] theorem State.start_rleLimit : s.start.rleLimit = s.rleLimit := rfl
@[simp] theorem State.start_tcount0 : s.start.tcount0 = s.tcount0 := rfl
@[simp] theorem State.start_tcount1 : s.start.tcount1 = s.tcount1 := rfl
@[simp] theorem State.start_tcount2 : s.start.tcount2 = s.tcount2 := rfl
@[simp] theorem State.start_tidx : s.start.tidx = s.tidx := rfl
@[simp] theorem State.start_qtLuma : s.start.qtLuma = s.qtLuma := rfl
@[simp] theorem State.start_qtChroma : s.start.qtChroma = s.qtChroma := rfl
@[simp] theorem State.start_cmdmem : s.start.cmdmem = s.cmdmem := rfl
@[simp] theorem State.start_dmem : s.start.dmem = s.dmem := rfl

/-! ### violation -/

@[simp] theorem State.violation_params : s.violation.params = s.params := rfl
@[simp] theorem State.violation_host : s.violation.host = s.host := rfl
@[simp] theorem State.violation_resp : s.violation.resp = s.resp := rfl
@[simp] theorem State.violation_draws : s.violation.draws = s.draws := rfl
@[simp] theorem State.violation_resets : s.violation.resets = s.resets := rfl
@[simp] theorem State.violation_rstN : s.violation.rstN = s.rstN := rfl
@[simp] theorem State.violation_tiles : s.violation.tiles = s.tiles := rfl
@[simp] theorem State.violation_pc : s.violation.pc = s.pc := rfl
@[simp] theorem State.violation_busy : s.violation.busy = s.busy := rfl
@[simp] theorem State.violation_err : s.violation.err = s.err := rfl
@[simp] theorem State.violation_ovf : s.violation.ovf = s.ovf := rfl
@[simp] theorem State.violation_hacc : s.violation.hacc = true := rfl
@[simp] theorem State.violation_abortPend : s.violation.abortPend = s.abortPend := rfl
@[simp] theorem State.violation_errCode : s.violation.errCode = s.errCode := rfl
@[simp] theorem State.violation_errPc : s.violation.errPc = s.errPc := rfl
@[simp] theorem State.violation_doneIe : s.violation.doneIe = s.doneIe := rfl
@[simp] theorem State.violation_errIe : s.violation.errIe = s.errIe := rfl
@[simp] theorem State.violation_isDone : s.violation.isDone = s.isDone := rfl
@[simp] theorem State.violation_isErr : s.violation.isErr = s.isErr := rfl
@[simp] theorem State.violation_width : s.violation.width = s.width := rfl
@[simp] theorem State.violation_height : s.violation.height = s.height := rfl
@[simp] theorem State.violation_pixBase : s.violation.pixBase = s.pixBase := rfl
@[simp] theorem State.violation_planeBase0 : s.violation.planeBase0 = s.planeBase0 := rfl
@[simp] theorem State.violation_planeBase1 : s.violation.planeBase1 = s.planeBase1 := rfl
@[simp] theorem State.violation_planeBase2 : s.violation.planeBase2 = s.planeBase2 := rfl
@[simp] theorem State.violation_rlePtr : s.violation.rlePtr = s.rlePtr := rfl
@[simp] theorem State.violation_rleLimit : s.violation.rleLimit = s.rleLimit := rfl
@[simp] theorem State.violation_tcount0 : s.violation.tcount0 = s.tcount0 := rfl
@[simp] theorem State.violation_tcount1 : s.violation.tcount1 = s.tcount1 := rfl
@[simp] theorem State.violation_tcount2 : s.violation.tcount2 = s.tcount2 := rfl
@[simp] theorem State.violation_tidx : s.violation.tidx = s.tidx := rfl
@[simp] theorem State.violation_qtLuma : s.violation.qtLuma = s.qtLuma := rfl
@[simp] theorem State.violation_qtChroma : s.violation.qtChroma = s.qtChroma := rfl
@[simp] theorem State.violation_cmdmem : s.violation.cmdmem = s.cmdmem := rfl
@[simp] theorem State.violation_dmem : s.violation.dmem = s.dmem := rfl

/-! ### respond -/

@[simp] theorem State.respond_params (r : HostResponse) : (s.respond r).params = s.params := rfl
@[simp] theorem State.respond_host (r : HostResponse) : (s.respond r).host = s.host := rfl
@[simp] theorem State.respond_resp (r : HostResponse) : (s.respond r).resp = r := rfl
@[simp] theorem State.respond_draws (r : HostResponse) : (s.respond r).draws = s.draws := rfl
@[simp] theorem State.respond_resets (r : HostResponse) : (s.respond r).resets = s.resets := rfl
@[simp] theorem State.respond_rstN (r : HostResponse) : (s.respond r).rstN = s.rstN := rfl
@[simp] theorem State.respond_tiles (r : HostResponse) : (s.respond r).tiles = s.tiles := rfl
@[simp] theorem State.respond_pc (r : HostResponse) : (s.respond r).pc = s.pc := rfl
@[simp] theorem State.respond_busy (r : HostResponse) : (s.respond r).busy = s.busy := rfl
@[simp] theorem State.respond_err (r : HostResponse) : (s.respond r).err = s.err := rfl
@[simp] theorem State.respond_ovf (r : HostResponse) : (s.respond r).ovf = s.ovf := rfl
@[simp] theorem State.respond_hacc (r : HostResponse) : (s.respond r).hacc = s.hacc := rfl
@[simp] theorem State.respond_abortPend (r : HostResponse) : (s.respond r).abortPend = s.abortPend := rfl
@[simp] theorem State.respond_errCode (r : HostResponse) : (s.respond r).errCode = s.errCode := rfl
@[simp] theorem State.respond_errPc (r : HostResponse) : (s.respond r).errPc = s.errPc := rfl
@[simp] theorem State.respond_doneIe (r : HostResponse) : (s.respond r).doneIe = s.doneIe := rfl
@[simp] theorem State.respond_errIe (r : HostResponse) : (s.respond r).errIe = s.errIe := rfl
@[simp] theorem State.respond_isDone (r : HostResponse) : (s.respond r).isDone = s.isDone := rfl
@[simp] theorem State.respond_isErr (r : HostResponse) : (s.respond r).isErr = s.isErr := rfl
@[simp] theorem State.respond_width (r : HostResponse) : (s.respond r).width = s.width := rfl
@[simp] theorem State.respond_height (r : HostResponse) : (s.respond r).height = s.height := rfl
@[simp] theorem State.respond_pixBase (r : HostResponse) : (s.respond r).pixBase = s.pixBase := rfl
@[simp] theorem State.respond_planeBase0 (r : HostResponse) : (s.respond r).planeBase0 = s.planeBase0 := rfl
@[simp] theorem State.respond_planeBase1 (r : HostResponse) : (s.respond r).planeBase1 = s.planeBase1 := rfl
@[simp] theorem State.respond_planeBase2 (r : HostResponse) : (s.respond r).planeBase2 = s.planeBase2 := rfl
@[simp] theorem State.respond_rlePtr (r : HostResponse) : (s.respond r).rlePtr = s.rlePtr := rfl
@[simp] theorem State.respond_rleLimit (r : HostResponse) : (s.respond r).rleLimit = s.rleLimit := rfl
@[simp] theorem State.respond_tcount0 (r : HostResponse) : (s.respond r).tcount0 = s.tcount0 := rfl
@[simp] theorem State.respond_tcount1 (r : HostResponse) : (s.respond r).tcount1 = s.tcount1 := rfl
@[simp] theorem State.respond_tcount2 (r : HostResponse) : (s.respond r).tcount2 = s.tcount2 := rfl
@[simp] theorem State.respond_tidx (r : HostResponse) : (s.respond r).tidx = s.tidx := rfl
@[simp] theorem State.respond_qtLuma (r : HostResponse) : (s.respond r).qtLuma = s.qtLuma := rfl
@[simp] theorem State.respond_qtChroma (r : HostResponse) : (s.respond r).qtChroma = s.qtChroma := rfl
@[simp] theorem State.respond_cmdmem (r : HostResponse) : (s.respond r).cmdmem = s.cmdmem := rfl
@[simp] theorem State.respond_dmem (r : HostResponse) : (s.respond r).dmem = s.dmem := rfl

/-! ### respondFree -/

@[simp] theorem State.respondFree_params : s.respondFree.params = s.params := rfl
@[simp] theorem State.respondFree_host : s.respondFree.host = s.host := rfl
@[simp] theorem State.respondFree_resp : s.respondFree.resp = .readOk (Config.freeWord s.draws) := rfl
@[simp] theorem State.respondFree_draws : s.respondFree.draws = s.draws + 1 := rfl
@[simp] theorem State.respondFree_resets : s.respondFree.resets = s.resets := rfl
@[simp] theorem State.respondFree_rstN : s.respondFree.rstN = s.rstN := rfl
@[simp] theorem State.respondFree_tiles : s.respondFree.tiles = s.tiles := rfl
@[simp] theorem State.respondFree_pc : s.respondFree.pc = s.pc := rfl
@[simp] theorem State.respondFree_busy : s.respondFree.busy = s.busy := rfl
@[simp] theorem State.respondFree_err : s.respondFree.err = s.err := rfl
@[simp] theorem State.respondFree_ovf : s.respondFree.ovf = s.ovf := rfl
@[simp] theorem State.respondFree_hacc : s.respondFree.hacc = s.hacc := rfl
@[simp] theorem State.respondFree_abortPend : s.respondFree.abortPend = s.abortPend := rfl
@[simp] theorem State.respondFree_errCode : s.respondFree.errCode = s.errCode := rfl
@[simp] theorem State.respondFree_errPc : s.respondFree.errPc = s.errPc := rfl
@[simp] theorem State.respondFree_doneIe : s.respondFree.doneIe = s.doneIe := rfl
@[simp] theorem State.respondFree_errIe : s.respondFree.errIe = s.errIe := rfl
@[simp] theorem State.respondFree_isDone : s.respondFree.isDone = s.isDone := rfl
@[simp] theorem State.respondFree_isErr : s.respondFree.isErr = s.isErr := rfl
@[simp] theorem State.respondFree_width : s.respondFree.width = s.width := rfl
@[simp] theorem State.respondFree_height : s.respondFree.height = s.height := rfl
@[simp] theorem State.respondFree_pixBase : s.respondFree.pixBase = s.pixBase := rfl
@[simp] theorem State.respondFree_planeBase0 : s.respondFree.planeBase0 = s.planeBase0 := rfl
@[simp] theorem State.respondFree_planeBase1 : s.respondFree.planeBase1 = s.planeBase1 := rfl
@[simp] theorem State.respondFree_planeBase2 : s.respondFree.planeBase2 = s.planeBase2 := rfl
@[simp] theorem State.respondFree_rlePtr : s.respondFree.rlePtr = s.rlePtr := rfl
@[simp] theorem State.respondFree_rleLimit : s.respondFree.rleLimit = s.rleLimit := rfl
@[simp] theorem State.respondFree_tcount0 : s.respondFree.tcount0 = s.tcount0 := rfl
@[simp] theorem State.respondFree_tcount1 : s.respondFree.tcount1 = s.tcount1 := rfl
@[simp] theorem State.respondFree_tcount2 : s.respondFree.tcount2 = s.tcount2 := rfl
@[simp] theorem State.respondFree_tidx : s.respondFree.tidx = s.tidx := rfl
@[simp] theorem State.respondFree_qtLuma : s.respondFree.qtLuma = s.qtLuma := rfl
@[simp] theorem State.respondFree_qtChroma : s.respondFree.qtChroma = s.qtChroma := rfl
@[simp] theorem State.respondFree_cmdmem : s.respondFree.cmdmem = s.cmdmem := rfl
@[simp] theorem State.respondFree_dmem : s.respondFree.dmem = s.dmem := rfl

/-! ### resetHigh -/

@[simp] theorem State.resetHigh_params : s.resetHigh.params = s.params := rfl
@[simp] theorem State.resetHigh_host : s.resetHigh.host = s.host := rfl
@[simp] theorem State.resetHigh_resp : s.resetHigh.resp = s.resp := rfl
@[simp] theorem State.resetHigh_draws : s.resetHigh.draws = s.draws := rfl
@[simp] theorem State.resetHigh_resets : s.resetHigh.resets = s.resets := rfl
@[simp] theorem State.resetHigh_rstN : s.resetHigh.rstN = true := rfl
@[simp] theorem State.resetHigh_tiles : s.resetHigh.tiles = s.tiles := rfl
@[simp] theorem State.resetHigh_pc : s.resetHigh.pc = s.pc := rfl
@[simp] theorem State.resetHigh_busy : s.resetHigh.busy = s.busy := rfl
@[simp] theorem State.resetHigh_err : s.resetHigh.err = s.err := rfl
@[simp] theorem State.resetHigh_ovf : s.resetHigh.ovf = s.ovf := rfl
@[simp] theorem State.resetHigh_hacc : s.resetHigh.hacc = s.hacc := rfl
@[simp] theorem State.resetHigh_abortPend : s.resetHigh.abortPend = s.abortPend := rfl
@[simp] theorem State.resetHigh_errCode : s.resetHigh.errCode = s.errCode := rfl
@[simp] theorem State.resetHigh_errPc : s.resetHigh.errPc = s.errPc := rfl
@[simp] theorem State.resetHigh_doneIe : s.resetHigh.doneIe = s.doneIe := rfl
@[simp] theorem State.resetHigh_errIe : s.resetHigh.errIe = s.errIe := rfl
@[simp] theorem State.resetHigh_isDone : s.resetHigh.isDone = s.isDone := rfl
@[simp] theorem State.resetHigh_isErr : s.resetHigh.isErr = s.isErr := rfl
@[simp] theorem State.resetHigh_width : s.resetHigh.width = s.width := rfl
@[simp] theorem State.resetHigh_height : s.resetHigh.height = s.height := rfl
@[simp] theorem State.resetHigh_pixBase : s.resetHigh.pixBase = s.pixBase := rfl
@[simp] theorem State.resetHigh_planeBase0 : s.resetHigh.planeBase0 = s.planeBase0 := rfl
@[simp] theorem State.resetHigh_planeBase1 : s.resetHigh.planeBase1 = s.planeBase1 := rfl
@[simp] theorem State.resetHigh_planeBase2 : s.resetHigh.planeBase2 = s.planeBase2 := rfl
@[simp] theorem State.resetHigh_rlePtr : s.resetHigh.rlePtr = s.rlePtr := rfl
@[simp] theorem State.resetHigh_rleLimit : s.resetHigh.rleLimit = s.rleLimit := rfl
@[simp] theorem State.resetHigh_tcount0 : s.resetHigh.tcount0 = s.tcount0 := rfl
@[simp] theorem State.resetHigh_tcount1 : s.resetHigh.tcount1 = s.tcount1 := rfl
@[simp] theorem State.resetHigh_tcount2 : s.resetHigh.tcount2 = s.tcount2 := rfl
@[simp] theorem State.resetHigh_tidx : s.resetHigh.tidx = s.tidx := rfl
@[simp] theorem State.resetHigh_qtLuma : s.resetHigh.qtLuma = s.qtLuma := rfl
@[simp] theorem State.resetHigh_qtChroma : s.resetHigh.qtChroma = s.qtChroma := rfl
@[simp] theorem State.resetHigh_cmdmem : s.resetHigh.cmdmem = s.cmdmem := rfl
@[simp] theorem State.resetHigh_dmem : s.resetHigh.dmem = s.dmem := rfl

/-! ### setTcount -/

@[simp] theorem State.setTcount_params (c : Channel) (n : Word) : (s.setTcount c n).params = s.params := by cases c <;> rfl
@[simp] theorem State.setTcount_host (c : Channel) (n : Word) : (s.setTcount c n).host = s.host := by cases c <;> rfl
@[simp] theorem State.setTcount_resp (c : Channel) (n : Word) : (s.setTcount c n).resp = s.resp := by cases c <;> rfl
@[simp] theorem State.setTcount_draws (c : Channel) (n : Word) : (s.setTcount c n).draws = s.draws := by cases c <;> rfl
@[simp] theorem State.setTcount_resets (c : Channel) (n : Word) : (s.setTcount c n).resets = s.resets := by cases c <;> rfl
@[simp] theorem State.setTcount_rstN (c : Channel) (n : Word) : (s.setTcount c n).rstN = s.rstN := by cases c <;> rfl
@[simp] theorem State.setTcount_tiles (c : Channel) (n : Word) : (s.setTcount c n).tiles = s.tiles := by cases c <;> rfl
@[simp] theorem State.setTcount_pc (c : Channel) (n : Word) : (s.setTcount c n).pc = s.pc := by cases c <;> rfl
@[simp] theorem State.setTcount_busy (c : Channel) (n : Word) : (s.setTcount c n).busy = s.busy := by cases c <;> rfl
@[simp] theorem State.setTcount_err (c : Channel) (n : Word) : (s.setTcount c n).err = s.err := by cases c <;> rfl
@[simp] theorem State.setTcount_ovf (c : Channel) (n : Word) : (s.setTcount c n).ovf = s.ovf := by cases c <;> rfl
@[simp] theorem State.setTcount_hacc (c : Channel) (n : Word) : (s.setTcount c n).hacc = s.hacc := by cases c <;> rfl
@[simp] theorem State.setTcount_abortPend (c : Channel) (n : Word) : (s.setTcount c n).abortPend = s.abortPend := by cases c <;> rfl
@[simp] theorem State.setTcount_errCode (c : Channel) (n : Word) : (s.setTcount c n).errCode = s.errCode := by cases c <;> rfl
@[simp] theorem State.setTcount_errPc (c : Channel) (n : Word) : (s.setTcount c n).errPc = s.errPc := by cases c <;> rfl
@[simp] theorem State.setTcount_doneIe (c : Channel) (n : Word) : (s.setTcount c n).doneIe = s.doneIe := by cases c <;> rfl
@[simp] theorem State.setTcount_errIe (c : Channel) (n : Word) : (s.setTcount c n).errIe = s.errIe := by cases c <;> rfl
@[simp] theorem State.setTcount_isDone (c : Channel) (n : Word) : (s.setTcount c n).isDone = s.isDone := by cases c <;> rfl
@[simp] theorem State.setTcount_isErr (c : Channel) (n : Word) : (s.setTcount c n).isErr = s.isErr := by cases c <;> rfl
@[simp] theorem State.setTcount_width (c : Channel) (n : Word) : (s.setTcount c n).width = s.width := by cases c <;> rfl
@[simp] theorem State.setTcount_height (c : Channel) (n : Word) : (s.setTcount c n).height = s.height := by cases c <;> rfl
@[simp] theorem State.setTcount_pixBase (c : Channel) (n : Word) : (s.setTcount c n).pixBase = s.pixBase := by cases c <;> rfl
@[simp] theorem State.setTcount_planeBase0 (c : Channel) (n : Word) : (s.setTcount c n).planeBase0 = s.planeBase0 := by cases c <;> rfl
@[simp] theorem State.setTcount_planeBase1 (c : Channel) (n : Word) : (s.setTcount c n).planeBase1 = s.planeBase1 := by cases c <;> rfl
@[simp] theorem State.setTcount_planeBase2 (c : Channel) (n : Word) : (s.setTcount c n).planeBase2 = s.planeBase2 := by cases c <;> rfl
@[simp] theorem State.setTcount_rlePtr (c : Channel) (n : Word) : (s.setTcount c n).rlePtr = s.rlePtr := by cases c <;> rfl
@[simp] theorem State.setTcount_rleLimit (c : Channel) (n : Word) : (s.setTcount c n).rleLimit = s.rleLimit := by cases c <;> rfl
@[simp] theorem State.setTcount_tidx (c : Channel) (n : Word) : (s.setTcount c n).tidx = s.tidx := by cases c <;> rfl
@[simp] theorem State.setTcount_qtLuma (c : Channel) (n : Word) : (s.setTcount c n).qtLuma = s.qtLuma := by cases c <;> rfl
@[simp] theorem State.setTcount_qtChroma (c : Channel) (n : Word) : (s.setTcount c n).qtChroma = s.qtChroma := by cases c <;> rfl
@[simp] theorem State.setTcount_cmdmem (c : Channel) (n : Word) : (s.setTcount c n).cmdmem = s.cmdmem := by cases c <;> rfl
@[simp] theorem State.setTcount_dmem (c : Channel) (n : Word) : (s.setTcount c n).dmem = s.dmem := by cases c <;> rfl

/-! ### channel-indexed views -/

@[simp] theorem State.setTcount_tcount (c d : Channel) (n : Word) :
    (s.setTcount c n).tcount d = if d = c then n else s.tcount d := by cases c <;> cases d <;> rfl

@[simp] theorem State.setTcount_planeBase (c d : Channel) (n : Word) : (s.setTcount c n).planeBase d = s.planeBase d := by
  cases c <;> cases d <;> rfl

@[simp] theorem State.setTcount_qt (c : Channel) (n : Word) (t : TableSel) : (s.setTcount c n).qt t = s.qt t := by
  cases c <;> cases t <;> rfl

@[simp] theorem State.advance_planeBase (c : Channel) : s.advance.planeBase c = s.planeBase c := by cases c <;> rfl
@[simp] theorem State.advance_tcount (c : Channel) : s.advance.tcount c = s.tcount c := by cases c <;> rfl
@[simp] theorem State.advance_qt (sel : TableSel) : s.advance.qt sel = s.qt sel := by cases sel <;> rfl
@[simp] theorem State.stopError_planeBase (e : ErrCode) (c : Channel) : (s.stopError e).planeBase c = s.planeBase c := by cases c <;> rfl
@[simp] theorem State.stopError_tcount (e : ErrCode) (c : Channel) : (s.stopError e).tcount c = s.tcount c := by cases c <;> rfl
@[simp] theorem State.stopError_qt (e : ErrCode) (sel : TableSel) : (s.stopError e).qt sel = s.qt sel := by cases sel <;> rfl
@[simp] theorem State.stopDone_planeBase (c : Channel) : s.stopDone.planeBase c = s.planeBase c := by cases c <;> rfl
@[simp] theorem State.stopDone_tcount (c : Channel) : s.stopDone.tcount c = s.tcount c := by cases c <;> rfl
@[simp] theorem State.stopDone_qt (sel : TableSel) : s.stopDone.qt sel = s.qt sel := by cases sel <;> rfl
@[simp] theorem State.orOvf_planeBase (b : Bool) (c : Channel) : (s.orOvf b).planeBase c = s.planeBase c := by cases c <;> rfl
@[simp] theorem State.orOvf_tcount (b : Bool) (c : Channel) : (s.orOvf b).tcount c = s.tcount c := by cases c <;> rfl
@[simp] theorem State.orOvf_qt (b : Bool) (sel : TableSel) : (s.orOvf b).qt sel = s.qt sel := by cases sel <;> rfl
@[simp] theorem State.writeTile_planeBase (i : TReg) (t : Tile) (c : Channel) : (s.writeTile i t).planeBase c = s.planeBase c := by cases c <;> rfl
@[simp] theorem State.writeTile_tcount (i : TReg) (t : Tile) (c : Channel) : (s.writeTile i t).tcount c = s.tcount c := by cases c <;> rfl
@[simp] theorem State.writeTile_qt (i : TReg) (t : Tile) (sel : TableSel) : (s.writeTile i t).qt sel = s.qt sel := by cases sel <;> rfl
@[simp] theorem State.writeElem_planeBase (i : TReg) (e : Fin 64) (v : Word) (c : Channel) : (s.writeElem i e v).planeBase c = s.planeBase c := by cases c <;> rfl
@[simp] theorem State.writeElem_tcount (i : TReg) (e : Fin 64) (v : Word) (c : Channel) : (s.writeElem i e v).tcount c = s.tcount c := by cases c <;> rfl
@[simp] theorem State.writeElem_qt (i : TReg) (e : Fin 64) (v : Word) (sel : TableSel) : (s.writeElem i e v).qt sel = s.qt sel := by cases sel <;> rfl
@[simp] theorem State.setDmem_planeBase (m : Memory) (c : Channel) : (s.setDmem m).planeBase c = s.planeBase c := by cases c <;> rfl
@[simp] theorem State.setDmem_tcount (m : Memory) (c : Channel) : (s.setDmem m).tcount c = s.tcount c := by cases c <;> rfl
@[simp] theorem State.setDmem_qt (m : Memory) (sel : TableSel) : (s.setDmem m).qt sel = s.qt sel := by cases sel <;> rfl
@[simp] theorem State.setRlePtr_planeBase (p : Nat) (c : Channel) : (s.setRlePtr p).planeBase c = s.planeBase c := by cases c <;> rfl
@[simp] theorem State.setRlePtr_tcount (p : Nat) (c : Channel) : (s.setRlePtr p).tcount c = s.tcount c := by cases c <;> rfl
@[simp] theorem State.setRlePtr_qt (p : Nat) (sel : TableSel) : (s.setRlePtr p).qt sel = s.qt sel := by cases sel <;> rfl
@[simp] theorem State.bumpTidx_planeBase (b : Bool) (c : Channel) : (s.bumpTidx b).planeBase c = s.planeBase c := by cases c <;> rfl
@[simp] theorem State.bumpTidx_tcount (b : Bool) (c : Channel) : (s.bumpTidx b).tcount c = s.tcount c := by cases c <;> rfl
@[simp] theorem State.bumpTidx_qt (b : Bool) (sel : TableSel) : (s.bumpTidx b).qt sel = s.qt sel := by cases sel <;> rfl
@[simp] theorem State.afterPass_planeBase (p : PassState) (c : Channel) : (s.afterPass p).planeBase c = s.planeBase c := by cases c <;> rfl
@[simp] theorem State.afterPass_tcount (p : PassState) (c : Channel) : (s.afterPass p).tcount c = s.tcount c := by cases c <;> rfl
@[simp] theorem State.afterPass_qt (p : PassState) (sel : TableSel) : (s.afterPass p).qt sel = s.qt sel := by cases sel <;> rfl
@[simp] theorem State.havocPass_planeBase (r : Region) (c : Channel) : (s.havocPass r).planeBase c = s.planeBase c := by cases c <;> rfl
@[simp] theorem State.havocPass_tcount (r : Region) (c : Channel) : (s.havocPass r).tcount c = s.tcount c := by cases c <;> rfl
@[simp] theorem State.havocPass_qt (r : Region) (sel : TableSel) : (s.havocPass r).qt sel = s.qt sel := by cases sel <;> rfl
@[simp] theorem State.start_planeBase (c : Channel) : s.start.planeBase c = s.planeBase c := by cases c <;> rfl
@[simp] theorem State.start_tcount (c : Channel) : s.start.tcount c = s.tcount c := by cases c <;> rfl
@[simp] theorem State.start_qt (sel : TableSel) : s.start.qt sel = s.qt sel := by cases sel <;> rfl
@[simp] theorem State.violation_planeBase (c : Channel) : s.violation.planeBase c = s.planeBase c := by cases c <;> rfl
@[simp] theorem State.violation_tcount (c : Channel) : s.violation.tcount c = s.tcount c := by cases c <;> rfl
@[simp] theorem State.violation_qt (sel : TableSel) : s.violation.qt sel = s.qt sel := by cases sel <;> rfl
@[simp] theorem State.respond_planeBase (r : HostResponse) (c : Channel) : (s.respond r).planeBase c = s.planeBase c := by cases c <;> rfl
@[simp] theorem State.respond_tcount (r : HostResponse) (c : Channel) : (s.respond r).tcount c = s.tcount c := by cases c <;> rfl
@[simp] theorem State.respond_qt (r : HostResponse) (sel : TableSel) : (s.respond r).qt sel = s.qt sel := by cases sel <;> rfl
@[simp] theorem State.respondFree_planeBase (c : Channel) : s.respondFree.planeBase c = s.planeBase c := by cases c <;> rfl
@[simp] theorem State.respondFree_tcount (c : Channel) : s.respondFree.tcount c = s.tcount c := by cases c <;> rfl
@[simp] theorem State.respondFree_qt (sel : TableSel) : s.respondFree.qt sel = s.qt sel := by cases sel <;> rfl
@[simp] theorem State.resetHigh_planeBase (c : Channel) : s.resetHigh.planeBase c = s.planeBase c := by cases c <;> rfl
@[simp] theorem State.resetHigh_tcount (c : Channel) : s.resetHigh.tcount c = s.tcount c := by cases c <;> rfl
@[simp] theorem State.resetHigh_qt (sel : TableSel) : s.resetHigh.qt sel = s.qt sel := by cases sel <;> rfl

end Sys2Proof.Machine
end

