-- ==== Sys2Proof/Laws/Operands.lean ====
section
/-! SUPPORT. Reads after writes of tile registers, and where a plane's elements stand. -/

namespace Sys2Proof.Machine

/-! ### Tile registers -/

/-- Writing a tile register is read back; the others are left alone. -/
theorem State.tileElem_writeTile (s : State) (i j : TReg) (t : Tile) (e : Fin 64) :
    (s.writeTile i t).tileElem j e = if j = i then t[e] else s.tileElem j e := by
  by_cases h : j = i
  · subst h
    simp [State.tileElem]
  · have hv : i.val ≠ j.val := fun hh => h (Fin.ext hh.symm)
    simp [State.tileElem, h, Vector.getElem_set_ne, hv]

/-- The same for whole tiles. -/
theorem State.readTile_writeTile (s : State) (i j : TReg) (t : Tile) :
    (s.writeTile i t).readTile j = if j = i then t else s.readTile j := by
  split
  · rename_i h
    apply Vector.ext; intro k hk
    have := State.tileElem_writeTile s i j t ⟨k, hk⟩
    rw [if_pos h] at this
    simpa [State.readTile] using this
  · rename_i h
    apply Vector.ext; intro k hk
    have := State.tileElem_writeTile s i j t ⟨k, hk⟩
    rw [if_neg h] at this
    simpa [State.readTile] using this

/-- Reading a tile looks at the tile registers and the reset counter only. -/
theorem State.readTile_congr {s t : State} (ht : t.tiles = s.tiles) (hr : t.resets = s.resets) (i : TReg) :
    t.readTile i = s.readTile i := by
  simp only [State.readTile, State.tileElem, ht, hr]

@[simp] theorem State.readTile_getElem (s : State) (i : TReg) (e : Fin 64) : (s.readTile i)[e] = s.tileElem i e := by
  simp [State.readTile]

/-! ### Element numbers -/

@[simp] theorem rowOf_elemAt (r c : Fin 8) : rowOf (elemAt r c) = r := by
  apply Fin.ext; simp only [rowOf, elemAt]; omega

@[simp] theorem colOf_elemAt (r c : Fin 8) : colOf (elemAt r c) = c := by
  apply Fin.ext; simp only [colOf, elemAt]; omega

@[simp] theorem elemAt_rowOf_colOf (e : Fin 64) : elemAt (rowOf e) (colOf e) = e := by
  apply Fin.ext; simp only [rowOf, colOf, elemAt]; omega

/-! ### Plane elements -/

/-- A stored element lies wholly in the plane's region. -/
theorem Plane.elemAddr_region {p : Plane} {i : Nat} {e : Fin 64} {a : Nat} (h : p.elemAddr i e = some a) :
    p.region.lo ≤ a ∧ a + 4 ≤ p.region.hi := by
  unfold Plane.elemAddr at h
  split at h
  · rename_i hin
    cases h
    have hm : p.elemRow i e * p.w + p.elemCol i e + 1 ≤ p.w * p.h := by
      have h1 : (p.elemRow i e + 1) * p.w ≤ p.h * p.w := Nat.mul_le_mul_right _ hin.1
      have h2 : (p.elemRow i e + 1) * p.w = p.elemRow i e * p.w + p.w := by ring
      have h3 : p.h * p.w = p.w * p.h := Nat.mul_comm _ _
      omega
    simp only [Plane.region, Plane.sampleAddr]
    omega
  · cases h

/-- Equal places of in-range samples are equal samples. -/
theorem Plane.sampleAddr_inj {p : Plane} {y x y' x' : Nat} (hx : x < p.w) (hx' : x' < p.w)
    (h : p.sampleAddr y x = p.sampleAddr y' x') : y = y' ∧ x = x' := by
  have h1 : y * p.w + x = y' * p.w + x' := by simp only [Plane.sampleAddr] at h; omega
  have h2 : y = y' := by
    have a1 : (x + p.w * y) / p.w = y := by
      rw [Nat.add_mul_div_left _ _ (by omega), Nat.div_eq_of_lt hx, Nat.zero_add]
    have a2 : (x' + p.w * y') / p.w = y' := by
      rw [Nat.add_mul_div_left _ _ (by omega), Nat.div_eq_of_lt hx', Nat.zero_add]
    rw [← a1, ← a2]
    congr 1
    rw [Nat.mul_comm p.w y, Nat.mul_comm p.w y']
    omega
  subst h2
  exact ⟨rfl, by omega⟩

/-- Two elements of the grid stand at the same word or at disjoint words, and at the same word only if they are the same
element of the same tile. -/
theorem Plane.elemAddr_disjoint {p : Plane} {i j : Nat} {e f : Fin 64} {a b : Nat} (ha : p.elemAddr i e = some a)
    (hb : p.elemAddr j f = some b) : (i = j ∧ e = f ∧ a = b) ∨ a + 4 ≤ b ∨ b + 4 ≤ a := by
  unfold Plane.elemAddr at ha hb
  split at ha
  swap; · cases ha
  split at hb
  swap; · cases hb
  rename_i hi hj
  cases ha; cases hb
  by_cases hab : p.sampleAddr (p.elemRow i e) (p.elemCol i e) = p.sampleAddr (p.elemRow j f) (p.elemCol j f)
  · left
    obtain ⟨hy, hx⟩ := Plane.sampleAddr_inj hi.2 hj.2 hab
    have hc := hi.2
    simp only [Plane.elemRow, Plane.elemCol] at hy hx hc
    have r1 := (rowOf e).isLt
    have r2 := (rowOf f).isLt
    have c1 := (colOf e).isLt
    have c2 := (colOf f).isLt
    have hr : rowOf e = rowOf f := Fin.ext (by omega)
    have hcl : colOf e = colOf f := Fin.ext (by omega)
    have hd : i / ceil8 p.w = j / ceil8 p.w := by omega
    have hm : i % ceil8 p.w = j % ceil8 p.w := by omega
    refine ⟨?_, ?_, hab⟩
    · rw [← Nat.div_add_mod i (ceil8 p.w), ← Nat.div_add_mod j (ceil8 p.w), hd, hm]
    · rw [← elemAt_rowOf_colOf e, ← elemAt_rowOf_colOf f, hr, hcl]
  · right
    simp only [Plane.sampleAddr] at hab ⊢
    omega

end Sys2Proof.Machine
end

