-- ==== Sys2Proof/Laws/BlockGrid.lean ====
section
/-! SUPPORT. What partition reads and what reassemble stores. -/

namespace Sys2Proof.Machine

/-- A tile is formed exactly where all its elements have a value. -/
theorem tileOf?_eq_some {f : Fin 64 → Option Word} {t : Tile} : tileOf? f = some t ↔ ∀ e, f e = some t[e] := by
  unfold tileOf?
  constructor
  · intro h
    split at h
    · cases h
    · rename_i hn
      intro e
      have he : (f e).isNone = false := anyElem_eq_false.1 (Bool.eq_false_iff.2 hn) e
      obtain ⟨w, hw⟩ := Option.isSome_iff_exists.1 (Option.isNone_eq_false_iff.1 he)
      rw [← Option.some.inj h]
      simp [hw]
  · intro h
    rw [if_neg (by simp [h])]
    refine congrArg some (Vector.ext fun k hk => ?_)
    simp [h ⟨k, hk⟩]

/-- Each element of a partitioned tile is its sample, or 0 in the padding. -/
theorem partition_eq_some {m : Memory} {p : Plane} {i : Nat} {t : Tile} :
    partition m p i = some t ↔ ∀ e, partitionElem m p i e = some t[e] := tileOf?_eq_some

/-- Partitioning looks at the plane's region only. -/
theorem partition_congr {m m' : Memory} {p : Plane} (i : Nat)
    (h : ∀ a, p.region.lo ≤ a → a < p.region.hi → cellRead m' a = cellRead m a) : partition m' p i = partition m p i := by
  unfold partition
  congr 1
  funext e
  unfold partitionElem
  cases ha : p.elemAddr i e with
  | none => rfl
  | some a =>
    have := Plane.elemAddr_region ha
    exact readWord_congr fun b h1 h2 => h b (by omega) (by omega)

theorem storeElem_writesOnly (p : Plane) (i : Nat) (t : Tile) (m : Memory) (e : Fin 64) :
    WritesOnly p.region.lo (p.region.hi - p.region.lo) m (storeElem p i t m e) := by
  unfold storeElem
  cases h : p.elemAddr i e with
  | none => exact WritesOnly.refl _ _ _
  | some a =>
    have := Plane.elemAddr_region h
    exact (writeWord_writesOnly m a t[e]).widen (by omega) (by omega)

theorem foldl_storeElem_writesOnly (p : Plane) (i : Nat) (t : Tile) (es : List (Fin 64)) (m : Memory) :
    WritesOnly p.region.lo (p.region.hi - p.region.lo) m (es.foldl (storeElem p i t) m) := by
  induction es generalizing m with
  | nil => exact WritesOnly.refl _ _ _
  | cons e es ih => exact (storeElem_writesOnly p i t m e).trans (ih _)

/-- Reassembling writes inside the plane only. -/
theorem reassemble_writesOnly (m : Memory) (p : Plane) (i : Nat) (t : Tile) :
    WritesOnly p.region.lo (p.region.hi - p.region.lo) m (reassemble m p i t) :=
  foldl_storeElem_writesOnly p i t _ m

/-- A byte outside the tile's stored words is left alone. -/
theorem foldl_storeElem_outside (p : Plane) (i : Nat) (t : Tile) (es : List (Fin 64)) (m : Memory) {b : Nat}
    (h : ∀ e ∈ es, ∀ a, p.elemAddr i e = some a → b < a ∨ a + 4 ≤ b) :
    cellRead (es.foldl (storeElem p i t) m) b = cellRead m b := by
  induction es generalizing m with
  | nil => rfl
  | cons e es ih =>
    rw [List.foldl_cons, ih _ fun f hf => h f (List.mem_cons_of_mem _ hf)]
    unfold storeElem
    cases ha : p.elemAddr i e with
    | none => rfl
    | some a => exact (writeWord_writesOnly m a t[e]).outside b (h e List.mem_cons_self a ha)

/-- The same for `reassemble`. -/
theorem reassemble_outside (m : Memory) (p : Plane) (i : Nat) (t : Tile) {b : Nat}
    (h : ∀ e a, p.elemAddr i e = some a → b < a ∨ a + 4 ≤ b) : cellRead (reassemble m p i t) b = cellRead m b :=
  foldl_storeElem_outside p i t _ m fun e _ => h e

theorem foldl_storeElem_stored (p : Plane) (i : Nat) (t : Tile) (es : List (Fin 64)) (hes : es.Nodup) (m : Memory)
    {e : Fin 64} (he : e ∈ es) {a : Nat} (ha : p.elemAddr i e = some a) :
    readWord (es.foldl (storeElem p i t) m) a = some t[e] := by
  induction es generalizing m with
  | nil => cases he
  | cons f es ih =>
    rw [List.foldl_cons]
    obtain ⟨hf, hes'⟩ := List.nodup_cons.1 hes
    rcases List.mem_cons.1 he with rfl | he'
    · rw [readWord_congr (m := storeElem p i t m e)]
      · simp only [storeElem, ha, readWord_writeWord]
      · intro b h1 h2
        refine foldl_storeElem_outside p i t es _ fun g hg c hc => ?_
        rcases Plane.elemAddr_disjoint ha hc with ⟨_, rfl, _⟩ | h | h
        · exact absurd hg hf
        · omega
        · omega
    · exact ih hes' _ he'

/-- Every in-range element stands in the plane after the store. -/
theorem reassemble_stored (m : Memory) (p : Plane) (i : Nat) (t : Tile) {e : Fin 64} {a : Nat}
    (ha : p.elemAddr i e = some a) : readWord (reassemble m p i t) a = some t[e] :=
  foldl_storeElem_stored p i t _ (List.nodup_finRange 64) m (List.mem_finRange e) ha

end Sys2Proof.Machine
end

