-- ==== Sys2Proof/Laws/CoefCoder.lean ====
section
/-! SUPPORT. The zigzag tables are inverse to each other; the shape of pair lists and records; what reading a record back
answers. -/

namespace Sys2Proof.Machine

/-- `IZ[ZZ[i]] = i` (45_coefcoder.md R210). -/
theorem izTable_zzTable : ∀ i : Fin 64, izTable[zzTable[i]] = i := by decide

/-- `ZZ[IZ[e]] = e` (45_coefcoder.md R210). -/
theorem zzTable_izTable : ∀ e : Fin 64, zzTable[izTable[e]] = e := by decide

/-! ### Pair lists -/

theorem runPairs_length (run : Nat) (vs : List Int) : (runPairs run vs).length ≤ vs.length := by
  induction vs generalizing run with
  | nil => simp [runPairs]
  | cons v vs ih =>
    unfold runPairs
    split
    · exact Nat.le_succ_of_le (ih _)
    · simpa using ih 0

theorem runPairs_mem {run : Nat} {vs : List Int} {p : RunPair} (h : p ∈ runPairs run vs) :
    p.1 < run + vs.length ∧ p.2 ∈ vs ∧ p.2 ≠ 0 := by
  induction vs generalizing run with
  | nil => simp [runPairs] at h
  | cons v vs ih =>
    unfold runPairs at h
    split at h
    · obtain ⟨h1, h2, h3⟩ := ih h
      exact ⟨by simp only [List.length_cons]; omega, List.mem_cons_of_mem _ h2, h3⟩
    · rename_i hv
      rcases List.mem_cons.1 h with rfl | h
      · exact ⟨by simp, List.mem_cons_self, hv⟩
      · obtain ⟨h1, h2, h3⟩ := ih h
        exact ⟨by simp only [List.length_cons]; omega, List.mem_cons_of_mem _ h2, h3⟩

/-- Expanding the pairs gives the values back, up to trailing zeros. -/
theorem expandPairs_runPairs (run : Nat) (vs : List Int) :
    ∃ k, expandPairs (runPairs run vs) ++ List.replicate k 0 = List.replicate run 0 ++ vs := by
  induction vs generalizing run with
  | nil => exact ⟨run, by simp [runPairs, expandPairs]⟩
  | cons v vs ih =>
    unfold runPairs
    split
    · rename_i hv
      obtain ⟨k, hk⟩ := ih (run + 1)
      refine ⟨k, hk.trans ?_⟩
      rw [hv, List.replicate_succ', List.append_assoc]
      rfl
    · obtain ⟨k, hk⟩ := ih 0
      refine ⟨k, ?_⟩
      simp only [expandPairs, List.flatMap_cons, List.append_assoc] at hk ⊢
      rw [hk]
      simp

@[simp] theorem satValues_length (x : Tile) : (satValues x).length = 64 := by simp [satValues]

/-- A sequence has between 1 and 64 pairs. -/
theorem pairs_length (x : Tile) : 1 ≤ (pairs x).length ∧ (pairs x).length ≤ 64 := by
  have h := runPairs_length 0 (satValues x)
  rw [satValues_length] at h
  unfold pairs
  split
  · exact ⟨Nat.le_refl _, by decide⟩
  · rename_i hne
    refine ⟨?_, h⟩
    cases hp : runPairs 0 (satValues x) with
    | nil => exact absurd hp hne
    | cons p ps => simp

/-- Every run fits its byte and every value its two bytes. -/
theorem pairs_range {x : Tile} {p : RunPair} (h : p ∈ pairs x) : p.1 ≤ 63 ∧ -32768 ≤ p.2 ∧ p.2 ≤ 32767 := by
  unfold pairs at h
  split at h
  · obtain rfl := List.mem_singleton.1 h
    decide
  · obtain ⟨h1, h2, _⟩ := runPairs_mem h
    rw [satValues_length] at h1
    simp only [satValues, List.mem_map] at h2
    obtain ⟨w, _, hw⟩ := h2
    have := sat_range 16 w.toInt
    rw [satMin16, satMax16] at this
    omega

/-! ### Records -/

@[simp] theorem halfBytes_length (n : BitVec 16) : (halfBytes n).length = 2 := rfl

@[simp] theorem pairBytes_length (p : RunPair) : (pairBytes p).length = 3 := rfl

@[simp] theorem record_length (ps : List RunPair) : (record ps).length = recordSize ps.length := by
  simp only [record, List.length_append, halfBytes_length, recordSize]
  have : (ps.flatMap pairBytes).length = 3 * ps.length := by
    induction ps with
    | nil => rfl
    | cons p ps ih => simp only [List.flatMap_cons, List.length_append, pairBytes_length, ih, List.length_cons]; omega
  omega

theorem recordOverflows_eq_false {p limit n : Nat} :
    recordOverflows p limit n = false ↔ p + recordSize n ≤ limit := by
  have h : recordOverflows p limit n = false ↔ ¬ limit < p ∧ ¬ limit - p < recordSize n := by
    simp only [recordOverflows, Bool.or_eq_false_iff, decide_eq_false_iff_not]
  rw [h, recordSize]
  omega

/-- What a complete read of a record says. -/
theorem readRecord_eq_record {m : Memory} {p limit : Nat} {t : Tile} {next : Nat}
    (h : readRecord m p limit = .record t next) :
    ∃ n ps, readBE m p 2 = some n ∧ readPairs m (p + 2) n = some ps ∧ t = decodePairs ps ∧
      next = p + recordSize n ∧ next ≤ limit := by
  unfold readRecord at h
  split at h
  · cases h
  · cases hn : readBE m p 2 with
    | none => simp [hn] at h
    | some n =>
      simp only [hn] at h
      split at h
      · cases h
      · rename_i hov
        cases hp : readPairs m (p + 2) n with
        | none => simp [hp] at h
        | some ps =>
          simp only [hp, RecordRead.record.injEq] at h
          have := recordOverflows_eq_false.1 (Bool.eq_false_iff.2 hov)
          exact ⟨n, ps, rfl, hp, h.1.symm, h.2.symm, by omega⟩

/-- Two bytes of a 16-bit value read back as it. -/
theorem readBE_halfBytes {m : Memory} {a : Nat} {n : BitVec 16} (h0 : cellRead m a = some (n.extractLsb' 8 8))
    (h1 : cellRead m (a + 1) = some (n.extractLsb' 0 8)) : readBE m a 2 = some n.toNat := by
  simp only [readBE, Nat.add_zero, h0, h1, Option.some.injEq, BitVec.extractLsb'_toNat]
  have := n.isLt
  simp only [Nat.shiftRight_eq_div_pow]
  omega

/-- Pairs read where their bytes stand. -/
theorem readPairs_of_bytes {m : Memory} {ps : List RunPair} {a : Nat}
    (hrun : ∀ p ∈ ps, p.1 < 256 ∧ -32768 ≤ p.2 ∧ p.2 ≤ 32767)
    (h : ∀ j (hj : j < (ps.flatMap pairBytes).length), cellRead m (a + j) = some (ps.flatMap pairBytes)[j]) :
    readPairs m a ps.length = some ps := by
  induction ps generalizing a with
  | nil => rfl
  | cons p ps ih =>
    have hb : ((p :: ps).flatMap pairBytes) =
        BitVec.ofNat 8 p.1 :: (BitVec.ofInt 16 p.2).extractLsb' 8 8 :: (BitVec.ofInt 16 p.2).extractLsb' 0 8 ::
          ps.flatMap pairBytes := rfl
    have h0 := h 0 (by simp [hb])
    have h1 := h 1 (by simp [hb])
    have h2 := h 2 (by simp [hb])
    simp only [hb, List.getElem_cons_zero, List.getElem_cons_succ, Nat.add_zero] at h0 h1 h2
    have hrest : readPairs m (a + 3) ps.length = some ps := by
      refine ih (fun q hq => hrun q (List.mem_cons_of_mem _ hq)) fun j hj => ?_
      have := h (j + 3) (by simp only [hb, List.length_cons]; omega)
      simp only [hb, List.getElem_cons_succ] at this
      rw [show a + 3 + j = a + (j + 3) by omega, this]
    obtain ⟨r1, r2, r3⟩ := hrun p List.mem_cons_self
    have hp : readPair m a = some p := by
      simp only [readPair, h0, readBE_halfBytes (a := a + 1) h1 h2]
      simp only [BitVec.toNat_ofNat, BitVec.ofNat_toNat, BitVec.setWidth_eq, BitVec.toInt_ofInt, Option.some.injEq]
      apply Prod.ext
      · show p.1 % 2 ^ 8 = p.1; omega
      · show p.2.bmod (2 ^ 16) = p.2
        rw [Int.bmod_eq_of_le] <;> omega
    simp only [List.length_cons, readPairs, hp, hrest]

/-- A record that stands in memory reads back as its pairs' tile. -/
theorem readRecord_of_bytes {m : Memory} {ps : List RunPair} {a limit : Nat} (hlen : ps.length < 65536)
    (hrun : ∀ p ∈ ps, p.1 < 256 ∧ -32768 ≤ p.2 ∧ p.2 ≤ 32767)
    (h : ∀ j (hj : j < (record ps).length), cellRead m (a + j) = some (record ps)[j])
    (hfit : a + recordSize ps.length ≤ limit) :
    readRecord m a limit = .record (decodePairs ps) (a + recordSize ps.length) := by
  have hb : record ps = (BitVec.ofNat 16 ps.length).extractLsb' 8 8 :: (BitVec.ofNat 16 ps.length).extractLsb' 0 8 ::
      ps.flatMap pairBytes := rfl
  have h0 := h 0 (by simp [hb])
  have h1 := h 1 (by simp [hb])
  simp only [hb, List.getElem_cons_zero, List.getElem_cons_succ, Nat.add_zero] at h0 h1
  have hn : readBE m a 2 = some ps.length := by
    rw [readBE_halfBytes h0 h1, BitVec.toNat_ofNat, Nat.mod_eq_of_lt hlen]
  have hps : readPairs m (a + 2) ps.length = some ps := by
    refine readPairs_of_bytes hrun fun j hj => ?_
    have := h (j + 2) (by simp only [hb, List.length_cons]; omega)
    simp only [hb, List.getElem_cons_succ] at this
    rw [show a + 2 + j = a + (j + 2) by omega, this]
  have ho : recordOverflows a limit 0 = false := recordOverflows_eq_false.2 (by simp only [recordSize] at *; omega)
  have ho' : recordOverflows a limit ps.length = false := recordOverflows_eq_false.2 hfit
  simp [readRecord, ho, hn, ho', hps]

end Sys2Proof.Machine
end

