-- ==== Sys2Proof/Laws/ColorSpace.lean ====
section
/-! SUPPORT. The pixel loop, and where its bodies write. -/

namespace Sys2Proof.Machine

/-- A property of (next pixel, memory) that the body keeps holds at the end of the loop, and the loop completes where the
body does. -/
theorem pixelLoop_keeps {body : Nat → Memory → Option Memory} (P : Nat → Memory → Prop) {n p : Nat} {m : Memory}
    (h0 : P p m) (hbody : ∀ i m, p ≤ i → i < p + n → P i m → ∃ m', body i m = some m' ∧ P (i + 1) m') :
    ∃ m', pixelLoop body n p m = some m' ∧ P (p + n) m' := by
  induction n generalizing p m with
  | zero => exact ⟨m, rfl, h0⟩
  | succ n ih =>
    obtain ⟨m₁, h1, hP⟩ := hbody p m (Nat.le_refl _) (by omega) h0
    obtain ⟨m₂, h2, hP2⟩ := ih hP fun i m hi hi' => hbody i m (by omega) (by omega)
    refine ⟨m₂, ?_, by rwa [show p + (n + 1) = p + 1 + n by omega]⟩
    simp only [pixelLoop, h1, h2]

/-- A relation to the starting memory that the body keeps holds of a loop that completes. -/
theorem pixelLoop_rel {body : Nat → Memory → Option Memory} {R : Memory → Memory → Prop} (hrefl : ∀ m, R m m)
    (htrans : ∀ {a b c}, R a b → R b c → R a c) {n p : Nat}
    (hbody : ∀ i m m', p ≤ i → i < p + n → body i m = some m' → R m m') {m m' : Memory}
    (h : pixelLoop body n p m = some m') : R m m' := by
  induction n generalizing p m with
  | zero => simp only [pixelLoop, Option.some.injEq] at h; exact h ▸ hrefl m
  | succ n ih =>
    simp only [pixelLoop] at h
    cases h1 : body p m with
    | none => simp [h1] at h
    | some m₁ =>
      simp only [h1] at h
      exact htrans (hbody p m m₁ (Nat.le_refl _) (by omega) h1)
        (ih (fun i m m' hi hi' => hbody i m m' (by omega) (by omega)) h)

/-- What a completed CCF body read and stored. -/
theorem ccfPixel_eq_some {g : ImageBases} {p : Nat} {m m' : Memory} (h : ccfPixel g p m = some m') :
    ∃ r gr b, cellRead m (g.pix + 3 * p) = some r ∧ cellRead m (g.pix + 3 * p + 1) = some gr ∧
      cellRead m (g.pix + 3 * p + 2) = some b ∧ m' = storeSamples g p r.toNat gr.toNat b.toNat m := by
  unfold ccfPixel at h
  split at h
  · rename_i r gr b h1 h2 h3
    exact ⟨r, gr, b, h1, h2, h3, by simpa using h.symm⟩
  · cases h

/-- What a completed CCI body read and stored. -/
theorem cciPixel_eq_some {g : ImageBases} {p : Nat} {m m' : Memory} (h : cciPixel g p m = some m') :
    ∃ y cb cr, readWord m (g.y + 4 * p) = some y ∧ readWord m (g.cb + 4 * p) = some cb ∧
      readWord m (g.cr + 4 * p) = some cr ∧ m' = storePixel g p y.toInt cb.toInt cr.toInt m := by
  unfold cciPixel at h
  split at h
  · rename_i y cb cr h1 h2 h3
    exact ⟨y, cb, cr, h1, h2, h3, by simpa using h.symm⟩
  · cases h

/-- A byte outside the three stored words is left alone. -/
theorem storeSamples_outside (g : ImageBases) (p : Nat) (r gr b : Int) (m : Memory) {a : Nat}
    (hy : a < g.y + 4 * p ∨ g.y + 4 * p + 4 ≤ a) (hcb : a < g.cb + 4 * p ∨ g.cb + 4 * p + 4 ≤ a)
    (hcr : a < g.cr + 4 * p ∨ g.cr + 4 * p + 4 ≤ a) : cellRead (storeSamples g p r gr b m) a = cellRead m a := by
  unfold storeSamples
  rw [(writeWord_writesOnly _ _ _).outside a hcr, (writeWord_writesOnly _ _ _).outside a hcb,
    (writeWord_writesOnly _ _ _).outside a hy]

/-- CCI stores inside its pixel's three bytes. -/
theorem storePixel_writesOnly (g : ImageBases) (p : Nat) (y cb cr : Int) (m : Memory) :
    WritesOnly (g.pix + 3 * p) 3 m (storePixel g p y cb cr m) := by
  unfold storePixel
  exact ((((cellWrite_writesOnly m _ _).widen (Nat.le_refl _) (by omega)).trans
    ((cellWrite_writesOnly _ _ _).widen (by omega) (by omega)))).trans
    ((cellWrite_writesOnly _ _ _).widen (by omega) (by omega))

end Sys2Proof.Machine
end

