-- ==== Sys2Proof/Laws/Ops.lean ====
section
/-! SUPPORT. What each shared way of ending a command can answer, said once. -/

namespace Sys2Proof.Machine

theorem firstError_eq_none {cs : List (Bool × ErrCode)} : firstError cs = none ↔ ∀ c ∈ cs, c.1 = false := by
  induction cs with
  | nil => simp [firstError]
  | cons c cs ih =>
    obtain ⟨b, e⟩ := c
    cases b <;> simp [firstError, ih]

theorem firstError_mem {cs : List (Bool × ErrCode)} {e : ErrCode} (h : firstError cs = some e) : (true, e) ∈ cs := by
  induction cs with
  | nil => simp [firstError] at h
  | cons c cs ih =>
    obtain ⟨b, d⟩ := c
    cases b
    · exact List.mem_cons_of_mem _ (ih (by simpa [firstError] using h))
    · simp only [firstError, if_true, Option.some.injEq] at h
      exact h ▸ List.mem_cons_self

theorem checked_of_none {cs : List (Bool × ErrCode)} (h : firstError cs = none) (s : State) (k : Result) :
    checked cs s k = k := by rw [checked, h]

theorem checked_of_some {cs : List (Bool × ErrCode)} {e : ErrCode} (h : firstError cs = some e) (s : State) (k : Result) :
    checked cs s k = .next (s.stopError e) := by rw [checked, h]; rfl

/-- A command that makes checks either stops at one of them or goes on with all of them passed. -/
theorem checked_cases (cs : List (Bool × ErrCode)) (s : State) (k : Result) :
    (∃ e, (true, e) ∈ cs ∧ checked cs s k = .next (s.stopError e)) ∨
      ((∀ c ∈ cs, c.1 = false) ∧ checked cs s k = k) := by
  cases h : firstError cs with
  | some e => exact .inl ⟨e, firstError_mem h, checked_of_some h s k⟩
  | none => exact .inr ⟨firstError_eq_none.1 h, checked_of_none h s k⟩

@[simp] theorem unlessOverlap_next {b : Bool} {k : Result} {t : State} :
    unlessOverlap b k = .next t ↔ b = false ∧ k = .next t := by
  cases b <;> simp [unlessOverlap]

@[simp] theorem withData_next {α : Type} {o : Option α} {k : α → Result} {t : State} :
    withData o k = .next t ↔ ∃ a, o = some a ∧ k a = .next t := by
  cases o <;> simp [withData]

@[simp] theorem complete_next {s t : State} : complete s = .next t ↔ t = s.advance := by
  simp [complete, eq_comm]

@[simp] theorem raise_next {e : ErrCode} {s t : State} : raise e s = .next t ↔ t = s.stopError e := by
  simp [raise, eq_comm]

/-- A channel field either names a channel or raises E_ILLEGAL. -/
theorem withChannel_cases (ch : BitVec 2) (s : State) (k : Channel → Result) :
    (∃ c, channelOf ch = some c ∧ withChannel ch s k = k c) ∨
      (channelOf ch = none ∧ withChannel ch s k = .next (s.stopError .eIllegal)) := by
  unfold withChannel raise
  cases channelOf ch with
  | some c => exact .inl ⟨c, rfl, rfl⟩
  | none => exact .inr ⟨rfl, rfl⟩

theorem channelOf_isSome_iff (ch : BitVec 2) : (channelOf ch).isSome = channelOk ch := by
  revert ch; decide

end Sys2Proof.Machine
end

