-- ==== Sys2Proof/Laws/PerInstr.lean ====
section
/-! SUPPORT. Statements about every constructor of `Instr`, one lemma each: the fields the encoder writes are the fields the
decoder cuts out of the word. -/

namespace Sys2Proof

/-- Cutting a packed word gives its fields back (30_encoding.md R101): no two fields share a bit and none loses one. -/
theorem fieldsOf_packFields (f : Fields) : fieldsOf (packFields f) = f := by
  obtain ⟨op, rd, rs, ch, t, inc, zero⟩ := f
  simp only [fieldsOf, packFields, Fields.mk.injEq]
  have h1 := op.isLt
  have h2 := rd.isLt
  have h3 := rs.isLt
  have h4 := ch.isLt
  have h5 := t.isLt
  have h6 := inc.isLt
  have h7 := zero.isLt
  have hw : (op ++ rd ++ rs ++ ch ++ t ++ inc ++ zero).toNat =
      ((((((op.toNat * 8 + rd.toNat) * 8 + rs.toNat) * 4 + ch.toNat) * 2 + t.toNat) * 2 + inc.toNat) * 65536 +
        zero.toNat) := by
    simp only [BitVec.toNat_append]
    rw [← Nat.shiftLeft_add_eq_or_of_lt h2, ← Nat.shiftLeft_add_eq_or_of_lt h3, ← Nat.shiftLeft_add_eq_or_of_lt h4,
      ← Nat.shiftLeft_add_eq_or_of_lt h5, ← Nat.shiftLeft_add_eq_or_of_lt h6, ← Nat.shiftLeft_add_eq_or_of_lt h7]
    simp only [Nat.shiftLeft_eq]
  refine ⟨?_, ?_, ?_, ?_, ?_, ?_, ?_⟩ <;> apply BitVec.eq_of_toNat_eq <;>
    rw [BitVec.extractLsb'_toNat, hw, Nat.shiftRight_eq_div_pow] <;> omega

namespace Laws.EncodedFields

/-- The word of an instruction holds the instruction's fields. -/
def Statement (i : Instr) : Prop := fieldsOf (encode i) = i.fields

theorem endList : Statement .endList := fieldsOf_packFields _

theorem nop : Statement .nop := fieldsOf_packFields _

theorem ccf : Statement .ccf := fieldsOf_packFields _

theorem cci : Statement .cci := fieldsOf_packFields _

theorem ldt (rd : TReg) (ch : BitVec 2) (inc : Bool) : Statement (.ldt rd ch inc) := fieldsOf_packFields _

theorem stt (rs : TReg) (ch : BitVec 2) (inc : Bool) : Statement (.stt rs ch inc) := fieldsOf_packFields _

theorem fdct (rd rs : TReg) : Statement (.fdct rd rs) := fieldsOf_packFields _

theorem idct (rd rs : TReg) : Statement (.idct rd rs) := fieldsOf_packFields _

theorem qnt (rd rs : TReg) (t : TableSel) : Statement (.qnt rd rs t) := fieldsOf_packFields _

theorem dqnt (rd rs : TReg) (t : TableSel) : Statement (.dqnt rd rs t) := fieldsOf_packFields _

theorem zzs (rd rs : TReg) : Statement (.zzs rd rs) := fieldsOf_packFields _

theorem zzu (rd rs : TReg) : Statement (.zzu rd rs) := fieldsOf_packFields _

theorem rle (rs : TReg) : Statement (.rle rs) := fieldsOf_packFields _

theorem rld (rd : TReg) : Statement (.rld rd) := fieldsOf_packFields _

theorem encc (ch : BitVec 2) (t : TableSel) : Statement (.encc ch t) := fieldsOf_packFields _

theorem decc (ch : BitVec 2) (t : TableSel) : Statement (.decc ch t) := fieldsOf_packFields _

end Laws.EncodedFields

end Sys2Proof
end

