-- ==== Sys2Proof/Laws/Pipeline.lean ====
section
/-! SUPPORT. The channel pass: what a loop over tiles keeps, and what one tile of each pass does. -/

namespace Sys2Proof.Machine

/-- A property of (next tile, pass state) that the body keeps holds at the end of the pass, and the pass completes where
the body does. -/
theorem passLoop_keeps {body : Nat → PassState → PassEnd} (P : Nat → PassState → Prop) {n i : Nat} {p : PassState}
    (h0 : P i p) (hbody : ∀ j p, i ≤ j → j < i + n → P j p → ∃ p', body j p = .done p' ∧ P (j + 1) p') :
    ∃ p', passLoop body n i p = .done p' ∧ P (i + n) p' := by
  induction n generalizing i p with
  | zero => exact ⟨p, rfl, h0⟩
  | succ n ih =>
    obtain ⟨p₁, h1, hP⟩ := hbody i p (Nat.le_refl _) (by omega) h0
    obtain ⟨p₂, h2, hP2⟩ := ih hP fun j p hj hj' => hbody j p (by omega) (by omega)
    refine ⟨p₂, ?_, by rwa [show i + (n + 1) = i + 1 + n by omega]⟩
    simp only [passLoop, h1, h2]

/-- A relation to the starting pass state that the body keeps holds of a pass that completes. -/
theorem passLoop_rel {body : Nat → PassState → PassEnd} {R : PassState → PassState → Prop} (hrefl : ∀ p, R p p)
    (htrans : ∀ {a b c}, R a b → R b c → R a c) (hbody : ∀ i p p', body i p = .done p' → R p p') {n i : Nat}
    {p p' : PassState} (h : passLoop body n i p = .done p') : R p p' := by
  induction n generalizing i p with
  | zero => simp only [passLoop, PassEnd.done.injEq] at h; exact h ▸ hrefl p
  | succ n ih =>
    simp only [passLoop] at h
    cases h1 : body i p with
    | done p₁ => simp only [h1] at h; exact htrans (hbody i p p₁ h1) (ih h)
    | streamError => simp [h1] at h
    | unwritten => simp [h1] at h

/-- What one completed tile of ENCC does. -/
theorem encBody_done {pl : Plane} {q : QTable} {limit i : Nat} {p p' : PassState}
    (h : encBody pl q limit i p = .done p') :
    ∃ x, partition p.mem pl i = some x ∧ p.ptr + recordSize (pairs (encodeTile q x)).length ≤ limit ∧
      p'.mem = writeBytes p.mem p.ptr (record (pairs (encodeTile q x))) ∧
      p'.ptr = p.ptr + recordSize (pairs (encodeTile q x)).length ∧ p'.ovf = (p.ovf || encodeTileOvf q x) := by
  unfold encBody at h
  split at h
  · cases h
  · rename_i x hx
    simp only at h
    split at h
    · cases h
    · rename_i hov
      have hfit := recordOverflows_eq_false.1 (Bool.eq_false_iff.2 hov)
      simp only [PassEnd.done.injEq] at h
      subst h
      refine ⟨x, hx, hfit, ?_, ?_, ?_⟩ <;> simp only

/-- What one completed tile of DECC does. -/
theorem decBody_done {pl : Plane} {q : QTable} {limit i : Nat} {p p' : PassState}
    (h : decBody pl q limit i p = .done p') :
    ∃ v next, readRecord p.mem p.ptr limit = .record v next ∧ next ≤ limit ∧
      p'.mem = reassemble p.mem pl i (decodeTile q v) ∧ p'.ptr = next ∧ p'.ovf = (p.ovf || decodeTileOvf q v) := by
  unfold decBody at h
  split at h
  · cases h
  · cases h
  · rename_i v next hr
    rw [← PassEnd.done.inj h]
    obtain ⟨_, _, _, _, _, _, hle⟩ := readRecord_eq_record hr
    exact ⟨v, next, hr, hle, rfl, rfl, rfl⟩

/-- An ENCC pass writes between its first and last stream address only, and stays below the limit. -/
theorem passLoop_enc_writesOnly {pl : Plane} {q : QTable} {limit n i : Nat} {p p' : PassState}
    (h : passLoop (encBody pl q limit) n i p = .done p') :
    p.ptr ≤ p'.ptr ∧ (p.ptr = p'.ptr ∨ p'.ptr ≤ limit) ∧ WritesOnly p.ptr (p'.ptr - p.ptr) p.mem p'.mem := by
  refine passLoop_rel (R := fun p p' => p.ptr ≤ p'.ptr ∧ (p.ptr = p'.ptr ∨ p'.ptr ≤ limit) ∧
    WritesOnly p.ptr (p'.ptr - p.ptr) p.mem p'.mem) (fun p => ⟨Nat.le_refl _, .inl rfl, WritesOnly.refl _ _ _⟩) ?_ ?_ h
  · rintro a b c ⟨h1, h2, h3⟩ ⟨g1, g2, g3⟩
    exact ⟨by omega, by omega, (h3.widen (Nat.le_refl _) (by omega)).trans (g3.widen (by omega) (by omega))⟩
  · intro i p p' hb
    obtain ⟨x, _, hle, hm, hp, _⟩ := encBody_done hb
    refine ⟨by omega, by omega, ?_⟩
    rw [hm, hp]
    have := writeBytes_writesOnly p.mem p.ptr (record (pairs (encodeTile q x)))
    rw [record_length] at this
    exact this.widen (Nat.le_refl _) (by omega)

/-- A DECC pass writes inside the plane only, and its stream pointer stays below the limit. -/
theorem passLoop_dec_writesOnly {pl : Plane} {q : QTable} {limit n i : Nat} {p p' : PassState}
    (h : passLoop (decBody pl q limit) n i p = .done p') :
    p.ptr ≤ p'.ptr ∧ (p.ptr = p'.ptr ∨ p'.ptr ≤ limit) ∧
      WritesOnly pl.region.lo (pl.region.hi - pl.region.lo) p.mem p'.mem := by
  refine passLoop_rel (R := fun p p' => p.ptr ≤ p'.ptr ∧ (p.ptr = p'.ptr ∨ p'.ptr ≤ limit) ∧
    WritesOnly pl.region.lo (pl.region.hi - pl.region.lo) p.mem p'.mem)
    (fun p => ⟨Nat.le_refl _, .inl rfl, WritesOnly.refl _ _ _⟩) ?_ ?_ h
  · rintro a b c ⟨h1, h2, h3⟩ ⟨g1, g2, g3⟩
    exact ⟨by omega, by omega, h3.trans g3⟩
  · intro i p p' hb
    obtain ⟨v, next, hr, hle, hm, hp, _⟩ := decBody_done hb
    obtain ⟨n, _, _, _, _, hn, _⟩ := readRecord_eq_record hr
    refine ⟨by omega, by omega, ?_⟩
    rw [hm]
    exact reassemble_writesOnly _ _ _ _

end Sys2Proof.Machine
end

