-- ==== Sys2Proof/Tests/Slice0.lean ====
section
/-! SUPPORT. The model's own tests. Expected results are the vectors of 95_test_vectors.md (named at each test) or are read
off the rule a test cites; the witnesses show that the hypotheses of the statements can be met. -/

namespace Sys2Proof.Machine

set_option Elab.async false

/-! ### Helpers -/

/-- A machine with a small DMEM and CMDMEM, in a run. -/
def running : State := { State.atReset { dmemBytes := 4096, nCmd := 16 } with busy := true }

/-- The same machine idle. -/
def resting : State := State.atReset { dmemBytes := 4096, nCmd := 16 }

/-- What a result that is a next state says. -/
def seen {α : Type} (f : State → α) : Result → Option α
  | .next t => some (f t)
  | _ => none

/-- The result is a next state whose BUSY is `b`. -/
def nextBusy (b : Bool) (r : Result) : Bool :=
  match r with
  | .next t => t.busy == b
  | _ => false

theorem next_of_nextBusy {b : Bool} {r : Result} (h : nextBusy b r = true) : ∃ t, r = .next t ∧ t.busy = b := by
  cases r with
  | next t => exact ⟨t, rfl, by simpa [nextBusy] using h⟩
  | fault f => simp [nextBusy] at h
  | refused r => simp [nextBusy] at h

/-- Bytes of DMEM. -/
def dmemBytesAt (s : State) (a n : Nat) : List (Option Byte) := (List.range n).map fun k => cellRead s.dmem (a + k)

/-- A tile given element by element. -/
def tileFrom (f : Fin 64 → Word) : Tile := Vector.ofFn f

/-- A tile with some elements set and the others 0. -/
def sparse (es : List (Fin 64 × Word)) : Tile := tileFrom fun e => ((es.find? fun p => p.1 == e).map (·.2)).getD 0

/-- The running machine with this tile in T0. -/
def withT0 (x : Tile) : State := running.writeTile 0 x

/-- A plane stored word by word. -/
def planeMem (base w h : Nat) (f : Nat → Nat → Word) : Memory :=
  (List.range (w * h)).foldl (fun m k => writeWord m (base + 4 * k) (f (k / w) (k % w))) []

/-- The image of one pixel: buffer at 0, planes at 4, 8, 12, stream at 64 with room for one record of any size. -/
def onePixel : State :=
  { running with width := 1, height := 1, planeBase0 := 4, planeBase1 := 8, planeBase2 := 12, rlePtr := 64,
                 rleLimit := 258, tcount0 := 1,
                 dmem := writeBytes [] 0 [255, 0, 0, 0, 0, 76, 0, 0, 0, 85, 0, 0, 0, 255, 0, 0] }

/-- The plane of V-BG-1: 10 by 3 samples of value `16y + x` at 0x100, TIDX = 1. -/
def grid : State :=
  { running with width := 10, height := 3, planeBase0 := 0x100, tidx := 1,
                 dmem := planeMem 0x100 10 3 fun y x => BitVec.ofNat 32 ((16 * y + x) * 65536) }

/-- The record of V-RLE-5. -/
def impulseRecord : List Byte :=
  [0x00, 0x14, 0x00, 0x00, 0x01, 0x00, 0x00, 0x02, 0x00, 0x00, 0x01, 0x00, 0x00, 0x01, 0x00, 0x00, 0x02] ++
  [0x00, 0x00, 0x02, 0x00, 0x00, 0x01, 0x00, 0x00, 0x02, 0x00, 0x00, 0x02, 0x00, 0x00, 0x01, 0x00, 0x00, 0x01] ++
  [0x00, 0x00, 0x01, 0x00, 0x00, 0x01, 0x00, 0x00, 0x01, 0x00, 0x00, 0x01, 0x01, 0x00, 0x01, 0x00, 0x00, 0x01] ++
  [0x00, 0x00, 0x01, 0x00, 0x00, 0x01, 0x04, 0x00, 0x01]

/-! ### Well-formedness -/

theorem test_wf_ldt_reserved_channel : (Instr.ldt 0 3#2 true).wellFormed = false := by decide
theorem test_wf_stt_reserved_channel : (Instr.stt 0 3#2 false).wellFormed = false := by decide
theorem test_wf_encc_reserved_channel : (Instr.encc 3#2 .luma).wellFormed = false := by decide
theorem test_wf_decc_reserved_channel : (Instr.decc 3#2 .chroma).wellFormed = false := by decide
theorem test_wf_legal_channels :
    (Instr.ldt 7 2#2 true).wellFormed = true ∧ (Instr.stt 7 0#2 false).wellFormed = true ∧
    (Instr.encc 1#2 .luma).wellFormed = true ∧ (Instr.decc 2#2 .chroma).wellFormed = true := by decide

/-! ### Decoding: words written out field by field, op rd rs ch t inc zero (30_encoding.md R101, R103) -/

theorem test_decode_end : decode (0b000000_000_000_00_0_0_0000000000000000#32) = .ok .endList := by decide
theorem test_decode_nop : decode (0b000001_000_000_00_0_0_0000000000000000#32) = .ok .nop := by decide
theorem test_decode_ccf : decode (0b000010_000_000_00_0_0_0000000000000000#32) = .ok .ccf := by decide
theorem test_decode_cci : decode (0b000011_000_000_00_0_0_0000000000000000#32) = .ok .cci := by decide
theorem test_decode_ldt : decode (0b000100_101_000_10_0_1_0000000000000000#32) = .ok (.ldt 5 2#2 true) := by decide
theorem test_decode_stt : decode (0b000101_000_011_01_0_0_0000000000000000#32) = .ok (.stt 3 1#2 false) := by decide
theorem test_decode_fdct : decode (0b000110_110_001_00_0_0_0000000000000000#32) = .ok (.fdct 6 1) := by decide
theorem test_decode_idct : decode (0b000111_100_011_00_0_0_0000000000000000#32) = .ok (.idct 4 3) := by decide
theorem test_decode_qnt : decode (0b001000_010_001_00_0_0_0000000000000000#32) = .ok (.qnt 2 1 .luma) := by decide
theorem test_decode_dqnt : decode (0b001001_011_010_00_1_0_0000000000000000#32) = .ok (.dqnt 3 2 .chroma) := by decide
theorem test_decode_zzs : decode (0b001010_011_010_00_0_0_0000000000000000#32) = .ok (.zzs 3 2) := by decide
theorem test_decode_zzu : decode (0b001011_010_001_00_0_0_0000000000000000#32) = .ok (.zzu 2 1) := by decide
theorem test_decode_rle : decode (0b001100_000_111_00_0_0_0000000000000000#32) = .ok (.rle 7) := by decide
theorem test_decode_rld : decode (0b001101_110_000_00_0_0_0000000000000000#32) = .ok (.rld 6) := by decide
theorem test_decode_encc : decode (0b001110_000_000_10_1_0_0000000000000000#32) = .ok (.encc 2#2 .chroma) := by decide
theorem test_decode_decc : decode (0b001111_000_000_01_0_0_0000000000000000#32) = .ok (.decc 1#2 .luma) := by decide

/-- V-ENC-2: the illegal words of 30_encoding.md R105 (a), (b) and (d). -/
theorem test_decode_illegal_words :
    decode 0x4000_0000 = .error .reservedOpcode ∧ decode 0xFC00_0000 = .error .reservedOpcode ∧
    decode 0x0000_0001 = .error .reservedBits ∧ decode 0x1001_8000 = .error .reservedBits ∧
    decode 0x100C_0000 = .error .reservedChannel ∧ decode 0x380E_0000 = .error .reservedChannel :=
  ⟨rfl, rfl, rfl, rfl, rfl, rfl⟩

/-- V-ENC-2: the illegal words of 30_encoding.md R105 (c). -/
theorem test_decode_unused_fields :
    decode 0x000C_0000 = .error .unusedField ∧ decode 0x0480_0000 = .error .unusedField ∧
    decode 0x1882_0000 = .error .unusedField ∧ decode 0x1881_0000 = .error .unusedField ∧
    decode 0x1480_0000 = .error .unusedField ∧ decode 0x3080_0000 = .error .unusedField ∧
    decode 0x3410_0000 = .error .unusedField ∧ decode 0x3881_0000 = .error .unusedField :=
  ⟨rfl, rfl, rfl, rfl, rfl, rfl, rfl, rfl⟩

/-- V-ENC-1: further words. -/
theorem test_decode_more_words :
    decode 0x1101_0000 = .ok (.ldt 2 0#2 true) ∧ decode 0x1450_0000 = .ok (.stt 5 0#2 false) := by decide

theorem test_decodeTableWord :
    decodeTableWord 32 0x1439_0000 = some (.stt 3 2#2 true) ∧ decodeTableWord 32 0x4000_0000 = none := by decide

/-- 30_encoding.md R110, R112, R113: what the pseudo-commands stand for. -/
theorem test_pseudo_commands :
    (Pseudo.enc .cb).expand.map encode = [0x3806_0000#32] ∧ (Pseudo.dec .cr).expand.map encode = [0x3C0A_0000#32] ∧
    (Pseudo.enct 0 .y .luma).expand = [.ldt 0 0#2 true, .fdct 0 0, .qnt 0 0 .luma, .zzs 0 0, .rle 0] ∧
    (Pseudo.dect 0 .y .luma).expand = [.rld 0, .zzu 0 0, .dqnt 0 0 .luma, .idct 0 0, .stt 0 0#2 true] := by decide

/-- 30_encoding.md R108, R109: assembler lines and their words. -/
theorem test_assembler :
    assembleLine "  ldt T0, Y, INC ; load".toList = some [0x1001_0000#32] ∧
    assembleLine "DQNT t3,t2,chroma".toList = some [0x25A2_0000#32] ∧
    assembleLine ".word 0x4000ABCD".toList = some [0x4000_ABCD#32] ∧
    assembleLine "FDCT T8, T0".toList = none := by decide +kernel

/-! ### The sequencer (V-SEQ) -/

/-- V-SEQ-1. -/
theorem test_end : seen (fun t => (t.pc, t.busy, t.isDone, t.err, t.errCode)) (exec .endList running) =
    some (1, false, true, false, .eNone) := by decide +kernel

/-- V-SEQ-2. -/
theorem test_nop : seen (fun t => (t.pc, t.busy)) (exec .nop running) = some (1, true) := by decide +kernel

/-- V-SEQ-4. -/
theorem test_step_pcrange : seen (fun t => (t.pc, t.errCode, t.errPc, t.err, t.isErr, t.busy)) (step { running with pc := 16 }) =
    some (16, .ePcRange, 16, true, true, false) := by decide +kernel

/-- V-ENC-2. -/
theorem test_step_illegal : seen (fun t => (t.pc, t.errCode, t.errPc, t.isErr))
    (step { running with cmdmem := [(0, 0x4000_0000)] }) = some (0, .eIllegal, 0, true) := by decide +kernel

/-- V-SEQ-8. -/
theorem test_step_abort : seen (fun t => (t.pc, t.errCode, t.errPc, t.abortPend))
    (step { running with cmdmem := [(1, 0x0400_0000)], pc := 1, abortPend := true }) = some (1, .eAborted, 1, false) := by
  decide +kernel

/-- 10_state.md R61. -/
theorem test_step_unwritten_command : step running = .fault .unwrittenCommand := by rfl

/-- The host's placing of a command (log 14). -/
theorem test_withFetchWord : seen (fun t => (t.pc, t.busy)) (step (State.reset.withFetchWord 32 0x0400_0000)) =
    some (1, true) := by decide +kernel

/-! ### Checks (V-ERR-1) -/

theorem test_ldt_dim : seen (fun t => (t.errCode, t.pc, t.busy)) (exec (.ldt 0 0#2 false) { running with planeBase0 := 2 }) =
    some (.eDim, 0, false) := by decide +kernel
theorem test_stt_align : seen (fun t => t.errCode) (exec (.stt 0 0#2 false) { grid with planeBase0 := 2 }) =
    some .eAlign := by decide +kernel
theorem test_cci_align_before_addr : seen (fun t => t.errCode)
    (exec .cci { onePixel with pixBase := 0xFFF0, planeBase1 := 0x202 }) = some .eAlign := by decide +kernel
theorem test_dqnt_zero_entry : seen (fun t => (t.errCode, t.tiles == running.tiles))
    (exec (.dqnt 0 0 .chroma) { running with qtChroma := running.qtChroma.set 63 0 }) = some (.eQtZero, true) := by
  decide +kernel
theorem test_decc_qtzero_before_tcount : seen (fun t => t.errCode)
    (exec (.decc 0#2 .luma) { onePixel with tcount0 := 0, qtLuma := running.qtLuma.set 0 0 }) = some .eQtZero := by
  decide +kernel

/-! ### Colour conversion (V-CC) -/

/-- V-CC-3: the three plane words of (255, 0, 0). -/
theorem test_ccf : seen (fun t => (readWord t.dmem 4, readWord t.dmem 8, readWord t.dmem 12, t.ovf)) (exec .ccf onePixel) =
    some (some 0x004C_0000, some 0x0055_0000, some 0x00FF_0000, false) := by decide +kernel

/-- V-CC-11: (0x0064_0000, 0, 0) gives (0, 235, 0). -/
theorem test_cci : seen (fun t => dmemBytesAt t 0 3)
    (exec .cci { onePixel with dmem := writeBytes [] 4 [0, 0x64, 0, 0, 0, 0, 0, 0, 0, 0, 0, 0] }) =
    some [some 0, some 235, some 0] := by decide +kernel

/-- V-CC-3, back: (76, 85, 255) gives (254, 0, 0). -/
theorem test_cci_round_trip_error : seen (fun t => dmemBytesAt t 0 3) (exec .cci onePixel) =
    some [some 254, some 0, some 0] := by decide +kernel

/-- V-CC-7 and V-CC-8: ties to even. -/
theorem test_color_ties : cbOf 255 255 0 = 0 ∧ lumaOf 0 0 250 = 28 ∧ cbOf 0 0 3 = 130 ∧ crOf 0 1 1 = 128 := by decide

/-! ### Block grid (V-BG) -/

/-- V-BG-1. -/
theorem test_ldt : seen (fun t => ((List.finRange 64).filterMap fun e =>
      if t.tileElem 2 e = 0 then none else some (e.val, (t.tileElem 2 e).toNat / 65536), t.tidx))
    (exec (.ldt 2 0#2 true) grid) =
    some ([(0, 8), (1, 9), (8, 24), (9, 25), (16, 40), (17, 41)], 2) := by decide +kernel

/-- V-BG-2. -/
theorem test_stt : seen (fun t => ([0, 1, 2].flatMap fun y => [0, 7, 8, 9].map fun x =>
      (readWord t.dmem (0x100 + 4 * (10 * y + x))).map (·.toNat / 65536), t.dmem.length, t.tidx))
    (exec (.stt 5 0#2 false) (grid.writeTile 5 (tileFrom fun _ => 0x7FFF_0000))) =
    some ([some 0, some 7, some 32767, some 32767, some 16, some 23, some 32767, some 32767,
      some 32, some 39, some 32767, some 32767], 120, 1) := by decide +kernel

/-- V-BG-3. -/
theorem test_tile_counts : [(1, 1), (8, 8), (9, 8), (16, 16), (17, 9)].map (fun d : Word × Word =>
    { running with width := d.1, height := d.2 : State }.tileCount) = [1, 1, 2, 4, 6] := by decide +kernel

/-! ### Transform (V-DCT) -/

/-- V-DCT-3, two elements; source and destination the same register (V-DCT-8). -/
theorem test_fdct : seen (fun t => (t.tileElem 0 1, t.tileElem 0 63, t.ovf)) (exec (.fdct 0 0) (withT0 (sparse [(0, 0x0064_0000)]))) =
    some (0x0011_5687, 0x0000_F396, false) := by decide +kernel

/-- V-DCT-2: saturation. -/
theorem test_fdct_saturates : seen (fun t => (t.tileElem 1 0, t.tileElem 1 9, t.ovf))
    (exec (.fdct 1 0) (withT0 (tileFrom fun _ => 0x8000_0000))) = some (0x8000_0000, 0, true) := by decide +kernel

/-- V-DCT-5: columns 0 and 7 of row 3. -/
theorem test_idct : seen (fun t => (t.tileElem 1 24, t.tileElem 1 31)) (exec (.idct 1 0) (withT0 (sparse [(1, 0x0008_0000)]))) =
    some (0x0001_6315, 0xFFFE_9CEB) := by decide +kernel

/-! ### Quantizer (V-Q) -/

/-- V-Q-1: ties and saturation (entries 16, 16, 1, 1, 99). -/
theorem test_qnt : seen (fun t => ([0, 1, 2, 3, 4].map fun e => t.tileElem 1 e, t.ovf))
    (exec (.qnt 1 0 .luma)
      { withT0 (sparse [(0, 0x0018_0000), (1, 0xFFE8_0000), (2, 0x7FFF_8000), (3, 0x0002_8000), (4, 0x1234_5678)]) with
        qtLuma := Vector.ofFn fun e => if e.val < 2 then 16 else if e.val < 4 then 1 else 99 }) =
    some ([2, 0xFFFF_FFFE, 32767, 2, 47], true) := by decide +kernel

/-- V-Q-1: no saturation, so OVF stays clear. -/
theorem test_qnt_no_overflow : seen (fun t => (t.tileElem 1 0, t.ovf))
    (exec (.qnt 1 0 .luma) { withT0 (sparse [(0, 0x7FFF_7FFF)]) with qtLuma := Vector.replicate 64 1 }) =
    some (32767, false) := by decide +kernel

/-- V-Q-2. -/
theorem test_dqnt : seen (fun t => ([0, 1, 2, 3].map fun e => t.tileElem 1 e, t.ovf))
    (exec (.dqnt 1 0 .luma)
      { withT0 (sparse [(0, 2047), (1, 2048), (2, 0xFFFF_F7FF), (3, 0xFFFF_FFFB)]) with
        qtLuma := Vector.ofFn fun e => if e.val < 3 then 16 else 11 }) =
    some ([0x7FF0_0000, 0x7FFF_FFFF, 0x8000_0000, 0xFFC9_0000], true) := by decide +kernel

/-! ### Zigzag and run-length (V-ZZ, V-RLE) -/

/-- V-ZZ-1. -/
theorem test_zzs : seen (fun t => (List.finRange 64).map fun e => (t.tileElem 1 e).toNat)
    (exec (.zzs 1 0) (withT0 (tileFrom fun e => BitVec.ofNat 32 e.val))) =
    some ([0, 1, 8, 16, 9, 2, 3, 10, 17, 24, 32, 25, 18, 11, 4, 5] ++
      [12, 19, 26, 33, 40, 48, 41, 34, 27, 20, 13, 6, 7, 14, 21, 28] ++
      [35, 42, 49, 56, 57, 50, 43, 36, 29, 22, 15, 23, 30, 37, 44, 51] ++
      [58, 59, 52, 45, 38, 31, 39, 46, 53, 60, 61, 54, 47, 55, 62, 63]) := by decide +kernel

/-- V-ZZ-2. -/
theorem test_zzu : seen (fun t => (List.finRange 64).map fun e => (t.tileElem 0 e).toNat)
    (exec (.zzu 0 0) (withT0 (tileFrom fun e => BitVec.ofNat 32 e.val))) =
    some ([0, 1, 5, 6, 14, 15, 27, 28, 2, 4, 7, 13, 16, 26, 29, 42] ++
      [3, 8, 12, 17, 25, 30, 41, 43, 9, 11, 18, 24, 31, 40, 44, 53] ++
      [10, 19, 23, 32, 39, 45, 52, 54, 20, 22, 33, 38, 46, 51, 55, 60] ++
      [21, 34, 37, 47, 50, 56, 59, 61, 35, 36, 48, 49, 57, 58, 62, 63]) := by decide +kernel

/-- V-RLE-1. -/
theorem test_rle : seen (fun t => (dmemBytesAt t 0x10 11, t.rlePtr, t.ovf))
    (exec (.rle 0) { withT0 (sparse [(0, 5), (3, 0xFFFF_FFFD), (63, 7)]) with rlePtr := 0x10, rleLimit := 0x1B }) =
    some ([0x00, 0x03, 0x00, 0x00, 0x05, 0x02, 0xFF, 0xFD, 0x3B, 0x00, 0x07].map some, 0x1B, false) := by decide +kernel

/-- V-RLE-3. -/
theorem test_rle_saturates : seen (fun t => (dmemBytesAt t 0 8, t.ovf))
    (exec (.rle 0) { withT0 (sparse [(1, 0x0000_9C40), (2, 0xFFFF_63C0)]) with rleLimit := 0x100 }) =
    some ([0x00, 0x02, 0x01, 0x7F, 0xFF, 0x00, 0x80, 0x00].map some, true) := by decide +kernel

/-- V-RLE-4: runs past the end of the tile. -/
theorem test_rld : seen (fun t => ((List.finRange 64).filterMap fun e =>
      if t.tileElem 4 e = 0 then none else some (e.val, t.tileElem 4 e), t.rlePtr))
    (exec (.rld 4) { running with rleLimit := 11, dmem := writeBytes [] 0 [0, 3, 0x3C, 0, 1, 2, 0, 2, 5, 0, 3] }) =
    some ([(60, 1), (63, 2)], 11) := by decide +kernel

/-- V-ERR-1 h. -/
theorem test_rld_truncated : seen (fun t => (t.errCode, t.rlePtr))
    (exec (.rld 0) { running with rlePtr := 0x100, rleLimit := 0x101 }) = some (.eRleTrunc, 0x100) := by decide +kernel

/-! ### Channel pipeline (V-PIPE) -/

/-- V-DCT-3 and V-RLE-5: a plane of the one sample 100.0, padded with zeros, is the impulse tile. -/
theorem test_encc : seen (fun t => (dmemBytesAt t 64 62, t.rlePtr, t.tcount0, t.ovf))
    (exec (.encc 0#2 .luma) { onePixel with tcount0 := 0, dmem := writeBytes [] 4 [0, 0x64, 0, 0] }) =
    some (impulseRecord.map some, 126, 1, false) := by decide +kernel

/-- V-PIPE-4: the stream is full; PC and ERRPC are exact. -/
theorem test_encc_full : seen (fun t => (t.errCode, t.errPc, t.pc, t.isErr, t.tcount0))
    (exec (.encc 0#2 .luma)
      { onePixel with tcount0 := 0, rleLimit := 125, dmem := writeBytes [] 4 [0, 0x64, 0, 0] }) =
    some (.eRleFull, 0, 0, true, 0) := by decide +kernel

/-- V-DCT-3: the impulse record decodes to a tile whose element 0 is 0x004A_08AC; the rest is cropped. -/
theorem test_decc : seen (fun t => (readWord t.dmem 4, t.rlePtr, t.ovf, t.dmem.length))
    (exec (.decc 0#2 .luma) { onePixel with dmem := writeBytes [] 64 impulseRecord }) =
    some (some 0x004A_08AC, 126, false, 66) := by decide +kernel

/-- V-PIPE-3. -/
theorem test_decc_tcount : seen (fun t => t.errCode) (exec (.decc 0#2 .luma) { onePixel with width := 16 }) =
    some .eTCount := by decide +kernel

/-! ### The host -/

/-- 60_exceptions.md R260: the numbers of the error codes, in the table's order. -/
theorem test_error_codes :
    [ErrCode.eNone, .eIllegal, .eDim, .eAddr, .eAlign, .eQtZero, .eTIdx, .eTCount, .eRleFull, .eRleTrunc, .ePcRange,
      .eAborted].map (·.code.toNat) = [0, 1, 2, 3, 4, 5, 6, 7, 8, 9, 10, 11] := by decide

/-- 10_state.md R39, 60_exceptions.md R268: both bits of CTRL written while busy. -/
theorem test_start_and_abort_while_busy : seen (fun t => (t.hacc, t.abortPend, t.busy))
    (step { running with host := [.access (.write .word 0x008 3)] }) = some (true, true, true) := by decide +kernel

/-- 10_state.md R47: STATUS is read as it is while busy. -/
theorem test_host_polls_status : seen (fun t => (t.resp, t.hacc))
    (step { running with host := [.access (.read .word 0x00C)] }) = some (.readOk 1, false) := by decide +kernel

/-- 10_state.md R37. -/
theorem test_host_reads_id : seen (fun t => t.resp) (step { resting with host := [.access (.read .word 0x000)] }) =
    some (.readOk 0x4243_4131) := by decide +kernel

/-- 20_memory.md R75: a DMEM word is big-endian. -/
theorem test_host_writes_dmem : seen (fun t => dmemBytesAt t 8 4)
    (step { resting with host := [.access (.write .word 0x100_0008 0x1122_3344)] }) =
    some [some 0x11, some 0x22, some 0x33, some 0x44] := by decide +kernel

/-- 20_memory.md R73. -/
theorem test_host_subword : seen (fun t => t.resp) (step { resting with host := [.access (.read .half 0x000)] }) =
    some .slverr := by decide +kernel

/-- 10_state.md R46. -/
theorem test_host_locked_out : seen (fun t => (t.hacc, t.width))
    (step { running with host := [.access (.write .word 0x024 5)] }) = some (true, 0) := by decide +kernel

/-- V-SEQ-7. -/
theorem test_irq : ({ resting with isDone := true, errIe := true } : State).irq = false ∧
    ({ resting with isDone := true, errIe := true, doneIe := true } : State).irq = true := by decide +kernel

/-! ### Witnesses: the hypotheses of each statement can be met -/

/-- A region is written where each of its bytes is. -/
theorem regionWritten_of {m : Memory} {r : Region} (h : ∀ k < r.hi - r.lo, (cellRead m (r.lo + k)).isSome = true) :
    regionWritten m r := by
  intro a h1 h2
  obtain ⟨b, hb⟩ := Option.isSome_iff_exists.1 (h (a - r.lo) (by omega))
  exact ⟨b, by rwa [show r.lo + (a - r.lo) = a by omega] at hb⟩

theorem onePixel_ready (c : Channel) : PlaneReady c onePixel := by
  cases c <;> exact ⟨by decide, by decide, by decide, by decide⟩

theorem onePixel_pixels : PixelsReady onePixel := by unfold PixelsReady; decide

theorem onePixel_table (t : TableSel) : TableReady t onePixel := by cases t <;> unfold TableReady <;> decide +kernel

theorem onePixel_written (c : Channel) : regionWritten onePixel.dmem (onePixel.plane c).region := by
  cases c <;> exact regionWritten_of (by decide +kernel)

theorem onePixel_stream (c : Channel) : (onePixel.plane c).region.Disjoint onePixel.streamRegion := by
  cases c <;> exact .inl (by decide)

theorem onePixel_pix (c : Channel) : onePixel.pixRegion.Disjoint (onePixel.plane c).region := by
  cases c <;> exact .inl (by decide)

theorem onePixel_planes : ∀ c d : Channel, c ≠ d → (onePixel.plane c).region.Disjoint (onePixel.plane d).region := by
  intro c d h
  cases c <;> cases d <;> first | exact absurd rfl h | exact .inl (by decide) | exact .inr (by decide)

/-- A running machine about to execute NOP meets the invariant and steps. -/
theorem witness_StepKeepsTheInvariant : ∃ s t, Inv s ∧ step s = .next t ∧ s.busy = true ∧ t.busy = true :=
  ⟨{ running with cmdmem := [(0, 0x0400_0000)] }, { running with cmdmem := [(0, 0x0400_0000)], pc := 1 },
    { legal := by decide, dmemWf := List.Pairwise.nil, dmemBelow := fun _ h => absurd h (List.not_mem_nil),
      cmdWf := List.pairwise_singleton _ _, cmdBelow := fun c h => by
        rw [List.mem_singleton.1 h]; decide,
      idleNoAbort := by decide, busyNoErr := by decide, noErrClear := by decide, errHasCode := by decide,
      lowIdle := by decide }, rfl, rfl, rfl⟩

theorem witness_ResetMeetsTheInvariant : Params.standard.Legal ∧ ({ dmemBytes := 0, nCmd := 1 } : Params).Legal ∧
    ({ dmemBytes := 0x0100_0000, nCmd := 4096 } : Params).Legal := by decide

theorem witness_DecodeOfEncodeIsIdentity : (Instr.ldt 7 2#2 true).wellFormed = true ∧
    (Instr.decc 0#2 .chroma).wellFormed = true ∧ (Instr.qnt 7 0 .luma).wellFormed = true := by decide

theorem witness_EncodeOfDecodeIsIdentity : decode 0x1439_0000 = .ok (.stt 3 2#2 true) := by decide

/-- At the last index of CMDMEM, without and with an event. -/
theorem witness_StepRunsTheDecodedCommand :
    let s : State := { running with pc := 15, cmdmem := [(15, 0x0800_0000)] }
    let u : State := { s with host := [.sequencer] }
    (s.busy = true ∧ s.abortPend = false ∧ s.pc.toNat < s.params.nCmd ∧ cellRead s.cmdmem s.pc.toNat = some 0x0800_0000 ∧
      decode 0x0800_0000 = .ok .ccf ∧ s.host = []) ∧
    (u.busy = true ∧ u.abortPend = false ∧ u.pc.toNat < u.params.nCmd ∧ u.host = .sequencer :: []) := by decide

/-- One state for each way to stop: idle, abort, PC at N_CMD, PC just below it with nothing there or an illegal word. -/
theorem witness_StepStopsBeforeExecuting :
    (resting.host = [] ∧ resting.busy = false) ∧
    ({ running with abortPend := true } : State).busy = true ∧
    ({ running with pc := 16 } : State).params.nCmd ≤ ({ running with pc := 16 } : State).pc.toNat ∧
    ({ running with pc := 15 } : State).pc.toNat < running.params.nCmd ∧ cellRead running.cmdmem 15 = none ∧
    cellRead ({ running with pc := 15, cmdmem := [(15, 0x380E_0000)] } : State).cmdmem 15 = some 0x380E_0000 ∧
    decode 0x380E_0000 = .error .reservedChannel := by decide

theorem witness_EveryRunStops : running.params.Legal ∧ running.host = [] ∧ running.busy = true := by decide

/-- Each clause at the edge of its range: a plane one word too long, one that just fits, a tile index equal to the count. -/
theorem witness_TileTransfersCheckInOrder :
    (({ onePixel with width := 0 } : State).width.toNat = 0 ∧ ({ onePixel with height := 0 } : State).height.toNat = 0) ∧
    (onePixel.width.toNat ≠ 0 ∧ onePixel.height.toNat ≠ 0 ∧
      (({ onePixel with planeBase0 := 2 } : State).planeBase .y).toNat % 4 ≠ 0) ∧
    ((({ onePixel with planeBase0 := 4096 } : State).planeBase .y).toNat % 4 = 0 ∧
      onePixel.params.dmemBytes < (({ onePixel with planeBase0 := 4096 } : State).planeBase .y).toNat + 4 * (1 * 1)) ∧
    ((({ onePixel with planeBase0 := 4092 } : State).planeBase .y).toNat + 4 * (1 * 1) ≤ onePixel.params.dmemBytes ∧
      ceil8 onePixel.width.toNat * ceil8 onePixel.height.toNat ≤ ({ onePixel with tidx := 1 } : State).tidx.toNat) := by
  decide

theorem witness_ColorConvertersCheckInOrder :
    (({ onePixel with height := 0 } : State).height.toNat = 0) ∧
    (∃ c, (({ onePixel with planeBase2 := 2 } : State).planeBase c).toNat % 4 ≠ 0) ∧
    ((∀ c, (onePixel.planeBase c).toNat % 4 = 0) ∧
      onePixel.params.dmemBytes < ({ onePixel with pixBase := 4094 } : State).pixBase.toNat + 3 * (1 * 1) ∧
      onePixel.params.dmemBytes < (({ onePixel with planeBase1 := 4096 } : State).planeBase .cb).toNat + 4 * (1 * 1)) :=
  ⟨by decide, ⟨.cr, by decide⟩, by intro c; cases c <;> decide, by decide, by decide⟩

theorem witness_QuantizerRefusesAZeroEntry :
    (({ running with qtChroma := running.qtChroma.set 63 0 } : State).qt .chroma)[(63 : Fin 64)] = 0#16 := by decide +kernel

/-- The limit one byte above DMEM; a record one byte too long; two bytes and three bytes missing. -/
theorem witness_StreamCommandsCheckInOrder :
    running.params.dmemBytes < ({ running with rleLimit := 4097 } : State).rleLimit.toNat ∧
    (({ withT0 (sparse []) with rleLimit := 4 } : State).rleLimit.toNat ≤ 4096 ∧
      4 < 0 + (2 + 3 * (pairs ((withT0 (sparse [])).readTile 0)).length)) ∧
    ({ running with rleLimit := 1 } : State).rleLimit.toNat < 0 + 2 ∧
    (readBE (writeBytes [] 0 [0, 1]) 0 2 = some 1 ∧ ({ running with rleLimit := 4 } : State).rleLimit.toNat < 0 + (2 + 3 * 1)) := by
  decide +kernel

theorem witness_ChannelPassesCheckInOrder :
    (({ onePixel with width := 0 } : State).width.toNat = 0) ∧
    ((({ onePixel with planeBase0 := 1 } : State).planeBase .y).toNat % 4 ≠ 0) ∧
    (onePixel.params.dmemBytes < (({ onePixel with planeBase0 := 4096 } : State).planeBase .y).toNat + 4 * (1 * 1) ∧
      onePixel.params.dmemBytes < ({ onePixel with rleLimit := 4097 } : State).rleLimit.toNat) ∧
    (PlaneReady .y { onePixel with qtLuma := onePixel.qtLuma.set 63 0 } ∧ onePixel.rleLimit.toNat ≤ 4096 ∧
      ∃ e : Fin 64, (({ onePixel with qtLuma := onePixel.qtLuma.set 63 0 } : State).qt .luma)[e] = 0#16) ∧
    (TableReady .luma onePixel ∧ (({ onePixel with tcount0 := 2 } : State).tcount .y).toNat ≠ ceil8 1 * ceil8 1) :=
  ⟨by decide, by decide, by decide, ⟨⟨by decide, by decide, by decide, by decide⟩, by decide, 63, by decide +kernel⟩,
    onePixel_table _, by decide⟩

theorem witness_ReservedChannelIsIllegal : decode 0x1009_0000 = .ok (.ldt 0 2#2 true) := by decide

/-- END; an error; a stream error of each channel pass. -/
theorem witness_AStoppedCommandHadNoEffect :
    (∃ t, exec .endList running = .next t ∧ t.busy = false) ∧
    (∃ t, exec (.ldt 0 0#2 true) running = .next t ∧ t.busy = false) ∧
    (∃ t, exec (.encc 0#2 .luma) { onePixel with rlePtr := 254 } = .next t ∧ t.busy = false) ∧
    (∃ t, exec (.decc 0#2 .luma) { onePixel with rlePtr := 257 } = .next t ∧ t.busy = false) :=
  ⟨next_of_nextBusy (by decide +kernel), next_of_nextBusy (by decide +kernel), next_of_nextBusy (by decide +kernel),
    next_of_nextBusy (by decide +kernel)⟩

/-- A zero plane of nine samples at 4; at 64 the record of one pair (0, 5) and the start of another record. -/
def twoTilesMem : Memory := writeBytes [] 4 (List.replicate 60 0 ++ [0, 1, 0, 0, 5, 0, 1, 0])

/-- An image of two tiles, nine samples in one row, with the stream from 64 up to `limit`. -/
def twoTiles (limit : Word) : State :=
  { running with width := 9, height := 1, planeBase0 := 4, rlePtr := 64, rleLimit := limit, tcount0 := 2,
                 dmem := twoTilesMem }

theorem twoTiles_plane (limit : Word) : (twoTiles limit).plane .y = { base := 4, w := 9, h := 1 } := rfl

theorem twoTiles_rlePtr (limit : Word) : (twoTiles limit).rlePtr.toNat = 64 := rfl

theorem twoTiles_rleLimit (limit : Word) : (twoTiles limit).rleLimit = limit := rfl

/-- What the statement asks of the whole command. -/
theorem twoTiles_ready {limit : Word} (h : limit.toNat ≤ 4096) :
    PlaneReady .y (twoTiles limit) ∧ TableReady .luma (twoTiles limit) ∧
    (twoTiles limit).rleLimit.toNat ≤ (twoTiles limit).params.dmemBytes ∧
    ((twoTiles limit).plane .y).region.Disjoint (twoTiles limit).streamRegion ∧
    1 < ceil8 (twoTiles limit).width.toNat * ceil8 (twoTiles limit).height.toNat ∧
    ((twoTiles limit).tcount .y).toNat = ceil8 (twoTiles limit).width.toNat * ceil8 (twoTiles limit).height.toNat :=
  ⟨⟨(by decide : (9#32) ≠ 0), (by decide : (1#32) ≠ 0), (by decide : (4#32).toNat % 4 = 0),
    (by decide : (4#32).toNat + 4 * ((9#32).toNat * (1#32).toNat) ≤ 4096)⟩, onePixel_table .luma, h,
    .inl (by decide : (4#32).toNat + 4 * ((9#32).toNat * (1#32).toNat) ≤ (64#32).toNat),
    (by decide : 1 < ceil8 (9#32).toNat * ceil8 (1#32).toNat),
    (by decide : (2#32).toNat = ceil8 (9#32).toNat * ceil8 (1#32).toNat)⟩

/-- The record ENCC writes for a tile of zeros, with the luma table of reset. -/
def zeroTileRecord : List Byte := record (pairs (scan (qnt (fdct (sparse [])) running.qtLuma)))

theorem zeroTileRecord_length : 5 ≤ zeroTileRecord.length ∧ zeroTileRecord.length ≤ 194 := by
  have h := pairs_length (scan (qnt (fdct (sparse [])) running.qtLuma))
  simp only [zeroTileRecord, record_length, recordSize]
  omega

/-- ENCC at its second tile: the first record ends at RLE_LIMIT, so that nothing is left for the second. -/
theorem witness_MidCommandStreamErrors_ENCC :
    ∃ limit : Word, limit.toNat ≤ 4096 ∧
      partition (twoTiles limit).dmem ((twoTiles limit).plane .y) 0 = some (sparse []) ∧
      partition (twoTiles limit).dmem ((twoTiles limit).plane .y) 1 = some (sparse []) ∧
      (twoTiles limit).rlePtr.toNat + zeroTileRecord.length = (twoTiles limit).rleLimit.toNat ∧
      (twoTiles limit).rleLimit.toNat < (twoTiles limit).rlePtr.toNat + zeroTileRecord.length + zeroTileRecord.length := by
  have h := zeroTileRecord_length
  have hl : (BitVec.ofNat 32 (64 + zeroTileRecord.length)).toNat = 64 + zeroTileRecord.length := by
    rw [BitVec.toNat_ofNat]; omega
  have h0 : partition twoTilesMem { base := 4, w := 9, h := 1 } 0 = some (sparse []) := by decide +kernel
  have h1 : partition twoTilesMem { base := 4, w := 9, h := 1 } 1 = some (sparse []) := by decide +kernel
  refine ⟨BitVec.ofNat 32 (64 + zeroTileRecord.length), by omega, ?_, ?_, ?_, ?_⟩
  · rw [twoTiles_plane]; exact h0
  · rw [twoTiles_plane]; exact h1
  · rw [twoTiles_rlePtr, twoTiles_rleLimit, hl]
  · rw [twoTiles_rlePtr, twoTiles_rleLimit, hl]; omega

/-- ENCC at its first tile, with four bytes left for a record of five or more. -/
theorem witness_MidCommandStreamErrors_ENCC_first :
    (twoTiles 68).rleLimit.toNat < (twoTiles 68).rlePtr.toNat + zeroTileRecord.length := by
  have h := zeroTileRecord_length.1
  have h68 : (68 : Word).toNat = 68 := by decide
  rw [twoTiles_rlePtr, twoTiles_rleLimit, h68]; omega

/-- DECC at its first tile, and at its second: one byte missing for the count, or for the pair it announces. -/
theorem witness_MidCommandStreamErrors :
    (RecordsAt (twoTiles 65).dmem 65 (twoTiles 65).rlePtr.toNat [] 64 ∧ (twoTiles 65).rleLimit.toNat < 64 + 2) ∧
    RecordsAt (twoTiles 70).dmem 70 (twoTiles 70).rlePtr.toNat [sparse [(0, 5)]] 69 ∧
    (twoTiles 70).rleLimit.toNat < 69 + 2 ∧
    RecordsAt (twoTiles 73).dmem 73 (twoTiles 73).rlePtr.toNat [sparse [(0, 5)]] 69 ∧
    (69 + 2 ≤ (twoTiles 73).rleLimit.toNat ∧ readBE (twoTiles 73).dmem 69 2 = some 1 ∧
      (twoTiles 73).rleLimit.toNat < 69 + (2 + 3 * 1)) :=
  ⟨⟨rfl, by decide⟩, ⟨69, by decide +kernel, rfl⟩, by decide, ⟨69, by decide +kernel, rfl⟩, by decide +kernel⟩

/-- The buffer's last byte in a plane; two planes at one place; a plane whose last byte is the stream's first. -/
theorem witness_OverlapIsAModelFault :
    let s : State := { onePixel with pixBase := 2 }
    let u : State := { onePixel with planeBase1 := 12 }
    let v : State := { onePixel with rlePtr := 7 }
    ((∀ c, PlaneReady c s) ∧ PixelsReady s ∧ s.pixRegion.overlaps (s.plane .y).region = true) ∧
    ((∀ c, PlaneReady c u) ∧ PixelsReady u ∧ (u.plane .cb).region.overlaps (u.plane .cr).region = true) ∧
    ((∀ c, PlaneReady c v) ∧ PixelsReady v ∧ v.rleLimit.toNat ≤ v.params.dmemBytes ∧ TableReady .luma v ∧
      (v.plane .y).region.overlaps v.streamRegion = true ∧ (v.tcount .y).toNat = v.tileCount) := by
  refine ⟨⟨?_, ?_, by decide⟩, ⟨?_, ?_, by decide⟩, ?_, ?_, by decide, onePixel_table .luma, by decide, by decide⟩
  · intro c; cases c <;> exact ⟨by decide, by decide, by decide, by decide⟩
  · unfold PixelsReady; decide
  · intro c; cases c <;> exact ⟨by decide, by decide, by decide, by decide⟩
  · unfold PixelsReady; decide
  · intro c; cases c <;> exact ⟨by decide, by decide, by decide, by decide⟩
  · unfold PixelsReady; decide

theorem witness_CcfConvertsEveryPixel :
    (∀ c, PlaneReady c onePixel) ∧ PixelsReady onePixel ∧
    (∀ c, onePixel.pixRegion.Disjoint (onePixel.plane c).region) ∧
    (∀ c d, c ≠ d → (onePixel.plane c).region.Disjoint (onePixel.plane d).region) ∧
    regionWritten onePixel.dmem onePixel.pixRegion ∧ 0 < onePixel.width.toNat * onePixel.height.toNat ∧
    cellRead onePixel.dmem 0 = some 255 ∧ cellRead onePixel.dmem 1 = some 0 ∧ cellRead onePixel.dmem 2 = some 0 :=
  ⟨onePixel_ready, onePixel_pixels, onePixel_pix, onePixel_planes, regionWritten_of (by decide), by decide, by decide,
    by decide, by decide⟩

theorem witness_CciConvertsEveryPixel :
    (∀ c, PlaneReady c onePixel) ∧ PixelsReady onePixel ∧
    (∀ c, onePixel.pixRegion.Disjoint (onePixel.plane c).region) ∧
    (∀ c, regionWritten onePixel.dmem (onePixel.plane c).region) ∧
    readWord onePixel.dmem 4 = some 0x004C_0000 ∧ readWord onePixel.dmem 8 = some 0x0055_0000 ∧
    readWord onePixel.dmem 12 = some 0x00FF_0000 :=
  ⟨onePixel_ready, onePixel_pixels, onePixel_pix, onePixel_written, by decide, by decide, by decide⟩

/-- Tile 0 of 1: one element in the plane, the next in the padding. -/
theorem witness_LdtLoadsTheTile :
    PlaneReady .y onePixel ∧ onePixel.tidx.toNat < ceil8 onePixel.width.toNat * ceil8 onePixel.height.toNat ∧
    regionWritten onePixel.dmem (onePixel.plane .y).region ∧ (0 < onePixel.height.toNat ∧ 0 < onePixel.width.toNat) ∧
    ¬(0 < onePixel.height.toNat ∧ 1 < onePixel.width.toNat) :=
  ⟨onePixel_ready .y, by decide, onePixel_written .y, by decide, by decide⟩

theorem witness_SttStoresTheTile :
    PlaneReady .cr onePixel ∧ onePixel.tidx.toNat < ceil8 onePixel.width.toNat * ceil8 onePixel.height.toNat ∧
    (0 < onePixel.height.toNat ∧ 0 < onePixel.width.toNat) ∧
    (∀ e a, (onePixel.plane .cr).elemAddr 0 e = some a → 16 < a ∨ a + 4 ≤ 16) := by
  refine ⟨onePixel_ready .cr, by decide, by decide, fun e a h => .inr ?_⟩
  have := Plane.elemAddr_region h
  have h2 : (onePixel.plane .cr).region.hi = 16 := by decide
  omega

theorem witness_QntDividesAndRounds : TableReady .luma running ∧ TableReady .chroma running := by
  constructor <;> unfold TableReady <;> decide +kernel

theorem witness_DqntMultiplies : TableReady .luma { running with qtLuma := Vector.replicate 64 65535 } := by
  unfold TableReady; decide +kernel

/-- Positions 0 and 63 of the walk are reached. -/
theorem witness_ZigzagMovesElements : izTable[elemAt 0 0] = 0 ∧ izTable[elemAt 0 2] = 5 ∧ izTable[elemAt 7 7] = 63 := by
  decide

/-- The record exactly fits. -/
theorem witness_RleAppendsTheRecord :
    let s : State := { withT0 (sparse []) with rlePtr := 64, rleLimit := 69 }
    s.rleLimit.toNat ≤ s.params.dmemBytes ∧ s.rlePtr.toNat + (2 + 3 * (pairs (s.readTile 0)).length) ≤ s.rleLimit.toNat := by
  decide +kernel

/-- An all-zero sequence, and one that is not. -/
theorem witness_PairsDescribeTheSequence :
    (∀ v ∈ (sparse []).toList.map fun w => sat 16 w.toInt, v = 0) ∧
    (∃ v ∈ (sparse [(63, 1)]).toList.map fun w => sat 16 w.toInt, v ≠ 0) := by decide +kernel

theorem witness_RecordHasTheSpecifiedBytes : [((63 : Nat), (-32768 : Int))].length < 65536 := by decide

/-- One pair, the record ending at RLE_LIMIT; and a record of no pair. -/
theorem witness_RldDecodesTheRecord :
    let s : State := { running with rleLimit := 5, dmem := writeBytes [] 0 [0, 1, 63, 0x80, 0] }
    (s.rleLimit.toNat ≤ s.params.dmemBytes ∧ 0 + (2 + 3 * 1) ≤ s.rleLimit.toNat ∧ readBE s.dmem 0 2 = some 1 ∧
      ∀ j < 1, cellRead s.dmem (0 + 2 + 3 * j) = some 63 ∧ readBE s.dmem (0 + 3 + 3 * j) 2 = some (0x8000#16).toNat) ∧
    readBE (writeBytes [] 0 [0, 0]) 0 2 = some 0 := by decide

/-- One tile; the records fit in 194 bytes whatever the tile holds. -/
theorem witness_EnccWritesTheChannelStream :
    ∃ x : Tile, PlaneReady .y onePixel ∧ TableReady .luma onePixel ∧
      onePixel.rleLimit.toNat ≤ onePixel.params.dmemBytes ∧
      (onePixel.plane .y).region.Disjoint onePixel.streamRegion ∧
      [x].length = ceil8 onePixel.width.toNat * ceil8 onePixel.height.toNat ∧
      (∀ i (h : i < [x].length), partition onePixel.dmem (onePixel.plane .y) i = some [x][i]) ∧
      onePixel.rlePtr.toNat +
        ([x].flatMap fun x => record (pairs (scan (qnt (fdct x) (onePixel.qt .luma))))).length ≤ onePixel.rleLimit.toNat := by
  refine ⟨sparse [(0, 0x004C_0000)], onePixel_ready .y, onePixel_table .luma, by decide, onePixel_stream .y, by decide,
    ?_, ?_⟩
  · intro i h
    have hi : i = 0 := by simp only [List.length_singleton] at h; omega
    subst hi
    have h0 : partition onePixel.dmem (onePixel.plane .y) 0 = some (sparse [(0, 0x004C_0000)]) := by decide +kernel
    exact h0
  · have h := (pairs_length (scan (qnt (fdct (sparse [(0, 0x004C_0000)])) (onePixel.qt .luma)))).2
    simp only [List.flatMap_singleton, record_length, recordSize]
    have h1 : onePixel.rlePtr.toNat = 64 := by decide
    have h2 : onePixel.rleLimit.toNat = 258 := by decide
    omega

/-- One record ending at RLE_LIMIT. -/
theorem witness_DeccWritesThePlane :
    let s : State := { onePixel with rleLimit := 69, dmem := writeBytes onePixel.dmem 64 [0, 1, 0, 0, 5] }
    ∃ v : Tile, PlaneReady .y s ∧ TableReady .luma s ∧ s.rleLimit.toNat ≤ s.params.dmemBytes ∧
      (s.plane .y).region.Disjoint s.streamRegion ∧
      (s.tcount .y).toNat = ceil8 s.width.toNat * ceil8 s.height.toNat ∧
      [v].length = ceil8 s.width.toNat * ceil8 s.height.toNat ∧
      RecordsAt s.dmem s.rleLimit.toNat s.rlePtr.toNat [v] 69 :=
  ⟨sparse [(0, 5)], ⟨by decide, by decide, by decide, by decide⟩, onePixel_table .luma, by decide, .inl (by decide),
    by decide, by decide, 69, by decide +kernel, rfl⟩

theorem witness_CommandsKeepTheConfiguration : ∃ t, exec (.fdct 1 0) running = .next t ∧ t.busy = true :=
  ⟨_, rfl, rfl⟩

/-- A completed command of each shape, and one stopped by the table. -/
theorem witness_TileCommandFrame :
    (∃ t, exec (.idct 1 0) running = .next t ∧ t.busy = true) ∧ (∃ t, exec (.zzs 0 0) running = .next t ∧ t.busy = true) ∧
    (∃ t, exec (.qnt 1 0 .luma) { running with qtLuma := Vector.replicate 64 0 } = .next t ∧ t.busy = false) :=
  ⟨⟨_, rfl, rfl⟩, ⟨_, rfl, rfl⟩, next_of_nextBusy (by decide +kernel)⟩

theorem witness_TileLoadFrame :
    (∃ t, exec (.ldt 7 0#2 true) onePixel = .next t ∧ t.busy = true) ∧
    (∃ t, exec (.rld 7) { onePixel with rlePtr := 6 } = .next t ∧ t.busy = true) ∧
    (∃ t, exec (.ldt 7 3#2 true) onePixel = .next t ∧ t.busy = false) :=
  ⟨next_of_nextBusy (by decide +kernel), next_of_nextBusy (by decide +kernel), next_of_nextBusy (by decide +kernel)⟩

theorem witness_TileStoreFrame :
    (∃ t, exec (.stt 0 2#2 false) onePixel = .next t ∧ t.busy = true) ∧
    (∃ t, exec (.rle 0) { withT0 (sparse []) with rleLimit := 5 } = .next t ∧ t.busy = true) :=
  ⟨next_of_nextBusy (by decide +kernel), next_of_nextBusy (by decide +kernel)⟩

theorem witness_ColorConverterFrame :
    (∃ t, exec .ccf onePixel = .next t ∧ t.busy = true) ∧ (∃ t, exec .cci onePixel = .next t ∧ t.busy = true) :=
  ⟨next_of_nextBusy (by decide +kernel), next_of_nextBusy (by decide +kernel)⟩

/-- A completed pass of each kind; the record of V-ERR-1 g is the stream of DECC. -/
theorem witness_ChannelPassFrame :
    (∃ t, exec (.encc 0#2 .luma) { onePixel with dmem := writeBytes [] 4 [0, 0, 0, 0] } = .next t ∧ t.busy = true) ∧
    (∃ t, exec (.decc 0#2 .luma) { onePixel with dmem := writeBytes [] 64 [0, 1, 0, 0, 0] } = .next t ∧ t.busy = true) :=
  ⟨next_of_nextBusy (by decide +kernel), next_of_nextBusy (by decide +kernel)⟩

/-- Going on, ending, stopping with an error. -/
theorem witness_PcAdvancesByOneOrStays :
    running.busy = true ∧ (∃ t, exec .nop running = .next t ∧ t.busy = true) ∧
    (∃ t, exec .endList running = .next t ∧ t.busy = false) ∧ (∃ t, exec .ccf running = .next t ∧ t.busy = false) :=
  ⟨rfl, ⟨_, rfl, rfl⟩, ⟨_, rfl, rfl⟩, next_of_nextBusy (by decide +kernel)⟩

theorem witness_AStopSetsOneInterruptBit :
    (∃ t, step { running with cmdmem := [(0, 0x0400_0000)] } = .next t ∧ t.busy = true) ∧
    (∃ t, step { running with cmdmem := [(0, 0)] } = .next t ∧ t.busy = false) ∧
    (∃ t, step { running with abortPend := true } = .next t ∧ t.busy = false) :=
  ⟨next_of_nextBusy (by decide +kernel), next_of_nextBusy (by decide +kernel), next_of_nextBusy (by decide +kernel)⟩

/-- Ties on both sides of zero (V-Q-1). -/
theorem witness_RneIsNearestTiesToEven : (0 : Int) < 2 ∧ 2 * |2 * rne 3 2 - 3| = 2 ∧ 2 * |2 * rne (-3) 2 - -3| = 2 := by decide

/-- Both ends of the 16-bit range with a table of ones. -/
theorem witness_RequantizationIsExact :
    let s : State := { withT0 (sparse [(0, 32767), (1, 0xFFFF_8000)]) with qtLuma := Vector.replicate 64 1 }
    TableReady .luma s ∧ ∀ e, -32768 ≤ (s.tileElem 0 e).toInt ∧ (s.tileElem 0 e).toInt ≤ 32767 ∧
      -32768 ≤ (s.tileElem 0 e).toInt * ((s.qt .luma)[e].toNat : Int) ∧
      (s.tileElem 0 e).toInt * ((s.qt .luma)[e].toNat : Int) ≤ 32767 := by
  refine ⟨?_, by decide +kernel⟩
  unfold TableReady
  decide +kernel

theorem witness_QuantizationErrorIsHalfAStep :
    let x := sparse [(0, 0x0018_0000)]
    let q : QTable := Vector.replicate 64 16
    (∀ e : Fin 64, q[e] ≠ 0#16) ∧ qntOvf x q = false ∧ dqntOvf (qnt x q) q = false := by decide +kernel

theorem witness_TransformCornerCases :
    ∀ e : Fin 64, |(sparse [(0, 0x0FFF_0000), (63, 0xF001_0000)])[e].toInt| ≤ 4095 * 2 ^ 16 := by decide +kernel

theorem witness_ColorRoundTripWithinOne : (0 : Int) ≤ 255 ∧ (255 : Int) ≤ 255 ∧ (0 : Int) ≤ 0 := by decide

/-- The record exactly fits; every element is a 16-bit value. -/
theorem witness_RunLengthRoundTrip :
    let s : State := { withT0 (sparse [(0, 32767), (63, 0xFFFF_8000)]) with rlePtr := 64, rleLimit := 72 }
    s.rleLimit.toNat ≤ s.params.dmemBytes ∧
    s.rlePtr.toNat + (2 + 3 * (pairs (s.readTile 0)).length) ≤ s.rleLimit.toNat ∧
    ∀ e, -32768 ≤ (s.tileElem 0 e).toInt ∧ (s.tileElem 0 e).toInt ≤ 32767 := by decide +kernel

theorem witness_EnccEqualsRepeatedEnct :
    let s : State := { onePixel with dmem := writeBytes [] 4 [0, 0, 0, 0] }
    s.busy = true ∧ ∃ u, exec (.encc (channelField .y) .luma) s = .next u ∧ u.busy = true :=
  ⟨rfl, witness_ChannelPassFrame.1⟩

theorem witness_DeccEqualsRepeatedDect :
    let s : State := { onePixel with dmem := writeBytes [] 64 [0, 1, 0, 0, 0] }
    s.busy = true ∧ ∃ u, exec (.decc (channelField .y) .luma) s = .next u ∧ u.busy = true :=
  ⟨rfl, witness_ChannelPassFrame.2⟩

/-- START, ABORT, both, and neither, busy and idle. -/
theorem witness_CtrlWritesStartAndAbort :
    resting.rstN = true ∧ resting.busy = false ∧ running.rstN = true ∧ running.busy = true ∧
    ((0x1#32).getLsbD 0 = true ∧ (0x1#32).getLsbD 1 = false) ∧ ((0x2#32).getLsbD 0 = false ∧ (0x2#32).getLsbD 1 = true) ∧
    ((0x3#32).getLsbD 0 = true ∧ (0x3#32).getLsbD 1 = true) ∧
    ((0xFFFF_FFFC#32).getLsbD 0 = false ∧ (0xFFFF_FFFC#32).getLsbD 1 = false) := by decide

/-- A configuration CSR, the last reserved CSR, and the first word of each window. -/
theorem witness_BusyLocksTheHostOut :
    running.rstN = true ∧ running.busy = true ∧ accessTarget running.params .word 0x024 = some (.csr .width) ∧
    accessTarget running.params .word 0x0FC = some (.csr .reserved) ∧
    accessTarget running.params .word 0x400 = some (.qt .luma 0) ∧
    accessTarget running.params .word 0x800 = some (.tile 0 0) ∧ accessTarget running.params .word 0x4000 = some (.cmd 0) ∧
    accessTarget running.params .word 0x100_0000 = some (.dmem 0) := by decide

theorem witness_CsrMapReadsAndWrites : resting.rstN = true ∧ resting.busy = false ∧ running.rstN = true ∧
    running.busy = true := by decide

/-- The last word of CMDMEM and of DMEM, written and unwritten. -/
theorem witness_HostWindowsReachTheState :
    let s : State := { resting with cmdmem := [(15, 0)], dmem := writeBytes [] 4092 [1, 2, 3, 4] }
    s.rstN = true ∧ s.busy = false ∧ (15 < s.params.nCmd ∧ 15 < 4096) ∧ cellRead s.cmdmem 15 = some 0 ∧
    cellRead s.cmdmem 14 = none ∧ (4 * 1023 < s.params.dmemBytes ∧ 4 * 1023 < 0x100_0000) ∧
    (cellRead s.dmem (4 * 1023) = some 1 ∧ cellRead s.dmem (4 * 1023 + 1) = some 2 ∧
      cellRead s.dmem (4 * 1023 + 2) = some 3 ∧ cellRead s.dmem (4 * 1023 + 3) = some 4) ∧
    ∃ j < 4, cellRead s.dmem (4 * 1022 + j) = none := by decide

/-- Each kind of refused access at an edge of its range. -/
theorem witness_BusErrorsChangeNothing :
    resting.rstN = true ∧ AccessSize.half ≠ .word ∧ (0x002#25).toNat % 4 ≠ 0 ∧
    (0x100 ≤ (0x3FC#25).toNat ∧ (0x3FC#25).toNat < 0x400) ∧ (0x600 ≤ (0x7FC#25).toNat ∧ (0x7FC#25).toNat < 0x800) ∧
    (0x1000 ≤ (0x1000#25).toNat ∧ (0x1000#25).toNat < 0x4000) ∧
    (0x4000 ≤ (0x4040#25).toNat ∧ (0x4040#25).toNat < 0x8000 ∧ resting.params.nCmd ≤ ((0x4040#25).toNat - 0x4000) / 4) ∧
    (0x8000 ≤ (0xFF_FFFC#25).toNat ∧ (0xFF_FFFC#25).toNat < 0x100_0000) ∧
    (0x100_0000 ≤ (0x100_1000#25).toNat ∧ resting.params.dmemBytes ≤ (0x100_1000#25).toNat - 0x100_0000) := by decide

theorem witness_InterruptLineAndItsRegisters : resting.rstN = true := by decide

theorem witness_ResetPinLeavesTheResetState :
    ({ running with host := [.resetLow] } : State).host = [.resetLow] ∧
    ({ resting with rstN := false } : State).rstN = false ∧
    ({ resting with rstN := false, host := [.access (.read .word 0)] } : State).host = [.access (.read .word 0)] ∧
    ({ resting with rstN := false, host := [.resetHigh] } : State).host = [.resetHigh] := by decide

end Sys2Proof.Machine
end

section
/-! Rounding (00_scope.md R14) and the state after reset (70_reset_and_hazards.md R290). -/

namespace Sys2Proof.Machine

/-! ### `RNE` is the nearest integer, and even at a tie -/

/-- An integer within half a unit of `p / q` is a nearest one: any other lies a whole unit away from it. -/
theorem abs_mul_sub_le_of_within_half {p q m : Int} (hm : 2 * |q * m - p| ≤ q) (n : Int) :
    |q * m - p| ≤ |q * n - p| := by
  rcases eq_or_ne n m with rfl | hne
  · exact le_rfl
  · have hq : 0 ≤ q := by have := abs_nonneg (q * m - p); omega
    have hunit : q ≤ |q * n - q * m| := by
      rw [← mul_sub, abs_mul, abs_of_nonneg hq]
      exact le_mul_of_one_le_right hq (Int.one_le_abs (sub_ne_zero.2 hne))
    have htri := abs_sub_le (q * n) p (q * m)
    rw [abs_sub_comm p] at htri
    omega

/-- `rne_near` as a distance. -/
theorem rne_within_half {p q : Int} (hq : 0 < q) : 2 * |q * rne p q - p| ≤ q := by
  obtain ⟨habove, hbelow⟩ := rne_near (p := p) hq
  rw [mul_comm q]
  rcases abs_cases (rne p q * q - p) with ⟨h, _⟩ | ⟨h, _⟩ <;> omega

/-- Halfway between two integers `RNE` takes the even one; where it rounds down or up strictly there is no tie. -/
theorem rne_even_of_tie {p q : Int} (hq : 0 < q) (htie : 2 * |q * rne p q - p| = q) : rne p q % 2 = 0 := by
  have hrem : 0 ≤ p - p / q * q := by have := Int.ediv_mul_le p hq.ne'; omega
  have hlt : p - p / q * q < q := by have := Int.lt_ediv_add_one_mul_self p hq; rw [add_one_mul] at this; omega
  rcases rne_cases p q with ⟨hdown, hr⟩ | ⟨hup, hr⟩ | ⟨_, heven, hr⟩ | ⟨_, hodd, hr⟩
  · rw [hr, mul_comm q, abs_sub_comm, abs_of_nonneg hrem] at htie
    omega
  · have hdist : q * (p / q + 1) - p = q - (p - p / q * q) := by ring
    rw [hr, hdist, abs_of_nonneg (by omega)] at htie
    omega
  · rw [hr, heven]
  · omega

/-- Settles O44: `RNE` stays within half a unit of the quotient, and such an integer is a nearest one. -/
theorem rneIsNearestTiesToEven : Obligations.RneIsNearestTiesToEven := fun _ _ hq =>
  ⟨abs_mul_sub_le_of_within_half (rne_within_half hq), rne_even_of_tie hq⟩

/-! ### The state after reset -/

theorem cells_below_nil {α : Type} (n : Nat) : Cells.below n ([] : Cells α) :=
  fun _ h => absurd h List.not_mem_nil

/-- Settles O2: both memories are empty, the core is idle, and no error stands. -/
theorem resetMeetsTheInvariant : Obligations.ResetMeetsTheInvariant := fun _ hp =>
  { legal := hp
    dmemWf := List.Pairwise.nil
    dmemBelow := cells_below_nil _
    cmdWf := List.Pairwise.nil
    cmdBelow := cells_below_nil _
    idleNoAbort := fun _ => rfl
    busyNoErr := fun _ => rfl
    noErrClear := fun _ => ⟨rfl, rfl⟩
    errHasCode := fun (h : false = true) => absurd h Bool.false_ne_true
    lowIdle := fun _ => rfl }

end Sys2Proof.Machine
end

section
/-! What a command leaves alone (10_state.md R36), and what the invariant reads of a state: the operations commands are
made of touch neither, but for the few that write DMEM or end a run. -/

namespace Sys2Proof.Machine

/-! ### The control part of the state -/

/-- The state with its working data blanked: tile registers, DMEM, OVF, PC, RLE_PTR, TIDX, the tile counts and the draw
counter. States that agree in it have the same configuration and the same run. -/
def State.control (s : State) : State :=
  { s with tiles := Vector.replicate 8 TileReg.unwritten, dmem := [], ovf := false, pc := 0, rlePtr := 0, tidx := 0,
           tcount0 := 0, tcount1 := 0, tcount2 := 0, draws := 0 }

section
variable (s : State)

@[simp] theorem State.control_advance : s.advance.control = s.control := rfl
@[simp] theorem State.control_orOvf (b : Bool) : (s.orOvf b).control = s.control := rfl
@[simp] theorem State.control_writeTile (r : TReg) (x : Tile) : (s.writeTile r x).control = s.control := rfl
@[simp] theorem State.control_setDmem (m : Memory) : (s.setDmem m).control = s.control := rfl
@[simp] theorem State.control_setRlePtr (p : Nat) : (s.setRlePtr p).control = s.control := rfl
@[simp] theorem State.control_bumpTidx (inc : Bool) : (s.bumpTidx inc).control = s.control := rfl
@[simp] theorem State.control_afterPass (p : PassState) : (s.afterPass p).control = s.control := rfl
@[simp] theorem State.control_havocPass (r : Region) : (s.havocPass r).control = s.control := rfl
@[simp] theorem State.control_setTcount (c : Channel) (n : Word) : (s.setTcount c n).control = s.control := by
  cases c <;> rfl

end

section
variable {s u : State}

theorem SameConfiguration.of_control (h : u.control = s.control) : SameConfiguration s u where
  params := (congrArg State.params h :)
  host := (congrArg State.host h :)
  resp := (congrArg State.resp h :)
  resets := (congrArg State.resets h :)
  rstN := (congrArg State.rstN h :)
  hacc := (congrArg State.hacc h :)
  doneIe := (congrArg State.doneIe h :)
  errIe := (congrArg State.errIe h :)
  width := (congrArg State.width h :)
  height := (congrArg State.height h :)
  pixBase := (congrArg State.pixBase h :)
  planeBase c := (congrArg (State.planeBase · c) h :)
  rleLimit := (congrArg State.rleLimit h :)
  qt sel := (congrArg (State.qt · sel) h :)
  cmdmem := (congrArg State.cmdmem h :)

theorem SameRun.of_control (h : u.control = s.control) : SameRun s u where
  busy := (congrArg State.busy h :)
  err := (congrArg State.err h :)
  abortPend := (congrArg State.abortPend h :)
  errCode := (congrArg State.errCode h :)
  errPc := (congrArg State.errPc h :)
  isDone := (congrArg State.isDone h :)
  isErr := (congrArg State.isErr h :)

/-- Stopping with an error writes no configuration (60_exceptions.md R266). -/
theorem SameConfiguration.stopError (h : SameConfiguration s u) (e : ErrCode) : SameConfiguration s (u.stopError e) :=
  { h with }

/-- Ending a run writes no configuration (60_exceptions.md R263). -/
theorem SameConfiguration.stopDone (h : SameConfiguration s u) : SameConfiguration s u.stopDone := { h with }

end

/-! ### The part of the state that the invariant reads -/

/-- What `Inv` speaks of: the parameters, both memories, and the run with its errors. -/
def State.guarded (s : State) : (Params × Memory × CmdMemory) × Bool × Bool × Bool × ErrCode × Word × Bool :=
  ((s.params, s.dmem, s.cmdmem), s.busy, s.abortPend, s.err, s.errCode, s.errPc, s.rstN)

/-- The invariant goes over to a state that agrees in what it reads. -/
theorem Inv.congr {s u : State} (h : Inv s) (hu : u.guarded = s.guarded) : Inv u := by
  simp only [State.guarded, Prod.mk.injEq] at hu
  obtain ⟨⟨hparams, hdmem, hcmdmem⟩, hbusy, habort, herr, hcode, hpc, hrst⟩ := hu
  constructor
  case legal => rw [hparams]; exact h.legal
  case dmemWf => rw [hdmem]; exact h.dmemWf
  case dmemBelow => rw [hparams, hdmem]; exact h.dmemBelow
  case cmdWf => rw [hcmdmem]; exact h.cmdWf
  case cmdBelow => rw [hparams, hcmdmem]; exact h.cmdBelow
  case idleNoAbort => rw [hbusy, habort]; exact h.idleNoAbort
  case busyNoErr => rw [hbusy, herr]; exact h.busyNoErr
  case noErrClear => rw [herr, hcode, hpc]; exact h.noErrClear
  case errHasCode => rw [herr, hcode]; exact h.errHasCode
  case lowIdle => rw [hrst, hbusy]; exact h.lowIdle

theorem State.guarded_setTcount (s : State) (c : Channel) (n : Word) : (s.setTcount c n).guarded = s.guarded := by
  cases c <;> rfl

/-- A write of no byte changes nothing of a memory in canonical form. -/
theorem WritesOnly.eq_of_zero {a : Nat} {m m' : Memory} (h : WritesOnly a 0 m m') (hm : Memory.wf m) : m' = m :=
  cells_ext (h.wf hm) hm fun b => h.outside b (by omega)

section
variable {s : State}

/-- DMEM written inside its address space, or not at all, keeps the invariant. -/
theorem Inv.setDmem (h : Inv s) {a n : Nat} {m : Memory} (hm : WritesOnly a n s.dmem m)
    (hfits : n = 0 ∨ a + n ≤ s.params.dmemBytes) : Inv (s.setDmem m) := by
  rcases hfits with rfl | hfits
  · rw [hm.eq_of_zero h.dmemWf]
    exact h
  · exact { h with dmemWf := hm.wf h.dmemWf, dmemBelow := hm.below _ hfits h.dmemBelow }

/-- CMDMEM written inside its address space keeps the invariant. -/
theorem Inv.setCmdmem (h : Inv s) {k : Nat} (hk : k < s.params.nCmd) (v : Word) :
    Inv { s with cmdmem := cellWrite s.cmdmem k v } :=
  { h with cmdWf := cellWrite_wf h.cmdWf k v, cmdBelow := cellWrite_below h.cmdBelow hk v }

theorem Inv.advance (h : Inv s) : Inv s.advance := h.congr rfl

theorem Inv.stopDone (h : Inv s) : Inv s.stopDone :=
  { h with
    idleNoAbort := fun _ => rfl
    busyNoErr := fun hb => absurd hb Bool.false_ne_true
    lowIdle := fun _ => rfl }

theorem Inv.stopError (h : Inv s) {e : ErrCode} (he : e ≠ .eNone) : Inv (s.stopError e) :=
  { h with
    idleNoAbort := fun _ => rfl
    busyNoErr := fun hb => absurd hb Bool.false_ne_true
    noErrClear := fun herr => absurd herr.symm Bool.false_ne_true
    errHasCode := fun _ => he
    lowIdle := fun _ => rfl }

/-- START needs the reset pin high: while it is low the port has no effect (70_reset_and_hazards.md R291). -/
theorem Inv.start (h : Inv s) (hrst : s.rstN = true) : Inv s.start :=
  { h with
    idleNoAbort := fun hb => absurd hb.symm Bool.false_ne_true
    busyNoErr := fun _ => rfl
    noErrClear := fun _ => ⟨rfl, rfl⟩
    errHasCode := fun herr => absurd herr Bool.false_ne_true
    lowIdle := fun hlow => absurd (hrst.symm.trans hlow).symm Bool.false_ne_true }

/-- An abort may be pending during a run. -/
theorem Inv.setAbortPend (h : Inv s) (hbusy : s.busy = true) (b : Bool) : Inv { s with abortPend := b } :=
  { h with idleNoAbort := fun hidle => absurd (hbusy.symm.trans hidle).symm Bool.false_ne_true }

end

end Sys2Proof.Machine
end

section
/-! What each command's next state is: the state before it, stopped by a check, or the work of the command and the
advance of PC. Said once for each command; the statements about commands follow from these. -/

namespace Sys2Proof.Machine

/-! ### Checks -/

/-- The command is stopped by an error before it has written anything. -/
def Raised (s t : State) : Prop := ∃ e, e ≠ .eNone ∧ t = s.stopError e

section
variable {s t : State}

/-- A checked command that has a next state was stopped by one of its checks or passed them all. -/
theorem checked_next {cs : List (Bool × ErrCode)} {k : Result} (h : checked cs s k = .next t) :
    (∃ e, (true, e) ∈ cs ∧ t = s.stopError e) ∨ ((∀ c ∈ cs, c.1 = false) ∧ k = .next t) := by
  rcases checked_cases cs s k with ⟨e, he, hstop⟩ | ⟨hpass, hgo⟩
  · rw [hstop, Host.Outcome.next.injEq] at h
    exact .inl ⟨e, he, h.symm⟩
  · exact .inr ⟨hpass, hgo ▸ h⟩

/-- The same where every check has a code. -/
theorem raised_or_passed {cs : List (Bool × ErrCode)} {k : Result} (hcodes : ∀ c ∈ cs, c.2 ≠ .eNone)
    (h : checked cs s k = .next t) : Raised s t ∨ ((∀ c ∈ cs, c.1 = false) ∧ k = .next t) :=
  (checked_next h).imp_left fun ⟨e, he, ht⟩ => ⟨e, hcodes _ he, ht⟩

/-- A command with a channel that has a next state was stopped by the reserved channel or goes on with its channel. -/
theorem withChannel_next {ch : BitVec 2} {k : Channel → Result} (h : withChannel ch s k = .next t) :
    Raised s t ∨ ∃ c, channelOf ch = some c ∧ k c = .next t := by
  rcases withChannel_cases ch s k with ⟨c, hc, hgo⟩ | ⟨_, hstop⟩
  · exact .inr ⟨c, hc, hgo ▸ h⟩
  · rw [hstop, Host.Outcome.next.injEq] at h
    exact .inl ⟨.eIllegal, by decide, h.symm⟩

end

@[simp] theorem channelOf_channelField (c : Channel) : channelOf (channelField c) = some c := by cases c <;> decide

section
variable (s : State) (c : Channel) (tb : TableSel)

theorem planeCheck_passed : (planeCheck c s).1 = false ↔ (s.plane c).region.hi ≤ s.params.dmemBytes := by
  simp [planeCheck]

theorem pixCheck_passed : (pixCheck s).1 = false ↔ s.pixRegion.hi ≤ s.params.dmemBytes := by simp [pixCheck]

theorem limitCheck_passed : (limitCheck s).1 = false ↔ s.rleLimit.toNat ≤ s.params.dmemBytes := by simp [limitCheck]

theorem imageChecks_codes : ∀ k ∈ imageChecks s, k.2 ≠ .eNone := by
  simp [imageChecks, dimCheck, alignCheck, pixCheck, planeCheck]

theorem tileChecks_codes : ∀ k ∈ tileChecks c s, k.2 ≠ .eNone := by
  simp [tileChecks, dimCheck, alignCheck, planeCheck, tidxCheck]

theorem enccChecks_codes : ∀ k ∈ enccChecks c tb s, k.2 ≠ .eNone := by
  simp [enccChecks, dimCheck, alignCheck, planeCheck, limitCheck, qtCheck]

theorem deccChecks_codes : ∀ k ∈ deccChecks c tb s, k.2 ≠ .eNone := by
  simp [deccChecks, dimCheck, alignCheck, planeCheck, limitCheck, qtCheck, tcountCheck]

end

/-! ### The commands -/

section
variable {s t : State}

@[simp] theorem State.orOvf_false (s : State) : s.orOvf false = s := by simp [State.orOvf]

/-- FDCT, IDCT, QNT, DQNT, ZZS and ZZU write one tile and perhaps OVF; only a 0 entry of the table stops one. -/
theorem tileCommand_next {rd rs : TReg} {tb : TableSel} {i : Instr}
    (hi : i ∈ [Instr.fdct rd rs, .idct rd rs, .qnt rd rs tb, .dqnt rd rs tb, .zzs rd rs, .zzu rd rs])
    (h : exec i s = .next t) :
    t = s.stopError .eQtZero ∨
      ∃ x b, t = ((s.writeTile rd x).orOvf b).advance ∧ (i ∈ [Instr.zzs rd rs, .zzu rd rs] → b = false) := by
  have hquantizer : ∀ {k u}, checked [qtCheck tb s] s (complete k) = .next u →
      u = s.stopError .eQtZero ∨ u = k.advance := by
    intro k u hu
    rcases checked_next hu with ⟨e, he, hstop⟩ | ⟨_, hgo⟩
    · obtain ⟨_, rfl⟩ : true = qtHasZero (s.qt tb) ∧ e = .eQtZero := by simpa [qtCheck] using he
      exact .inl hstop
    · exact .inr (complete_next.1 hgo)
  simp only [List.mem_cons, List.not_mem_nil, or_false] at hi
  rcases hi with rfl | rfl | rfl | rfl | rfl | rfl
  · exact .inr ⟨_, _, complete_next.1 h, by simp⟩
  · exact .inr ⟨_, _, complete_next.1 h, by simp⟩
  · exact (hquantizer h).imp_right fun ht => ⟨_, _, ht, by simp⟩
  · exact (hquantizer h).imp_right fun ht => ⟨_, _, ht, by simp⟩
  · exact .inr ⟨scan (s.readTile rs), false, by rw [State.orOvf_false]; exact complete_next.1 h, fun _ => rfl⟩
  · exact .inr ⟨unscan (s.readTile rs), false, by rw [State.orOvf_false]; exact complete_next.1 h, fun _ => rfl⟩

theorem execLdt_next {rd : TReg} {ch : BitVec 2} {inc : Bool} (h : execLdt rd ch inc s = .next t) :
    Raised s t ∨ ∃ x, t = ((s.writeTile rd x).bumpTidx inc).advance := by
  rcases withChannel_next h with hraised | ⟨c, _, h⟩
  · exact .inl hraised
  refine (raised_or_passed (tileChecks_codes s c) h).imp_right fun ⟨_, hgo⟩ => ?_
  obtain ⟨x, _, hx⟩ := withData_next.1 hgo
  exact ⟨x, complete_next.1 hx⟩

theorem execRld_next {rd : TReg} (h : execRld rd s = .next t) :
    Raised s t ∨ ∃ x p, t = ((s.writeTile rd x).setRlePtr p).advance := by
  rcases raised_or_passed (by simp [limitCheck]) h with hraised | ⟨_, hgo⟩
  · exact .inl hraised
  split at hgo
  · exact .inl ⟨_, by decide, raise_next.1 hgo⟩
  · cases hgo
  · exact .inr ⟨_, _, complete_next.1 hgo⟩

theorem execStt_next {rs : TReg} {ch : BitVec 2} {inc : Bool} (h : execStt rs ch inc s = .next t) :
    Raised s t ∨ ∃ c, channelOf ch = some c ∧ (s.plane c).region.hi ≤ s.params.dmemBytes ∧
      t = ((s.setDmem (reassemble s.dmem (s.plane c) s.tidx.toNat (s.readTile rs))).bumpTidx inc).advance := by
  rcases withChannel_next h with hraised | ⟨c, hc, h⟩
  · exact .inl hraised
  refine (raised_or_passed (tileChecks_codes s c) h).imp_right fun ⟨hpass, hgo⟩ => ?_
  exact ⟨c, hc, (planeCheck_passed s c).1 (hpass _ (by simp [tileChecks])), complete_next.1 hgo⟩

theorem execRle_next {rs : TReg} (h : execRle rs s = .next t) :
    Raised s t ∨
      s.rlePtr.toNat + recordSize (pairs (s.readTile rs)).length ≤ s.params.dmemBytes ∧
      t = (((s.setDmem (writeBytes s.dmem s.rlePtr.toNat (record (pairs (s.readTile rs))))).setRlePtr
        (s.rlePtr.toNat + recordSize (pairs (s.readTile rs)).length)).orOvf (pairsOvf (s.readTile rs))).advance := by
  refine (raised_or_passed (by simp [limitCheck]) h).imp_right fun ⟨hpass, hgo⟩ => ⟨?_, complete_next.1 hgo⟩
  have hlimit := (limitCheck_passed s).1 (hpass _ (by simp))
  have hfits := recordOverflows_eq_false.1 (hpass _ (.tail _ (.head _)))
  omega

theorem execCcf_next (h : execCcf s = .next t) :
    Raised s t ∨ ∃ m, pixelLoop (ccfPixel s.imageBases) s.pixels 0 s.dmem = some m ∧
      (∀ c, (s.plane c).region.hi ≤ s.params.dmemBytes) ∧ t = (s.setDmem m).advance := by
  refine (raised_or_passed (imageChecks_codes s) h).imp_right fun ⟨hpass, hgo⟩ => ?_
  obtain ⟨_, hgo⟩ := unlessOverlap_next.1 hgo
  obtain ⟨m, hm, hgo⟩ := withData_next.1 hgo
  exact ⟨m, hm, fun c => (planeCheck_passed s c).1 (hpass _ (by cases c <;> simp [imageChecks])), complete_next.1 hgo⟩

theorem execCci_next (h : execCci s = .next t) :
    Raised s t ∨ ∃ m, pixelLoop (cciPixel s.imageBases) s.pixels 0 s.dmem = some m ∧
      s.pixRegion.hi ≤ s.params.dmemBytes ∧ t = (s.setDmem m).advance := by
  refine (raised_or_passed (imageChecks_codes s) h).imp_right fun ⟨hpass, hgo⟩ => ?_
  obtain ⟨_, hgo⟩ := unlessOverlap_next.1 hgo
  obtain ⟨m, hm, hgo⟩ := withData_next.1 hgo
  exact ⟨m, hm, (pixCheck_passed s).1 (hpass _ (by simp [imageChecks])), complete_next.1 hgo⟩

theorem execEncc_next {ch : BitVec 2} {tb : TableSel} (h : execEncc ch tb s = .next t) :
    Raised s t ∨ ∃ c, channelOf ch = some c ∧ s.rleLimit.toNat ≤ s.params.dmemBytes ∧
      (t = (s.havocPass s.streamRegion).stopError .eRleFull ∨
        ∃ p, passLoop (encBody (s.plane c) (s.qt tb) s.rleLimit.toNat) s.tileCount 0 s.passStart = .done p ∧
          t = ((s.afterPass p).setTcount c (BitVec.ofNat 32 s.tileCount)).advance) := by
  rcases withChannel_next h with hraised | ⟨c, hc, h⟩
  · exact .inl hraised
  refine (raised_or_passed (enccChecks_codes s c tb) h).imp_right fun ⟨hpass, hgo⟩ => ?_
  refine ⟨c, hc, (limitCheck_passed s).1 (hpass _ (by simp [enccChecks])), ?_⟩
  obtain ⟨_, hgo⟩ := unlessOverlap_next.1 hgo
  split at hgo
  · cases hgo
  · exact .inl (raise_next.1 hgo)
  · rename_i p hp
    exact .inr ⟨p, hp, complete_next.1 hgo⟩

theorem execDecc_next {ch : BitVec 2} {tb : TableSel} (h : execDecc ch tb s = .next t) :
    Raised s t ∨ ∃ c, channelOf ch = some c ∧ (s.plane c).region.hi ≤ s.params.dmemBytes ∧
      (t = (s.havocPass (s.plane c).region).stopError .eRleTrunc ∨
        ∃ p, passLoop (decBody (s.plane c) (s.qt tb) s.rleLimit.toNat) s.tileCount 0 s.passStart = .done p ∧
          t = (s.afterPass p).advance) := by
  rcases withChannel_next h with hraised | ⟨c, hc, h⟩
  · exact .inl hraised
  refine (raised_or_passed (deccChecks_codes s c tb) h).imp_right fun ⟨hpass, hgo⟩ => ?_
  refine ⟨c, hc, (planeCheck_passed s c).1 (hpass _ (by simp [deccChecks])), ?_⟩
  obtain ⟨_, hgo⟩ := unlessOverlap_next.1 hgo
  split at hgo
  · cases hgo
  · exact .inl (raise_next.1 hgo)
  · rename_i p hp
    exact .inr ⟨p, hp, complete_next.1 hgo⟩

end

/-! ### Where the colour converters write -/

theorem storeSamples_writesOnly (g : ImageBases) (p : Nat) (r gr b : Int) (m : Memory) {lim : Nat}
    (hy : g.y + 4 * p + 4 ≤ lim) (hcb : g.cb + 4 * p + 4 ≤ lim) (hcr : g.cr + 4 * p + 4 ≤ lim) :
    WritesOnly 0 lim m (storeSamples g p r gr b m) :=
  (((writeWord_writesOnly _ _ _).widen (by omega) (by omega)).trans
    ((writeWord_writesOnly _ _ _).widen (by omega) (by omega))).trans
    ((writeWord_writesOnly _ _ _).widen (by omega) (by omega))

section
variable {s : State} {m : Memory}

/-- CCF writes below any bound that its three planes respect. -/
theorem pixelLoop_ccf_writesOnly {lim : Nat} (hfits : ∀ c, (s.plane c).region.hi ≤ lim)
    (h : pixelLoop (ccfPixel s.imageBases) s.pixels 0 s.dmem = some m) : WritesOnly 0 lim s.dmem m := by
  have hy : s.imageBases.y + 4 * s.pixels ≤ lim := hfits .y
  have hcb : s.imageBases.cb + 4 * s.pixels ≤ lim := hfits .cb
  have hcr : s.imageBases.cr + 4 * s.pixels ≤ lim := hfits .cr
  refine pixelLoop_rel (R := WritesOnly 0 lim) (WritesOnly.refl 0 lim) WritesOnly.trans (fun i m₁ m₂ _ hi hb => ?_) h
  obtain ⟨r, gr, b, _, _, _, rfl⟩ := ccfPixel_eq_some hb
  exact storeSamples_writesOnly _ _ _ _ _ _ (by omega) (by omega) (by omega)

/-- CCF leaves every byte outside its three planes alone. -/
theorem pixelLoop_ccf_outside {a : Nat} (ha : ∀ c, a < (s.plane c).region.lo ∨ (s.plane c).region.hi ≤ a)
    (h : pixelLoop (ccfPixel s.imageBases) s.pixels 0 s.dmem = some m) : cellRead m a = cellRead s.dmem a := by
  have hy : a < s.imageBases.y ∨ s.imageBases.y + 4 * s.pixels ≤ a := ha .y
  have hcb : a < s.imageBases.cb ∨ s.imageBases.cb + 4 * s.pixels ≤ a := ha .cb
  have hcr : a < s.imageBases.cr ∨ s.imageBases.cr + 4 * s.pixels ≤ a := ha .cr
  refine pixelLoop_rel (R := fun m m' => cellRead m' a = cellRead m a) (fun _ => rfl) (fun h₁ h₂ => h₂.trans h₁)
    (fun i m₁ m₂ _ hi hb => ?_) h
  obtain ⟨r, gr, b, _, _, _, rfl⟩ := ccfPixel_eq_some hb
  exact storeSamples_outside _ _ _ _ _ _ (by omega) (by omega) (by omega)

/-- CCI writes in the pixel buffer only. -/
theorem pixelLoop_cci_writesOnly (h : pixelLoop (cciPixel s.imageBases) s.pixels 0 s.dmem = some m) :
    WritesOnly s.pixRegion.lo (3 * s.pixels) s.dmem m := by
  refine pixelLoop_rel (R := WritesOnly s.pixRegion.lo (3 * s.pixels)) (WritesOnly.refl _ _) WritesOnly.trans
    (fun i m₁ m₂ _ hi hb => ?_) h
  obtain ⟨y, cb, cr, _, _, _, rfl⟩ := cciPixel_eq_some hb
  have hlo : s.pixRegion.lo = s.imageBases.pix := rfl
  exact (storePixel_writesOnly _ _ _ _ _ _).widen (by omega) (by omega)

end

end Sys2Proof.Machine
end

section
/-! What running a command can do, for all commands at once: its work, then one of three endings (40_sequencer.md R121,
R125, 60_exceptions.md R262). The statements about every command follow. -/

namespace Sys2Proof.Machine

/-- `u` is `s` with a command's work done and PC not yet advanced: nothing but working data differs, and the invariant
stays. -/
structure Work (s u : State) : Prop where
  control : u.control = s.control
  pc : u.pc = s.pc
  inv : Inv s → Inv u

/-- The three endings of a command, from the state with its work done to the next state. -/
inductive CommandEnd : Instr → State → State → Prop
  | completed {i : Instr} {u : State} (hi : i ≠ .endList) : CommandEnd i u u.advance
  | stopped {i : Instr} {u : State} {e : ErrCode} (hi : i ≠ .endList) (he : e ≠ .eNone) : CommandEnd i u (u.stopError e)
  | ended {u : State} : CommandEnd .endList u u.advance.stopDone

section
variable {s : State}

theorem Work.refl (s : State) : Work s s := ⟨rfl, rfl, id⟩

/-- Work that stores bytes and then writes working data the invariant does not read. -/
theorem Work.of_dmem {u : State} {m : Memory} {a n : Nat} (hm : WritesOnly a n s.dmem m)
    (hfits : n = 0 ∨ a + n ≤ s.params.dmemBytes) (hcontrol : u.control = s.control) (hpc : u.pc = s.pc)
    (hguarded : u.guarded = (s.setDmem m).guarded) : Work s u :=
  ⟨hcontrol, hpc, fun hs => (hs.setDmem hm hfits).congr hguarded⟩

/-- Work that the invariant does not read. -/
theorem Work.of_guarded {u : State} (hcontrol : u.control = s.control) (hpc : u.pc = s.pc)
    (hguarded : u.guarded = s.guarded) : Work s u :=
  ⟨hcontrol, hpc, fun hs => hs.congr hguarded⟩

theorem work_of_tileCommand (rd : TReg) (x : Tile) (b : Bool) : Work s ((s.writeTile rd x).orOvf b) :=
  .of_guarded rfl rfl rfl

theorem work_of_ldt (rd : TReg) (x : Tile) (inc : Bool) : Work s ((s.writeTile rd x).bumpTidx inc) :=
  .of_guarded rfl rfl rfl

theorem work_of_rld (rd : TReg) (x : Tile) (p : Nat) : Work s ((s.writeTile rd x).setRlePtr p) :=
  .of_guarded rfl rfl rfl

theorem work_of_setDmem {m : Memory} {a n : Nat} (hm : WritesOnly a n s.dmem m)
    (hfits : n = 0 ∨ a + n ≤ s.params.dmemBytes) : Work s (s.setDmem m) := .of_dmem hm hfits rfl rfl rfl

theorem Work.completes {i : Instr} {u : State} (h : Work s u) (hi : i ≠ .endList) :
    ∃ u', Work s u' ∧ CommandEnd i u' u.advance := ⟨u, h, .completed hi⟩

theorem Work.stops {i : Instr} {u : State} {e : ErrCode} (h : Work s u) (hi : i ≠ .endList) (he : e ≠ .eNone) :
    ∃ u', Work s u' ∧ CommandEnd i u' (u.stopError e) := ⟨u, h, .stopped hi he⟩

theorem Raised.stops {i : Instr} {t : State} (h : Raised s t) (hi : i ≠ .endList) :
    ∃ u, Work s u ∧ CommandEnd i u t := by
  obtain ⟨e, he, rfl⟩ := h
  exact (Work.refl s).stops hi he

theorem work_of_stt (c : Channel) (x : Tile) (inc : Bool) (hfits : (s.plane c).region.hi ≤ s.params.dmemBytes) :
    Work s ((s.setDmem (reassemble s.dmem (s.plane c) s.tidx.toNat x)).bumpTidx inc) :=
  .of_dmem (reassemble_writesOnly s.dmem (s.plane c) s.tidx.toNat x) (by omega) rfl rfl rfl

theorem work_of_rle (x : Tile) (hfits : s.rlePtr.toNat + recordSize (pairs x).length ≤ s.params.dmemBytes) :
    Work s (((s.setDmem (writeBytes s.dmem s.rlePtr.toNat (record (pairs x)))).setRlePtr
      (s.rlePtr.toNat + recordSize (pairs x).length)).orOvf (pairsOvf x)) := by
  have hm := writeBytes_writesOnly s.dmem s.rlePtr.toNat (record (pairs x))
  rw [record_length] at hm
  exact .of_dmem hm (.inr hfits) (by simp) (by simp) rfl

/-- The stream region may be empty: then a stream error leaves no byte unspecified. -/
theorem work_of_havocPass {r : Region} (hfits : r.hi ≤ s.params.dmemBytes) : Work s (s.havocPass r) :=
  .of_dmem (havocBytes_writesOnly s.draws s.dmem r.lo (r.hi - r.lo)) (by omega) rfl rfl rfl

theorem work_of_encc {c d : Channel} {tb : TableSel} {n : Nat} {k : Word} {p : PassState}
    (hlimit : s.rleLimit.toNat ≤ s.params.dmemBytes)
    (hp : passLoop (encBody (s.plane c) (s.qt tb) s.rleLimit.toNat) n 0 s.passStart = .done p) :
    Work s ((s.afterPass p).setTcount d k) := by
  obtain ⟨hle, hbound, hm⟩ := passLoop_enc_writesOnly hp
  refine .of_dmem hm (by omega) (by simp) (by simp) ?_
  rw [State.guarded_setTcount]
  rfl

theorem work_of_decc {c : Channel} {tb : TableSel} {n : Nat} {p : PassState}
    (hfits : (s.plane c).region.hi ≤ s.params.dmemBytes)
    (hp : passLoop (decBody (s.plane c) (s.qt tb) s.rleLimit.toNat) n 0 s.passStart = .done p) :
    Work s (s.afterPass p) := by
  obtain ⟨_, _, hm⟩ := passLoop_dec_writesOnly hp
  exact .of_dmem hm (by omega) rfl rfl rfl

theorem tileCommand_ends {rd rs : TReg} {tb : TableSel} {i : Instr} {t : State}
    (hi : i ∈ [Instr.fdct rd rs, .idct rd rs, .qnt rd rs tb, .dqnt rd rs tb, .zzs rd rs, .zzu rd rs])
    (h : exec i s = .next t) : ∃ u, Work s u ∧ CommandEnd i u t := by
  have hne : i ≠ .endList := by rintro rfl; simp at hi
  rcases tileCommand_next hi h with hstop | ⟨x, b, rfl, _⟩
  · exact Raised.stops ⟨_, by decide, hstop⟩ hne
  · exact (work_of_tileCommand rd x b).completes hne

end

/-- Every command does its work and ends in one of the three ways. -/
theorem exec_next {i : Instr} {s t : State} (h : exec i s = .next t) : ∃ u, Work s u ∧ CommandEnd i u t := by
  cases i with
  | endList =>
    obtain rfl : s.advance.stopDone = t := Host.Outcome.next.inj h
    exact ⟨s, .refl s, .ended⟩
  | nop =>
    obtain rfl := complete_next.1 h
    exact (Work.refl s).completes nofun
  | ccf =>
    rcases execCcf_next h with hr | ⟨m, hm, hfits, rfl⟩
    · exact hr.stops nofun
    · exact (work_of_setDmem (pixelLoop_ccf_writesOnly hfits hm) (by omega)).completes nofun
  | cci =>
    rcases execCci_next h with hr | ⟨m, hm, hfits, rfl⟩
    · exact hr.stops nofun
    · exact (work_of_setDmem (pixelLoop_cci_writesOnly hm) (.inr hfits)).completes nofun
  | ldt rd ch inc =>
    rcases execLdt_next h with hr | ⟨x, rfl⟩
    · exact hr.stops nofun
    · exact (work_of_ldt rd x inc).completes nofun
  | stt rs ch inc =>
    rcases execStt_next h with hr | ⟨c, _, hfits, rfl⟩
    · exact hr.stops nofun
    · exact (work_of_stt c _ inc hfits).completes nofun
  | fdct rd rs => exact tileCommand_ends (rd := rd) (rs := rs) (tb := .luma) (by simp) h
  | idct rd rs => exact tileCommand_ends (rd := rd) (rs := rs) (tb := .luma) (by simp) h
  | qnt rd rs tb => exact tileCommand_ends (rd := rd) (rs := rs) (tb := tb) (by simp) h
  | dqnt rd rs tb => exact tileCommand_ends (rd := rd) (rs := rs) (tb := tb) (by simp) h
  | zzs rd rs => exact tileCommand_ends (rd := rd) (rs := rs) (tb := .luma) (by simp) h
  | zzu rd rs => exact tileCommand_ends (rd := rd) (rs := rs) (tb := .luma) (by simp) h
  | rle rs =>
    rcases execRle_next h with hr | ⟨hfits, rfl⟩
    · exact hr.stops nofun
    · exact (work_of_rle _ hfits).completes nofun
  | rld rd =>
    rcases execRld_next h with hr | ⟨x, p, rfl⟩
    · exact hr.stops nofun
    · exact (work_of_rld rd x p).completes nofun
  | encc ch tb =>
    rcases execEncc_next h with hr | ⟨c, _, hlimit, rfl | ⟨p, hp, rfl⟩⟩
    · exact hr.stops nofun
    · exact (work_of_havocPass hlimit).stops nofun (by decide)
    · exact (work_of_encc hlimit hp).completes nofun
  | decc ch tb =>
    rcases execDecc_next h with hr | ⟨c, _, hfits, rfl | ⟨p, hp, rfl⟩⟩
    · exact hr.stops nofun
    · exact (work_of_havocPass hfits).stops nofun (by decide)
    · exact (work_of_decc hfits hp).completes nofun

/-! ### What follows for every command -/

/-- Settles O36: the work of a command touches working data only, and its ending writes PC, STATUS, IS and the error
registers. -/
theorem commandsKeepTheConfiguration : Obligations.CommandsKeepTheConfiguration := by
  intro i s t h
  obtain ⟨u, hwork, hend⟩ := exec_next h
  have hu := SameConfiguration.of_control hwork.control
  have hadvance : SameConfiguration s u.advance := .of_control hwork.control
  cases hend with
  | completed _ => exact hadvance
  | stopped _ _ => exact hu.stopError _
  | ended => exact hadvance.stopDone

/-- Settles O42: completing and END advance PC, an error records it. -/
theorem pcAdvancesByOneOrStays : Obligations.PcAdvancesByOneOrStays := by
  intro i s t hbusy h
  obtain ⟨u, hwork, hend⟩ := exec_next h
  have hrun := SameRun.of_control hwork.control
  cases hend with
  | completed _ => simp [hrun.busy, hrun.err, hrun.errCode, hrun.errPc, hwork.pc, hbusy]
  | stopped hi _ => simp [hwork.pc, hi]
  | ended => simp [hrun.err, hrun.errCode, hrun.errPc, hwork.pc]

/-- Every command keeps the invariant: its work does, and an error it stops with has a code. -/
theorem exec_keeps_inv {i : Instr} {s t : State} (hs : Inv s) (h : exec i s = .next t) : Inv t := by
  obtain ⟨u, hwork, hend⟩ := exec_next h
  have hu := hwork.inv hs
  cases hend with
  | completed _ => exact hu.advance
  | stopped _ he => exact hu.stopError he
  | ended => exact hu.advance.stopDone

/-! ### The sequencer -/

/-- A sequencer step stops before a command executes, or executes one (40_sequencer.md R121). -/
theorem sequencerStep_next {s t : State} (h : sequencerStep s = .next t) : Raised s t ∨ ∃ i, exec i s = .next t := by
  unfold sequencerStep at h
  split at h
  · exact .inl ⟨.eAborted, by decide, raise_next.1 h⟩
  split at h
  · exact .inl ⟨.ePcRange, by decide, raise_next.1 h⟩
  split at h
  · cases h
  split at h
  · exact .inl ⟨.eIllegal, by decide, raise_next.1 h⟩
  · exact .inr ⟨_, h⟩

theorem coreStep_keeps_inv {s t : State} (hs : Inv s) (h : coreStep s = .next t) : Inv t := by
  unfold coreStep at h
  split at h
  · rcases sequencerStep_next h with ⟨e, he, rfl⟩ | ⟨i, hi⟩
    · exact hs.stopError he
    · exact exec_keeps_inv hs hi
  · exact Host.Outcome.next.inj h ▸ hs

/-- Settles O43: a run goes on after a completed command, stops with DONE at END, and with ERR at an error. -/
theorem aStopSetsOneInterruptBit : Obligations.AStopSetsOneInterruptBit := by
  intro s t hhost hbusy h
  have hseq : step s = sequencerStep s := by simp [step, machineStep, hhost, coreStep, hbusy]
  rcases sequencerStep_next (hseq ▸ h) with ⟨e, _, rfl⟩ | ⟨i, hi⟩
  · simp
  obtain ⟨u, hwork, hend⟩ := exec_next hi
  have hrun := SameRun.of_control hwork.control
  cases hend with
  | completed _ => simp [hrun.isDone, hrun.isErr, hrun.busy, hbusy]
  | stopped _ _ => simp [hrun.isDone]
  | ended => simp [hrun.isErr, hrun.err]

end Sys2Proof.Machine
end

section
/-! The frame of each command (10_state.md R31): what it leaves unchanged, read off the state it leaves. -/

namespace Sys2Proof.Machine

section
variable {s t : State}

theorem SameDmem.outside (h : SameDmem s t) (lo hi : Nat) : SameDmemOutside lo hi s t := fun a _ => h a

/-- A write of a region's bytes leaves DMEM alone outside the region. -/
theorem SameDmemOutside.of_writesOnly {lo hi : Nat} (h : WritesOnly lo (hi - lo) s.dmem t.dmem) :
    SameDmemOutside lo hi s t := fun a ha => h.outside a (by omega)

/-- Stopping before any work changes nothing but the writes of `stop_error`. -/
theorem Raised.sameConfiguration (h : Raised s t) : SameConfiguration s t := by
  obtain ⟨e, _, rfl⟩ := h
  exact (SameConfiguration.of_control rfl).stopError e

theorem Raised.exists_eq (h : Raised s t) : ∃ e, t = s.stopError e := h.imp fun _ => And.right

end

theorem State.writeTile_tiles_of_ne (s : State) {r i : TReg} (x : Tile) (h : r ≠ i) :
    (s.writeTile i x).tiles[r] = s.tiles[r] := by
  have hval : i.val ≠ r.val := fun hv => h (Fin.ext hv.symm)
  simp [State.writeTile, Vector.getElem_set_ne, hval]

/-- Settles O37: one tile is written and OVF may be set. -/
theorem tileCommandFrame : Obligations.TileCommandFrame := by
  intro s t rd rs tb i hi h
  rcases tileCommand_next hi h with rfl | ⟨x, b, rfl, hzigzag⟩
  · exact ⟨(SameConfiguration.of_control rfl).stopError _, ⟨rfl, rfl, fun _ => by simp⟩, fun _ => rfl, rfl,
      fun _ _ => rfl, id, fun _ => rfl, .inr rfl⟩
  · refine ⟨.of_control rfl, ⟨rfl, rfl, fun _ => by simp⟩, fun _ => rfl, rfl,
      fun _ hr => s.writeTile_tiles_of_ne x hr, fun hovf => ?_, fun hmem => ?_, .inl (.of_control rfl)⟩
    · simp [hovf]
    · simp [hzigzag hmem]

/-- Settles O38: LDT writes its tile and TIDX, RLD its tile and RLE_PTR. -/
theorem tileLoadFrame : Obligations.TileLoadFrame := by
  intro s t rd ch inc i hi h
  simp only [List.mem_cons, List.not_mem_nil, or_false] at hi
  rcases hi with rfl | rfl
  · rcases execLdt_next h with hr | ⟨x, rfl⟩
    · obtain ⟨e, rfl⟩ := hr.exists_eq
      exact ⟨hr.sameConfiguration, fun _ => rfl, rfl, rfl, fun _ => by simp, fun _ _ => rfl, fun _ => rfl,
        fun _ => rfl, .inr ⟨e, rfl⟩⟩
    · refine ⟨.of_control rfl, fun _ => rfl, rfl, rfl, fun _ => by simp, fun _ hr => s.writeTile_tiles_of_ne x hr,
        fun hinc => ?_, fun _ => rfl, .inl (.of_control rfl)⟩
      obtain rfl : inc = false := by simpa using hinc
      rfl
  · rcases execRld_next h with hr | ⟨x, p, rfl⟩
    · obtain ⟨e, rfl⟩ := hr.exists_eq
      exact ⟨hr.sameConfiguration, fun _ => rfl, rfl, rfl, fun _ => by simp, fun _ _ => rfl, fun _ => rfl,
        fun _ => rfl, .inr ⟨e, rfl⟩⟩
    · exact ⟨.of_control rfl, fun _ => rfl, rfl, rfl, fun _ => by simp, fun _ hr => s.writeTile_tiles_of_ne x hr,
        fun _ => rfl, nofun, .inl (.of_control rfl)⟩

/-- Settles O39: STT stores the in-range elements of one tile, RLE one record. -/
theorem tileStoreFrame : Obligations.TileStoreFrame := by
  intro s t rs c inc
  refine ⟨fun h => ?_, fun h => ?_⟩
  · rcases execStt_next h with hr | ⟨d, hd, _, rfl⟩
    · obtain ⟨e, rfl⟩ := hr.exists_eq
      exact ⟨hr.sameConfiguration, rfl, rfl, rfl, rfl, fun _ => by simp, fun _ => rfl, fun _ _ => rfl, .inr ⟨e, rfl⟩⟩
    · obtain rfl : c = d := by simpa using hd
      refine ⟨.of_control (by simp), by simp, by simp, by simp, by simp, fun _ => by simp,
        fun hinc => by simp [hinc], fun b hb => ?_, .inl (.of_control (by simp))⟩
      simpa using reassemble_outside s.dmem (s.plane c) s.tidx.toNat (s.readTile rs) hb
  · rcases execRle_next h with hr | ⟨_, rfl⟩
    · obtain ⟨e, rfl⟩ := hr.exists_eq
      exact ⟨hr.sameConfiguration, rfl, rfl, id, rfl, fun _ => by simp, SameDmem.outside (fun _ => rfl) _ _,
        .inr ⟨e, rfl⟩⟩
    · have hm := writeBytes_writesOnly s.dmem s.rlePtr.toNat (record (pairs (s.readTile rs)))
      rw [record_length, recordSize, Nat.add_comm _ 2] at hm
      refine ⟨.of_control (by simp), by simp, by simp, fun hovf => by simp [hovf], by simp, fun _ => by simp,
        fun a ha => ?_, .inl (.of_control (by simp))⟩
      simpa using hm.outside a ha

/-- Both colour converters store in DMEM and do nothing else. -/
theorem colorConverter_next {s t : State} {i : Instr} (hi : i ∈ [Instr.ccf, .cci]) (h : exec i s = .next t) :
    Raised s t ∨ ∃ m, t = (s.setDmem m).advance := by
  simp only [List.mem_cons, List.not_mem_nil, or_false] at hi
  rcases hi with rfl | rfl
  · exact (execCcf_next h).imp_right fun ⟨m, _, _, ht⟩ => ⟨m, ht⟩
  · exact (execCci_next h).imp_right fun ⟨m, _, _, ht⟩ => ⟨m, ht⟩

/-- Settles O40: CCF stores in the planes, CCI in the pixel buffer. -/
theorem colorConverterFrame : Obligations.ColorConverterFrame := by
  intro s t
  refine ⟨fun i hi h => ?_, fun h a ha => ?_, fun h => ?_⟩
  · rcases colorConverter_next hi h with hr | ⟨m, rfl⟩
    · obtain ⟨e, rfl⟩ := hr.exists_eq
      exact ⟨hr.sameConfiguration, ⟨rfl, rfl, fun _ => by simp⟩, rfl, rfl, rfl, .inr ⟨e, rfl⟩⟩
    · exact ⟨.of_control rfl, ⟨rfl, rfl, fun _ => by simp⟩, rfl, rfl, rfl, .inl (.of_control rfl)⟩
  · rcases execCcf_next h with ⟨e, _, rfl⟩ | ⟨m, hm, _, rfl⟩
    · rfl
    · exact pixelLoop_ccf_outside ha hm
  · rcases execCci_next h with ⟨e, _, rfl⟩ | ⟨m, hm, _, rfl⟩
    · exact SameDmem.outside (fun _ => rfl) _ _
    · exact fun a ha => (pixelLoop_cci_writesOnly hm).outside a ha

/-! ### The channel passes -/

/-- Along a pass OVF is never cleared (10_state.md R45). -/
theorem passLoop_keeps_ovf {body : Nat → PassState → PassEnd}
    (hbody : ∀ i p p', body i p = .done p' → p.ovf = true → p'.ovf = true) {n i : Nat} {p p' : PassState}
    (h : passLoop body n i p = .done p') : p.ovf = true → p'.ovf = true :=
  passLoop_rel (R := fun p p' => p.ovf = true → p'.ovf = true) (fun _ => id) (fun h₁ h₂ hp => h₂ (h₁ hp)) hbody h

theorem encBody_keeps_ovf {pl : Plane} {q : QTable} {limit : Nat} (i : Nat) (p p' : PassState)
    (h : encBody pl q limit i p = .done p') (hp : p.ovf = true) : p'.ovf = true := by
  obtain ⟨x, _, _, _, _, hovf⟩ := encBody_done h
  simp [hovf, hp]

theorem decBody_keeps_ovf {pl : Plane} {q : QTable} {limit : Nat} (i : Nat) (p p' : PassState)
    (h : decBody pl q limit i p = .done p') (hp : p.ovf = true) : p'.ovf = true := by
  obtain ⟨v, next, _, _, _, _, hovf⟩ := decBody_done h
  simp [hovf, hp]

/-- The state a mid-command stream error leaves: the run stopped, and unspecified bytes in one region only. -/
theorem havocPass_stopError_frame (s : State) (r : Region) (e : ErrCode) :
    SameConfiguration s ((s.havocPass r).stopError e) ∧ SameDmemOutside r.lo r.hi s ((s.havocPass r).stopError e) :=
  ⟨(SameConfiguration.of_control (s.control_havocPass r)).stopError e,
    .of_writesOnly (havocBytes_writesOnly s.draws s.dmem r.lo (r.hi - r.lo))⟩

/-- Settles O41: a completed pass writes its stream or its plane, one with a stream error leaves those bytes, RLE_PTR
and OVF unspecified. -/
theorem channelPassFrame : Obligations.ChannelPassFrame := by
  intro s t c tb
  refine ⟨fun h => ?_, fun h => ?_⟩
  · rcases execEncc_next h with hr | ⟨d, hd, _, rfl | ⟨p, hp, rfl⟩⟩
    · obtain ⟨e, rfl⟩ := hr.exists_eq
      exact ⟨hr.sameConfiguration, rfl, rfl, fun _ _ => by simp, .inr (.inl ⟨e, rfl⟩)⟩
    · obtain ⟨hconf, hdmem⟩ := havocPass_stopError_frame s s.streamRegion .eRleFull
      exact ⟨hconf, rfl, rfl, fun _ _ => by simp, .inr (.inr ⟨rfl, rfl, by simp, hdmem⟩)⟩
    · obtain rfl : c = d := by simpa using hd
      obtain ⟨hle, hbound, hm⟩ := passLoop_enc_writesOnly hp
      have hptr : (BitVec.ofNat 32 p.ptr).toNat = p.ptr := by
        have hstart : s.passStart.ptr = s.rlePtr.toNat := rfl
        have := s.rlePtr.isLt
        have := s.rleLimit.isLt
        rw [BitVec.toNat_ofNat, Nat.mod_eq_of_lt (by omega)]
      refine ⟨.of_control (by simp), by simp, by simp, fun d hd => by simp [hd], .inl ⟨.of_control (by simp), by simp,
        fun hovf => ?_, ?_⟩⟩
      · simpa using passLoop_keeps_ovf encBody_keeps_ovf hp hovf
      · refine .of_writesOnly ?_
        simpa [hptr, State.passStart] using hm
  · rcases execDecc_next h with hr | ⟨d, hd, _, rfl | ⟨p, hp, rfl⟩⟩
    · obtain ⟨e, rfl⟩ := hr.exists_eq
      exact ⟨hr.sameConfiguration, rfl, rfl, fun _ => by simp, SameDmem.outside (fun _ => rfl) _ _,
        .inr (.inl ⟨e, rfl⟩)⟩
    · obtain rfl : c = d := by simpa using hd
      obtain ⟨hconf, hdmem⟩ := havocPass_stopError_frame s (s.plane c).region .eRleTrunc
      exact ⟨hconf, rfl, rfl, fun _ => by simp, hdmem, .inr (.inr ⟨rfl, rfl⟩)⟩
    · obtain rfl : c = d := by simpa using hd
      obtain ⟨_, _, hm⟩ := passLoop_dec_writesOnly hp
      exact ⟨.of_control (by simp), rfl, rfl, fun _ => by simp, .of_writesOnly hm, .inl ⟨.of_control (by simp), rfl,
        passLoop_keeps_ovf decBody_keeps_ovf hp⟩⟩

/-! ### The checks of the stream commands -/

theorem recordOverflows_eq_true {p limit n : Nat} : recordOverflows p limit n = true ↔ limit < p + recordSize n := by
  rw [← Bool.not_eq_false, recordOverflows_eq_false, Nat.not_le]

/-- RLE and RLD check the limit first. -/
theorem firstError_limitCheck (s : State) (cs : List (Bool × ErrCode)) :
    firstError (limitCheck s :: cs) =
      if s.params.dmemBytes < s.rleLimit.toNat then some .eAddr else firstError cs := by
  simp [firstError, limitCheck]

/-- With a limit inside DMEM, RLD is stopped by a record that does not lie below it. -/
theorem execRld_of_truncated {s : State} (rd : TReg) (hlimit : s.rleLimit.toNat ≤ s.params.dmemBytes)
    (h : readRecord s.dmem s.rlePtr.toNat s.rleLimit.toNat = .truncated) :
    execRld rd s = .next (s.stopError .eRleTrunc) := by
  have hpass : firstError [limitCheck s] = none := by
    rw [firstError_limitCheck, if_neg (Nat.not_lt.2 hlimit), firstError]
  rw [execRld, checked_of_none hpass, h]
  rfl

/-- Settles O15: the limit, then the room for the record, in the order of the check lists. -/
theorem streamCommandsCheckInOrder : Obligations.StreamCommandsCheckInOrder := by
  intro s r p limit
  refine ⟨fun hlimit => ⟨?_, ?_⟩, fun hlimit hfull => ?_, fun hlimit hcount => ?_, fun n hlimit hcount hn htrunc => ?_⟩
  · exact checked_of_some (by rw [firstError_limitCheck, if_pos hlimit]) s _
  · exact checked_of_some (by rw [firstError_limitCheck, if_pos hlimit]) s _
  · have hover : recordOverflows p limit (pairs (s.readTile r)).length = true :=
      recordOverflows_eq_true.2 (by rw [recordSize]; omega)
    refine checked_of_some ?_ s _
    rw [firstError_limitCheck, if_neg (Nat.not_lt.2 hlimit), firstError, if_pos hover]
  · have hover : recordOverflows p limit 0 = true := recordOverflows_eq_true.2 hcount
    exact execRld_of_truncated r hlimit (by rw [readRecord, if_pos hover])
  · have hfits : recordOverflows p limit 0 = false := recordOverflows_eq_false.2 hcount
    have hover : recordOverflows p limit n = true := recordOverflows_eq_true.2 (by rw [recordSize]; omega)
    exact execRld_of_truncated r hlimit (by simp [readRecord, p, limit, hfits, hn, hover])

end Sys2Proof.Machine
end

section
/-! The host port (10_state.md R35-R57, 20_memory.md R71-R74): which target an address names, what a served access does,
and the statements about CSRs, windows and the interrupt line. -/

namespace Sys2Proof.Machine

/-! ### Addresses -/

/-- An aligned word access at an address of the port is served by the target at that address. -/
theorem accessTarget_word (p : Params) {a : Nat} (hport : a < 2 ^ 25) (haligned : a % 4 = 0) :
    accessTarget p .word (BitVec.ofNat 25 a) = targetOf p a := by
  rw [accessTarget, BitVec.toNat_ofNat, Nat.mod_eq_of_lt hport, if_pos ⟨rfl, haligned⟩]

theorem accessTarget_reserved (p : Params) {k : Nat} (hk : k < 38) :
    accessTarget p .word (BitVec.ofNat 25 (0x68 + 4 * k)) = some (.csr .reserved) := by
  have hbeyond : csrMap.length ≤ (0x68 + 4 * k) / 4 := by
    have hlength : csrMap.length = 26 := rfl
    omega
  rw [accessTarget_word p (by omega) (by omega), targetOf, if_pos (by omega), csrAt, List.getD_eq_default _ _ hbeyond]

theorem accessTarget_luma (p : Params) (e : Fin 64) :
    accessTarget p .word (BitVec.ofNat 25 (0x400 + 4 * e.val)) = some (.qt .luma e) := by
  have helem : windowElem (0x400 + 4 * e.val) = e := Fin.ext (by simp only [windowElem]; omega)
  rw [accessTarget_word p (by omega) (by omega), targetOf, if_neg (by omega), if_neg (by omega), if_pos (by omega),
    helem]

theorem accessTarget_chroma (p : Params) (e : Fin 64) :
    accessTarget p .word (BitVec.ofNat 25 (0x500 + 4 * e.val)) = some (.qt .chroma e) := by
  have helem : windowElem (0x500 + 4 * e.val) = e := Fin.ext (by simp only [windowElem]; omega)
  rw [accessTarget_word p (by omega) (by omega), targetOf, if_neg (by omega), if_neg (by omega), if_neg (by omega),
    if_pos (by omega), helem]

theorem accessTarget_tile (p : Params) (i : TReg) (e : Fin 64) :
    accessTarget p .word (BitVec.ofNat 25 (0x800 + 256 * i.val + 4 * e.val)) = some (.tile i e) := by
  have helem : windowElem (0x800 + 256 * i.val + 4 * e.val) = e := Fin.ext (by simp only [windowElem]; omega)
  have hreg : (0x800 + 256 * i.val + 4 * e.val - 0x800) / 256 % 8 = i.val := by omega
  rw [accessTarget_word p (by omega) (by omega), targetOf, if_neg (by omega), if_neg (by omega), if_neg (by omega),
    if_neg (by omega), if_neg (by omega), if_pos (by omega), helem]
  simp only [hreg]

theorem accessTarget_cmd (p : Params) {k : Nat} (hk : k < p.nCmd) (hwindow : k < 4096) :
    accessTarget p .word (BitVec.ofNat 25 (0x4000 + 4 * k)) = some (.cmd k) := by
  have hindex : (0x4000 + 4 * k - 0x4000) / 4 = k := by omega
  rw [accessTarget_word p (by omega) (by omega), targetOf, if_neg (by omega), if_neg (by omega), if_neg (by omega),
    if_neg (by omega), if_neg (by omega), if_neg (by omega), if_neg (by omega), if_pos (by omega), hindex, if_pos hk]

theorem accessTarget_dmem (p : Params) {k : Nat} (hk : 4 * k < p.dmemBytes) (hwindow : 4 * k < 0x100_0000) :
    accessTarget p .word (BitVec.ofNat 25 (0x100_0000 + 4 * k)) = some (.dmem (4 * k)) := by
  have hoffset : 0x100_0000 + 4 * k - 0x100_0000 = 4 * k := by omega
  rw [accessTarget_word p (by omega) (by omega), targetOf, if_neg (by omega), if_neg (by omega), if_neg (by omega),
    if_neg (by omega), if_neg (by omega), if_neg (by omega), if_neg (by omega), if_neg (by omega), if_neg (by omega),
    hoffset, if_pos hk]

/-- A command word the port serves lies in CMDMEM. -/
theorem cmd_lt_of_accessTarget {p : Params} {size : AccessSize} {addr : BitVec 25} {k : Nat}
    (h : accessTarget p size addr = some (.cmd k)) : k < p.nCmd := by
  unfold accessTarget targetOf at h
  repeat' split at h
  all_goals simp only [Option.some.injEq, Target.cmd.injEq, reduceCtorEq] at h
  omega

/-- A DMEM word the port serves is aligned and begins in DMEM. -/
theorem dmem_lt_of_accessTarget {p : Params} {size : AccessSize} {addr : BitVec 25} {a : Nat}
    (h : accessTarget p size addr = some (.dmem a)) : a % 4 = 0 ∧ a < p.dmemBytes := by
  unfold accessTarget targetOf at h
  repeat' split at h
  all_goals simp only [Option.some.injEq, Target.dmem.injEq, reduceCtorEq] at h
  omega

/-! ### Served accesses -/

section
variable {s : State} {rest : List HostEvent} {addr : BitVec 25} {tg : Target}

theorem hostAccess_read (hrst : s.rstN = true) (htg : accessTarget s.params .word addr = some tg) :
    hostAccess s (.read .word addr) = hostReadTarget s tg := (if_pos hrst).trans (by rw [htg])

theorem hostAccess_write (hrst : s.rstN = true) (htg : accessTarget s.params .word addr = some tg) (v : Word) :
    hostAccess s (.write .word addr v) = .next ((hostWriteTarget s v tg).respond .writeOk) :=
  (if_pos hrst).trans (by rw [htg])

/-- A served read is the step. -/
theorem step_read {r : Result} (hrst : s.rstN = true) (htg : accessTarget s.params .word addr = some tg)
    (hr : hostReadTarget { s with host := rest } tg = r) :
    step { s with host := .access (.read .word addr) :: rest } = r :=
  (hostAccess_read (s := { s with host := rest }) hrst htg).trans hr

/-- A served write is the step, and the port answers it. -/
theorem step_write {v : Word} {u : State} (hrst : s.rstN = true) (htg : accessTarget s.params .word addr = some tg)
    (hu : hostWriteTarget { s with host := rest } v tg = u) :
    step { s with host := .access (.write .word addr v) :: rest } = .next (u.respond .writeOk) :=
  (hostAccess_write (s := { s with host := rest }) hrst htg v).trans (by rw [hu])

/-- The CSRs that may not be written while busy (10_state.md R46). -/
theorem State.csrWrite_locked {c : Csr} (hc : c ≠ .ctrl ∧ c ≠ .status ∧ c ≠ .ie ∧ c ≠ .is) (s : State) (v : Word) :
    s.csrWrite c v = if s.busy then s.violation else s.configWrite c v := by
  obtain ⟨hctrl, hstatus, hie, his⟩ := hc
  unfold State.csrWrite
  split
  · exact absurd rfl hctrl
  · exact absurd rfl hstatus
  · exact absurd rfl hie
  · exact absurd rfl his
  · rfl

theorem hostWriteTarget_busy (hbusy : s.busy = true)
    (htg : ∀ c, tg = .csr c → c ≠ .ctrl ∧ c ≠ .status ∧ c ≠ .ie ∧ c ≠ .is) (v : Word) :
    hostWriteTarget s v tg = s.violation := by
  cases tg with
  | csr c => exact (s.csrWrite_locked (htg c rfl) v).trans (if_pos hbusy)
  | qt t e => exact if_pos hbusy
  | tile i e => exact if_pos hbusy
  | cmd k => exact if_pos hbusy
  | dmem a => exact if_pos hbusy

theorem hostReadTarget_busy (hbusy : s.busy = true) (htg : ∀ c, tg ≠ .csr c) :
    hostReadTarget s tg = .next s.violation.respondFree := by
  cases tg with
  | csr c => exact absurd rfl (htg c)
  | qt t e => exact congrArg _ (if_pos hbusy)
  | tile i e => exact congrArg _ (if_pos hbusy)
  | cmd k => exact if_pos hbusy
  | dmem a => exact if_pos hbusy

/-- Settles O55: the two ways a locked target answers. -/
theorem busyLocksTheHostOut : Obligations.BusyLocksTheHostOut := fun s _ v _ rest hrst hbusy htg =>
  ⟨fun hlocked => step_write hrst htg (hostWriteTarget_busy (s := { s with host := rest }) hbusy hlocked v),
    fun hwindow => ⟨Config.freeWord s.draws,
      step_read hrst htg (hostReadTarget_busy (s := { s with host := rest }) hbusy hwindow)⟩⟩

/-! ### CTRL, IE, IS and STATUS -/

theorem State.writeCtrl_busy (hbusy : s.busy = true) (v : Word) :
    s.writeCtrl v = { s with hacc := s.hacc || v.getLsbD 0, abortPend := s.abortPend || v.getLsbD 1 } := if_pos hbusy

theorem State.writeCtrl_idle (hidle : s.busy = false) (v : Word) :
    s.writeCtrl v = if v.getLsbD 0 then s.start else s := if_neg (by simp [hidle])

/-- Settles O54: the cases of `State.writeCtrl`. -/
theorem ctrlWritesStartAndAbort : Obligations.CtrlWritesStartAndAbort := by
  intro s v rest hrst hhost
  have hstep : step s = .next ((({ s with host := rest } : State).writeCtrl v).respond .writeOk) := by
    have hwrite := step_write (s := s) (rest := rest) (addr := 0x008#25) (v := v) (tg := .csr .ctrl) hrst rfl rfl
    rwa [← hhost] at hwrite
  refine ⟨fun hidle hstart => ?_, fun hidle hstart => ?_, fun hbusy => ?_⟩
  · rw [hstep, State.writeCtrl_idle (s := { s with host := rest }) hidle, if_pos hstart]
    rfl
  · rw [hstep, State.writeCtrl_idle (s := { s with host := rest }) hidle, if_neg (Bool.eq_false_iff.1 hstart)]
    rfl
  · rw [hstep, State.writeCtrl_busy (s := { s with host := rest }) hbusy]
    rfl

theorem State.irq_eq_true (hrst : s.rstN = true) :
    s.irq = true ↔ (s.isDone = true ∧ s.doneIe = true) ∨ (s.isErr = true ∧ s.errIe = true) := by
  simp [State.irq, hrst]

/-- Settles O59: the three registers are written as `State.csrWrite` says, busy or idle. -/
theorem interruptLineAndItsRegisters : Obligations.InterruptLineAndItsRegisters := fun _ _ _ hrst =>
  ⟨State.irq_eq_true hrst, step_write (tg := .csr .ie) hrst rfl rfl, step_write (tg := .csr .is) hrst rfl rfl,
    step_write (tg := .csr .status) hrst rfl rfl⟩

/-! ### Reading and writing CSRs -/

/-- A CSR read answers the register, but for those whose value is unspecified while busy (10_state.md R47). -/
theorem step_read_csr {c : Csr} (hrst : s.rstN = true) (htg : accessTarget s.params .word addr = some (.csr c))
    (hgiven : (s.busy && c.unspecifiedWhileBusy) = false) :
    step { s with host := .access (.read .word addr) :: rest } =
      .next { s with host := rest, resp := .readOk (s.csrRead c) } :=
  step_read hrst htg (congrArg Host.Outcome.next (if_neg (by simp [hgiven])))

theorem step_read_csr_unspecified {c : Csr} (hrst : s.rstN = true)
    (htg : accessTarget s.params .word addr = some (.csr c)) (hfree : (s.busy && c.unspecifiedWhileBusy) = true) :
    step { s with host := .access (.read .word addr) :: rest } =
      .next { s with host := rest, resp := .readOk (Config.freeWord s.draws), draws := s.draws + 1 } :=
  step_read hrst htg (congrArg Host.Outcome.next (if_pos hfree))

/-- The environment's list stands apart from the configuration. -/
theorem State.configWrite_host (s : State) (c : Csr) (v : Word) (h : List HostEvent) :
    ({ s with host := h } : State).configWrite c v = { s.configWrite c v with host := h } := by
  cases c with
  | planeBase c => cases c <;> rfl
  | tcount c => cases c <;> rfl
  | _ => rfl

/-- While idle a write of a CSR but CTRL, STATUS, IE and IS stores the configuration. -/
theorem step_write_csr_idle {c : Csr} {v : Word} (hrst : s.rstN = true) (hidle : s.busy = false)
    (htg : accessTarget s.params .word addr = some (.csr c)) (hc : c ≠ .ctrl ∧ c ≠ .status ∧ c ≠ .ie ∧ c ≠ .is) :
    step { s with host := .access (.write .word addr v) :: rest } =
      .next { s.configWrite c v with host := rest, resp := .writeOk } := by
  have hwritten : ({ s with host := rest } : State).csrWrite c v = { s.configWrite c v with host := rest } := by
    rw [State.csrWrite_locked hc, if_neg (by simp [hidle]), State.configWrite_host]
  exact step_write hrst htg hwritten

theorem statusWord_toNat (s : State) :
    s.statusWord.toNat =
      s.busy.toNat + 2 * s.err.toNat + 4 * s.ovf.toNat + 8 * s.hacc.toNat + 16 * s.abortPend.toNat := by
  have hbits : ∀ b e o h a : Bool,
      (0#27 ++ BitVec.ofBool a ++ BitVec.ofBool h ++ BitVec.ofBool o ++ BitVec.ofBool e ++ BitVec.ofBool b).toNat =
        b.toNat + 2 * e.toNat + 4 * o.toNat + 8 * h.toNat + 16 * a.toNat := by decide
  exact hbits _ _ _ _ _

/-- Two flags in bits 1 and 0 of a word, as in IE and IS. -/
theorem twoFlags_toNat : ∀ hi lo : Bool,
    (0#30 ++ BitVec.ofBool hi ++ BitVec.ofBool lo).toNat = lo.toNat + 2 * hi.toNat := by decide

/-- Settles O56: each row of the CSR map, read and written. -/
theorem csrMapReadsAndWrites : Obligations.CsrMapReadsAndWrites := by
  intro s v hrst number read reads writes
  have hread : ∀ {offset : Nat} {c : Csr}, accessTarget s.params .word (BitVec.ofNat 25 offset) = some (.csr c) →
      c.unspecifiedWhileBusy = false → reads offset (s.csrRead c) := fun htg hc =>
    step_read_csr hrst htg (by simp [hc])
  have hprogress : ∀ {offset : Nat} {c : Csr}, accessTarget s.params .word (BitVec.ofNat 25 offset) = some (.csr c) →
      c.unspecifiedWhileBusy = true → (s.busy = false → reads offset (s.csrRead c)) ∧
        (s.busy = true → ∃ data,
          read offset = .next { s with host := [], resp := .readOk data, draws := s.draws + 1 }) :=
    fun htg hc => ⟨fun hidle => step_read_csr hrst htg (by simp [hidle]),
      fun hbusy => ⟨_, step_read_csr_unspecified hrst htg (by simp [hbusy, hc])⟩⟩
  have hnumber : s.errCode.code.zeroExtend 32 = number := by
    simp only [number]
    cases s.errCode <;> rfl
  refine ⟨?_, fun k hk => hread (accessTarget_reserved _ hk) rfl, ⟨_, hread (c := .status) rfl rfl, statusWord_toNat s⟩,
    ⟨_, hread (c := .ie) rfl rfl, twoFlags_toNat _ _⟩, ⟨_, hread (c := .is) rfl rfl, twoFlags_toNat _ _⟩, ?_,
    fun hidle => ?_⟩
  · rw [← hnumber]
    simp only [List.forall_mem_cons]
    exact ⟨hread (c := .id) rfl rfl, hread (c := .version) rfl rfl, hread (c := .ctrl) rfl rfl,
      hread (c := .errCode) rfl rfl, hread (c := .errPc) rfl rfl, hread (c := .width) rfl rfl,
      hread (c := .height) rfl rfl, hread (c := .tileSz) rfl rfl, hread (c := .pixBase) rfl rfl,
      hread (c := .planeBase .y) rfl rfl, hread (c := .planeBase .cb) rfl rfl, hread (c := .planeBase .cr) rfl rfl,
      hread (c := .rleLimit) rfl rfl, hread (c := .tilesX) rfl rfl, hread (c := .tilesY) rfl rfl,
      hread (c := .dmemSize) rfl rfl, hread (c := .cmdSize) rfl rfl, List.forall_mem_nil _⟩
  · simp only [List.forall_mem_cons]
    exact ⟨hprogress (c := .pc) rfl rfl, hprogress (c := .rlePtr) rfl rfl, hprogress (c := .tcount .y) rfl rfl,
      hprogress (c := .tcount .cb) rfl rfl, hprogress (c := .tcount .cr) rfl rfl, hprogress (c := .tidx) rfl rfl,
      List.forall_mem_nil _⟩
  · have hwrite : ∀ {offset : Nat} {c : Csr}, accessTarget s.params .word (BitVec.ofNat 25 offset) = some (.csr c) →
        c ≠ .ctrl ∧ c ≠ .status ∧ c ≠ .ie ∧ c ≠ .is → writes offset (s.configWrite c v) := fun htg hc =>
      step_write_csr_idle hrst hidle htg hc
    refine ⟨?_, ?_, fun k hk => hwrite (accessTarget_reserved _ hk) (by decide)⟩
    · simp only [List.forall_mem_cons]
      exact ⟨hwrite (c := .pc) rfl (by decide), hwrite (c := .width) rfl (by decide),
        hwrite (c := .height) rfl (by decide), hwrite (c := .pixBase) rfl (by decide),
        hwrite (c := .planeBase .y) rfl (by decide), hwrite (c := .planeBase .cb) rfl (by decide),
        hwrite (c := .planeBase .cr) rfl (by decide), hwrite (c := .rlePtr) rfl (by decide),
        hwrite (c := .rleLimit) rfl (by decide), hwrite (c := .tcount .y) rfl (by decide),
        hwrite (c := .tcount .cb) rfl (by decide), hwrite (c := .tcount .cr) rfl (by decide),
        hwrite (c := .tidx) rfl (by decide), List.forall_mem_nil _⟩
    · simp only [List.forall_mem_cons]
      exact ⟨hwrite (c := .id) rfl (by decide), hwrite (c := .version) rfl (by decide),
        hwrite (c := .errCode) rfl (by decide), hwrite (c := .errPc) rfl (by decide),
        hwrite (c := .tileSz) rfl (by decide), hwrite (c := .tilesX) rfl (by decide),
        hwrite (c := .tilesY) rfl (by decide), hwrite (c := .dmemSize) rfl (by decide),
        hwrite (c := .cmdSize) rfl (by decide), List.forall_mem_nil _⟩

end

end Sys2Proof.Machine
end

section
/-! The host windows (20_memory.md R71-R75) while the core is idle. -/

namespace Sys2Proof.Machine

/-! ### Words of DMEM and their bytes -/

/-- Four bytes that stand in DMEM read as their word, the first one on top (20_memory.md R75). -/
theorem readWord_of_bytes {m : Memory} {a : Nat} {b0 b1 b2 b3 : Byte} (h0 : cellRead m a = some b0)
    (h1 : cellRead m (a + 1) = some b1) (h2 : cellRead m (a + 2) = some b2) (h3 : cellRead m (a + 3) = some b3) :
    readWord m a = some (b0 ++ b1 ++ b2 ++ b3) := by
  have hbig : readBE m a 4 = some (((b0.toNat * 256 + b1.toNat) * 256 + b2.toNat) * 256 + b3.toNat) := by
    simp [readBE, h0, h1, h2, h3]
  rw [readWord, hbig, Option.map_some]
  refine congrArg some (BitVec.eq_of_toNat_eq ?_)
  simp only [BitVec.toNat_ofNat, BitVec.toNat_append]
  rw [← Nat.shiftLeft_add_eq_or_of_lt b1.isLt, ← Nat.shiftLeft_add_eq_or_of_lt b2.isLt,
    ← Nat.shiftLeft_add_eq_or_of_lt b3.isLt]
  simp only [Nat.shiftLeft_eq]
  have := b0.isLt
  have := b1.isLt
  have := b2.isLt
  have := b3.isLt
  omega

/-- A word with an unwritten byte has no value. -/
theorem readWord_eq_none {m : Memory} {a : Nat} (h : ∃ j < 4, cellRead m (a + j) = none) : readWord m a = none := by
  obtain ⟨j, hj, hnone⟩ := h
  rw [readWord, Option.map_eq_none_iff, ← Option.not_isSome_iff_eq_none, readBE_isSome]
  intro hall
  have hsome := hall (a + j) (by omega) (by omega)
  rw [hnone] at hsome
  exact Bool.false_ne_true hsome

/-- The byte of a word `k` bytes above its last one. -/
theorem ofNat_div_eq_extractLsb' (w : Word) (k : Nat) : BitVec.ofNat 8 (w.toNat / 2 ^ k) = w.extractLsb' k 8 := by
  apply BitVec.eq_of_toNat_eq
  rw [BitVec.toNat_ofNat, BitVec.extractLsb'_toNat, Nat.shiftRight_eq_div_pow]

/-- What DMEM holds after a word store, byte by byte (20_memory.md R75). -/
theorem cellRead_writeWord (m : Memory) (a : Nat) (w : Word) (b : Nat) :
    cellRead (writeWord m a w) b =
      if b = a then some (w.extractLsb' 24 8) else if b = a + 1 then some (w.extractLsb' 16 8)
      else if b = a + 2 then some (w.extractLsb' 8 8) else if b = a + 3 then some (w.extractLsb' 0 8)
      else cellRead m b := by
  have hbytes : writeWord m a w = cellWrite (cellWrite (cellWrite (cellWrite m a (w.extractLsb' 24 8))
      (a + 1) (w.extractLsb' 16 8)) (a + 2) (w.extractLsb' 8 8)) (a + 3) (w.extractLsb' 0 8) := by
    simp only [writeWord, writeBE, Nat.div_div_eq_div_mul, ← ofNat_div_eq_extractLsb']
    simp
  rw [hbytes]
  simp only [cellRead_cellWrite]
  grind

/-! ### The windows -/

section
variable {s : State}

/-- Writing one element of a tile register is read back; every other element is left alone. -/
theorem State.tileElem_writeElem (s : State) (i j : TReg) (e f : Fin 64) (v : Word) :
    (s.writeElem i e v).tileElem j f = if j = i ∧ f = e then v else s.tileElem j f := by
  by_cases hj : j = i
  · subst hj
    by_cases hf : f = e
    · subst hf
      simp [State.tileElem, State.writeElem]
    · have hval : e.val ≠ f.val := fun hv => hf (Fin.ext hv.symm)
      simp [State.tileElem, State.writeElem, hf, Vector.getElem_set_ne, hval]
  · have hval : i.val ≠ j.val := fun hv => hj (Fin.ext hv.symm)
    simp [State.tileElem, State.writeElem, hj, Vector.getElem_set_ne, hval]

theorem hostReadTarget_qt (hidle : s.busy = false) (t : TableSel) (e : Fin 64) :
    hostReadTarget s (.qt t e) = .next (s.respond (.readOk ((s.qt t)[e].setWidth 32))) :=
  congrArg Host.Outcome.next (if_neg (by simp [hidle]))

theorem hostReadTarget_tile (hidle : s.busy = false) (i : TReg) (e : Fin 64) :
    hostReadTarget s (.tile i e) = .next (s.respond (.readOk (s.tileElem i e))) :=
  congrArg Host.Outcome.next (if_neg (by simp [hidle]))

theorem hostReadTarget_cmd (hidle : s.busy = false) {k : Nat} {w : Word} (hw : cellRead s.cmdmem k = some w) :
    hostReadTarget s (.cmd k) = .next (s.respond (.readOk w)) := by simp [hostReadTarget, hidle, hw]

theorem hostReadTarget_cmd_unwritten (hidle : s.busy = false) {k : Nat} (hk : cellRead s.cmdmem k = none) :
    hostReadTarget s (.cmd k) = .fault .unwrittenCommand := by simp [hostReadTarget, hidle, hk]

theorem hostReadTarget_dmem (hidle : s.busy = false) {a : Nat} {w : Word} (hw : readWord s.dmem a = some w) :
    hostReadTarget s (.dmem a) = .next (s.respond (.readOk w)) := by simp [hostReadTarget, hidle, hw, withData]

theorem hostReadTarget_dmem_unwritten (hidle : s.busy = false) {a : Nat} (ha : readWord s.dmem a = none) :
    hostReadTarget s (.dmem a) = .fault .unwrittenData := by simp [hostReadTarget, hidle, ha, withData]

theorem hostWriteTarget_qt (hidle : s.busy = false) (t : TableSel) (e : Fin 64) (v : Word) :
    hostWriteTarget s v (.qt t e) = s.writeQt t e (v.setWidth 16) := if_neg (by simp [hidle])

theorem hostWriteTarget_tile (hidle : s.busy = false) (i : TReg) (e : Fin 64) (v : Word) :
    hostWriteTarget s v (.tile i e) = s.writeElem i e v := if_neg (by simp [hidle])

theorem hostWriteTarget_cmd (hidle : s.busy = false) (k : Nat) (v : Word) :
    hostWriteTarget s v (.cmd k) = { s with cmdmem := cellWrite s.cmdmem k v } := if_neg (by simp [hidle])

theorem hostWriteTarget_dmem (hidle : s.busy = false) (a : Nat) (v : Word) :
    hostWriteTarget s v (.dmem a) = s.setDmem (writeWord s.dmem a v) := if_neg (by simp [hidle])

end

/-- Settles O57: each window's address names its target, and the target is read or written there. -/
theorem hostWindowsReachTheState : Obligations.HostWindowsReachTheState := by
  intro s v hrst hidle
  dsimp only
  have hidle' : ({ s with host := [] } : State).busy = false := hidle
  refine ⟨fun i e => ?_, fun e => ⟨?_, ?_⟩, fun k hk hwindow => ⟨fun w hw => ?_, fun hnone => ?_⟩,
    fun k hk hwindow => ⟨fun b0 b1 b2 b3 h0 h1 h2 h3 => ?_, fun hnone => ?_⟩, fun i e => ?_, fun e => ⟨?_, ?_⟩,
    fun k hk hwindow => ?_, fun k hk hwindow => ?_⟩
  · exact step_read hrst (accessTarget_tile _ i e) (hostReadTarget_tile hidle' i e)
  · exact step_read hrst (accessTarget_luma _ e) (hostReadTarget_qt hidle' .luma e)
  · exact step_read hrst (accessTarget_chroma _ e) (hostReadTarget_qt hidle' .chroma e)
  · exact step_read hrst (accessTarget_cmd _ hk hwindow) (hostReadTarget_cmd hidle' hw)
  · exact step_read hrst (accessTarget_cmd _ hk hwindow) (hostReadTarget_cmd_unwritten hidle' hnone)
  · exact step_read hrst (accessTarget_dmem _ hk hwindow) (hostReadTarget_dmem hidle' (readWord_of_bytes h0 h1 h2 h3))
  · exact step_read hrst (accessTarget_dmem _ hk hwindow)
      (hostReadTarget_dmem_unwritten hidle' (readWord_eq_none hnone))
  · exact ⟨(s.writeElem i e v).tiles, step_write hrst (accessTarget_tile _ i e) (hostWriteTarget_tile hidle' i e v),
      fun j f => s.tileElem_writeElem i j e f v⟩
  · exact step_write hrst (accessTarget_luma _ e) (hostWriteTarget_qt hidle' .luma e v)
  · exact step_write hrst (accessTarget_chroma _ e) (hostWriteTarget_qt hidle' .chroma e v)
  · exact ⟨cellWrite s.cmdmem k v, step_write hrst (accessTarget_cmd _ hk hwindow) (hostWriteTarget_cmd hidle' k v),
      fun j => cellRead_cellWrite _ _ _ _⟩
  · exact ⟨writeWord s.dmem (4 * k) v,
      step_write hrst (accessTarget_dmem _ hk hwindow) (hostWriteTarget_dmem hidle' (4 * k) v),
      cellRead_writeWord s.dmem (4 * k) v⟩

end Sys2Proof.Machine
end

section
/-! Every step keeps the invariant: the core's by its commands, the host's by where its accesses write, the reset pin's
by what a reset leaves. -/

namespace Sys2Proof.Machine

section
variable {s t : State}

/-! ### The host port -/

/-- A served read writes nothing that the invariant reads. -/
theorem hostReadTarget_guarded {tg : Target} (h : hostReadTarget s tg = .next t) : t.guarded = s.guarded := by
  have hlocked : s.violation.respondFree.guarded = s.guarded := rfl
  have hanswered : ∀ r, (s.respond r).guarded = s.guarded := fun _ => rfl
  cases tg with
  | csr c =>
    rw [← Host.Outcome.next.inj h]
    split <;> rfl
  | qt sel e =>
    rw [← Host.Outcome.next.inj h]
    split <;> rfl
  | tile i e =>
    rw [← Host.Outcome.next.inj h]
    split <;> rfl
  | cmd k =>
    simp only [hostReadTarget] at h
    split at h
    · exact Host.Outcome.next.inj h ▸ hlocked
    split at h
    · exact Host.Outcome.next.inj h ▸ hanswered _
    · cases h
  | dmem a =>
    simp only [hostReadTarget] at h
    split at h
    · exact Host.Outcome.next.inj h ▸ hlocked
    obtain ⟨w, _, hw⟩ := withData_next.1 h
    exact Host.Outcome.next.inj hw ▸ hanswered _

/-- START begins a run, ABORT needs one. -/
theorem writeCtrl_keeps_inv (hs : Inv s) (hrst : s.rstN = true) (v : Word) : Inv (s.writeCtrl v) := by
  cases hbusy : s.busy with
  | true =>
    rw [State.writeCtrl_busy hbusy]
    exact (hs.setAbortPend hbusy (s.abortPend || v.getLsbD 1)).congr rfl
  | false =>
    rw [State.writeCtrl_idle hbusy]
    split
    · exact hs.start hrst
    · exact hs

theorem configWrite_guarded (s : State) (c : Csr) (v : Word) : (s.configWrite c v).guarded = s.guarded := by
  cases c with
  | planeBase c => cases c <;> rfl
  | tcount c => exact s.guarded_setTcount c v
  | _ => rfl

theorem csrWrite_keeps_inv (hs : Inv s) (hrst : s.rstN = true) (c : Csr) (v : Word) : Inv (s.csrWrite c v) := by
  by_cases hc : c ≠ .ctrl ∧ c ≠ .status ∧ c ≠ .ie ∧ c ≠ .is
  · rw [State.csrWrite_locked hc]
    split
    · exact hs.congr rfl
    · exact hs.congr (configWrite_guarded s c v)
  · have hopen : c = .ctrl ∨ c = .status ∨ c = .ie ∨ c = .is := by tauto
    rcases hopen with rfl | rfl | rfl | rfl
    · exact writeCtrl_keeps_inv hs hrst v
    · exact hs.congr rfl
    · exact hs.congr rfl
    · exact hs.congr rfl

/-- A served write lands inside its memory: the port answers SLVERR beyond it (20_memory.md R71). -/
theorem hostWriteTarget_keeps_inv {size : AccessSize} {addr : BitVec 25} {tg : Target} (hs : Inv s)
    (hrst : s.rstN = true) (htg : accessTarget s.params size addr = some tg) (v : Word) :
    Inv (hostWriteTarget s v tg) := by
  have hlocked : Inv s.violation := hs.congr rfl
  cases tg with
  | csr c => exact csrWrite_keeps_inv hs hrst c v
  | qt sel e =>
    simp only [hostWriteTarget]
    split
    · exact hlocked
    · cases sel <;> exact hs.congr rfl
  | tile i e =>
    simp only [hostWriteTarget]
    split
    · exact hlocked
    · exact hs.congr rfl
  | cmd k =>
    simp only [hostWriteTarget]
    split
    · exact hlocked
    · exact hs.setCmdmem (cmd_lt_of_accessTarget htg) v
  | dmem a =>
    simp only [hostWriteTarget]
    split
    · exact hlocked
    · obtain ⟨haligned, hlt⟩ := dmem_lt_of_accessTarget htg
      have hwords := hs.legal.1
      exact hs.setDmem (writeWord_writesOnly s.dmem a v) (.inr (by omega))

theorem hostAccess_keeps_inv {a : HostAccess} (hs : Inv s) (h : hostAccess s a = .next t) : Inv t := by
  have hanswered : ∀ {u : State} (r : HostResponse), Inv u → Inv (u.respond r) := fun _ hu => hu.congr rfl
  cases a with
  | read size addr =>
    simp only [hostAccess] at h
    split at h
    · split at h
      · exact hs.congr (hostReadTarget_guarded h)
      · exact Host.Outcome.next.inj h ▸ hanswered _ hs
    · exact Host.Outcome.next.inj h ▸ hanswered _ hs
  | write size addr v =>
    simp only [hostAccess] at h
    split at h
    · rename_i hrst
      split at h
      · rename_i tg htg
        exact Host.Outcome.next.inj h ▸ hanswered _ (hostWriteTarget_keeps_inv hs hrst htg v)
      · exact Host.Outcome.next.inj h ▸ hanswered _ hs
    · exact Host.Outcome.next.inj h ▸ hanswered _ hs

/-! ### The reset pin -/

theorem resetLow_keeps_inv (hs : Inv s) : Inv s.resetLow :=
  { (resetMeetsTheInvariant s.params hs.legal : Inv (State.atReset s.params)) with lowIdle := fun _ => rfl }

theorem resetHigh_keeps_inv (hs : Inv s) : Inv s.resetHigh :=
  { hs with lowIdle := fun hlow => absurd hlow.symm Bool.false_ne_true }

theorem eventStep_keeps_inv {e : HostEvent} (hs : Inv s) (h : eventStep s e = .next t) : Inv t := by
  cases e with
  | access a => exact hostAccess_keeps_inv hs h
  | sequencer => exact coreStep_keeps_inv hs h
  | resetLow => exact Host.Outcome.next.inj h ▸ resetLow_keeps_inv hs
  | resetHigh => exact Host.Outcome.next.inj h ▸ resetHigh_keeps_inv hs

end

/-- Settles O3: the next event of the environment keeps the invariant, and so does the core where none is listed. -/
theorem stepKeepsTheInvariant : Obligations.StepKeepsTheInvariant := by
  intro s t hs h
  unfold step machineStep at h
  split at h
  · exact coreStep_keeps_inv hs h
  · rename_i e rest _
    have hrest : Inv { s with host := rest } := hs.congr rfl
    exact eventStep_keeps_inv hrest h

end Sys2Proof.Machine
end

section
/-! Accesses the host port refuses (20_memory.md R73), and the bytes of a record (20_memory.md R82). -/

namespace Sys2Proof.Machine

/-! ### Refused accesses -/

/-- The gaps of the address map (20_memory.md R71) name no target, nor do the words beyond CMDMEM and DMEM. -/
theorem targetOf_eq_none {p : Params} {a : Nat}
    (h : (0x100 ≤ a ∧ a < 0x400) ∨ (0x600 ≤ a ∧ a < 0x800) ∨ (0x1000 ≤ a ∧ a < 0x4000) ∨
      (0x4000 ≤ a ∧ a < 0x8000 ∧ p.nCmd ≤ (a - 0x4000) / 4) ∨ (0x8000 ≤ a ∧ a < 0x100_0000) ∨
      (0x100_0000 ≤ a ∧ p.dmemBytes ≤ a - 0x100_0000)) : targetOf p a = none := by
  rcases h with h | h | h | h | h | h <;> simp (disch := omega) only [targetOf, if_neg, if_pos]

/-- An access without a target is answered SLVERR, a read and a write alike (20_memory.md R73). -/
theorem hostAccess_refused {s : State} {size : AccessSize} {addr : BitVec 25} (hrst : s.rstN = true)
    (htg : accessTarget s.params size addr = none) (v : Word) :
    ∀ a ∈ [HostAccess.read size addr, .write size addr v], hostAccess s a = .next (s.respond .slverr) := by
  simp [hostAccess, hrst, htg]

/-- Settles O58: a refused access names no target, whatever the core is doing. -/
theorem busErrorsChangeNothing : Obligations.BusErrorsChangeNothing := by
  intro s size addr v rest hrst hrefused a ha
  have htg : accessTarget s.params size addr = none := by
    unfold accessTarget
    split
    · rename_i hserved
      obtain ⟨hword, haligned⟩ := hserved
      refine targetOf_eq_none ?_
      rcases hrefused with hnarrow | hmisaligned | hgap
      · exact absurd hword hnarrow
      · exact absurd haligned hmisaligned
      · exact hgap
    · rfl
  exact hostAccess_refused (s := { s with host := rest }) hrst htg v a ha

/-! ### The bytes of a record -/

/-- A number's two bytes, the high one first (20_memory.md R75). -/
theorem halfBytes_ofNat (n : Nat) :
    halfBytes (BitVec.ofNat 16 n) = [BitVec.ofNat 8 (n / 256), BitVec.ofNat 8 n] := by
  have hhigh : (BitVec.ofNat 16 n).extractLsb' 8 8 = BitVec.ofNat 8 (n / 256) := by
    apply BitVec.eq_of_toNat_eq
    simp only [BitVec.extractLsb'_toNat, BitVec.toNat_ofNat, Nat.shiftRight_eq_div_pow]
    omega
  have hlow : (BitVec.ofNat 16 n).extractLsb' 0 8 = BitVec.ofNat 8 n := by
    apply BitVec.eq_of_toNat_eq
    simp only [BitVec.extractLsb'_toNat, BitVec.toNat_ofNat, Nat.shiftRight_eq_div_pow]
    omega
  rw [halfBytes, hhigh, hlow]

/-- An integer's two bytes in two's complement, the high one first; `/` is floor division. -/
theorem halfBytes_ofInt (v : Int) :
    halfBytes (BitVec.ofInt 16 v) = [BitVec.ofInt 8 (v / 256), BitVec.ofInt 8 v] := by
  have hhigh : (BitVec.ofInt 16 v).extractLsb' 8 8 = BitVec.ofInt 8 (v / 256) := by
    apply BitVec.eq_of_toNat_eq
    simp only [BitVec.extractLsb'_toNat, BitVec.toNat_ofInt, Nat.shiftRight_eq_div_pow]
    omega
  have hlow : (BitVec.ofInt 16 v).extractLsb' 0 8 = BitVec.ofInt 8 v := by
    apply BitVec.eq_of_toNat_eq
    simp only [BitVec.extractLsb'_toNat, BitVec.toNat_ofInt, Nat.shiftRight_eq_div_pow]
    omega
  rw [halfBytes, hhigh, hlow]

/-- Byte `k` of pair `j` stands at `3j + k` of the pairs' bytes. -/
theorem flatMap_pairBytes_getElem? {ps : List RunPair} {j k : Nat} (hj : j < ps.length) (hk : k < 3) :
    (ps.flatMap pairBytes)[3 * j + k]? = (pairBytes ps[j])[k]? := by
  induction ps generalizing j with
  | nil => cases hj
  | cons p ps ih =>
    rw [List.flatMap_cons]
    cases j with
    | zero => rw [List.getElem?_append_left (by simp; omega), Nat.mul_zero, Nat.zero_add, List.getElem_cons_zero]
    | succ j =>
      have hoffset : 3 * (j + 1) + k - (pairBytes p).length = 3 * j + k := by rw [pairBytes_length]; omega
      rw [List.getElem?_append_right (by rw [pairBytes_length]; omega), hoffset, ih (Nat.succ_lt_succ_iff.1 hj),
        List.getElem_cons_succ]

/-- A record's count comes first, byte `k` of pair `j` at `2 + 3j + k` (20_memory.md R82). -/
theorem record_getElem? {ps : List RunPair} {j k : Nat} (hj : j < ps.length) (hk : k < 3) :
    (record ps)[2 + (3 * j + k)]? = (pairBytes ps[j])[k]? := by
  rw [record, List.getElem?_append_right (Nat.le_add_right 2 _), halfBytes_length, Nat.add_sub_cancel_left,
    flatMap_pairBytes_getElem? hj hk]

/-- Settles O32: the count's two bytes are a record's first, then come the three bytes of each pair. -/
theorem recordHasTheSpecifiedBytes : Obligations.RecordHasTheSpecifiedBytes := by
  intro ps _
  refine ⟨by rw [record_length, recordSize, Nat.add_comm], by simp [record, halfBytes_ofNat],
    by simp [record, halfBytes_ofNat], fun j hj => ?_⟩
  have hpair : pairBytes ps[j] = [BitVec.ofNat 8 ps[j].1, BitVec.ofInt 8 (ps[j].2 / 256), BitVec.ofInt 8 ps[j].2] := by
    rw [pairBytes, halfBytes_ofInt]
  have hbyte (k : Nat) (hk : k < 3) := hpair ▸ record_getElem? hj hk
  refine ⟨hbyte 0 (by decide), ?_, ?_⟩
  · rw [show 3 + 3 * j = 2 + (3 * j + 1) by omega]
    exact hbyte 1 (by decide)
  · rw [show 4 + 3 * j = 2 + (3 * j + 2) by omega]
    exact hbyte 2 (by decide)

end Sys2Proof.Machine
end

section
/-! Overlapping regions (20_memory.md R84), and the stream that a completed ENCC leaves (46_pipeline.md R240). -/

namespace Sys2Proof.Machine

/-! ### Commands that pass their checks -/

section
variable {s : State} {c : Channel} {tb : TableSel}

theorem PlaneReady.dimCheck_passed (h : PlaneReady c s) : (dimCheck s).1 = false := by
  simp only [dimCheck, Bool.or_eq_false_iff, beq_eq_false_iff_ne]
  exact ⟨h.width, h.height⟩

theorem PlaneReady.alignCheck_passed (h : PlaneReady c s) : (alignCheck c s).1 = false := by
  simp [alignCheck, h.aligned]

theorem TableReady.qtCheck_passed (h : TableReady tb s) : (qtCheck tb s).1 = false := by
  simp only [qtCheck, qtHasZero, anyElem_eq_false, beq_eq_false_iff_ne]
  exact h

theorem imageChecks_passed (hplanes : ∀ c, PlaneReady c s) (hpixels : PixelsReady s) :
    firstError (imageChecks s) = none := by
  have hpix : (pixCheck s).1 = false := (pixCheck_passed s).2 hpixels
  have hplane (c : Channel) : (planeCheck c s).1 = false := (planeCheck_passed s c).2 (hplanes c).fits
  simp [firstError_eq_none, imageChecks, (hplanes .y).dimCheck_passed, (hplanes _).alignCheck_passed, hpix, hplane]

theorem enccChecks_passed (hplane : PlaneReady c s) (htable : TableReady tb s)
    (hlimit : s.rleLimit.toNat ≤ s.params.dmemBytes) : firstError (enccChecks c tb s) = none := by
  simp [firstError_eq_none, enccChecks, hplane.dimCheck_passed, hplane.alignCheck_passed,
    (planeCheck_passed s c).2 hplane.fits, (limitCheck_passed s).2 hlimit, htable.qtCheck_passed]

theorem deccChecks_passed (hplane : PlaneReady c s) (htable : TableReady tb s)
    (hlimit : s.rleLimit.toNat ≤ s.params.dmemBytes) (hcount : (s.tcount c).toNat = s.tileCount) :
    firstError (deccChecks c tb s) = none := by
  have hshared := firstError_eq_none.1 (enccChecks_passed hplane htable hlimit)
  have htcount : (tcountCheck c s).1 = false := by simp [tcountCheck, hcount]
  have hsplit : deccChecks c tb s = enccChecks c tb s ++ [tcountCheck c s] := rfl
  rw [firstError_eq_none, hsplit, List.forall_mem_append]
  exact ⟨hshared, by simpa using htcount⟩

end

/-! ### Overlap -/

theorem Region.overlaps_comm (r q : Region) : r.overlaps q = q.overlaps r := by
  rw [Region.overlaps, Region.overlaps, Nat.max_comm, Nat.min_comm]

theorem Region.Disjoint.overlaps_eq_false {r q : Region} (h : r.Disjoint q) : r.overlaps q = false := by
  rcases h with h | h <;> simp only [Region.overlaps, decide_eq_false_iff_not] <;> omega

section
variable {s : State}

theorem pixOverlapsPlane_eq_true : pixOverlapsPlane s = true ↔ ∃ c, s.pixRegion.overlaps (s.plane c).region = true := by
  simp only [pixOverlapsPlane, Bool.or_eq_true]
  constructor
  · rintro ((h | h) | h)
    exacts [⟨.y, h⟩, ⟨.cb, h⟩, ⟨.cr, h⟩]
  · rintro ⟨_ | _ | _, h⟩
    exacts [.inl (.inl h), .inl (.inr h), .inr h]

/-- `planesOverlap` lists each pair of planes once; overlap does not depend on the order. -/
theorem planesOverlap_of_ne {c d : Channel} (hne : c ≠ d)
    (h : (s.plane c).region.overlaps (s.plane d).region = true) : planesOverlap s = true := by
  have hcomm := (Region.overlaps_comm (s.plane c).region (s.plane d).region).symm.trans h
  cases c <;> cases d <;> simp_all [planesOverlap]

end

theorem withChannel_channelField (c : Channel) (s : State) (k : Channel → Result) :
    withChannel (channelField c) s k = k c := by
  rw [withChannel, channelOf_channelField]

section
variable {s : State} {c : Channel} {tb : TableSel}

theorem execEncc_of_overlap (hchecks : firstError (enccChecks c tb s) = none)
    (hclash : (s.plane c).region.overlaps s.streamRegion = true) :
    exec (.encc (channelField c) tb) s = .fault .overlap :=
  (withChannel_channelField c s _).trans ((checked_of_none hchecks s _).trans (if_pos hclash))

theorem execDecc_of_overlap (hchecks : firstError (deccChecks c tb s) = none)
    (hclash : (s.plane c).region.overlaps s.streamRegion = true) :
    exec (.decc (channelField c) tb) s = .fault .overlap :=
  (withChannel_channelField c s _).trans ((checked_of_none hchecks s _).trans (if_pos hclash))

/-- ENCC completes where its pass does. -/
theorem execEncc_of_done {p : PassState} (hchecks : firstError (enccChecks c tb s) = none)
    (hapart : (s.plane c).region.overlaps s.streamRegion = false)
    (hpass : passLoop (encBody (s.plane c) (s.qt tb) s.rleLimit.toNat) s.tileCount 0 s.passStart = .done p) :
    exec (.encc (channelField c) tb) s =
      .next ((s.afterPass p).setTcount c (BitVec.ofNat 32 s.tileCount)).advance := by
  refine (withChannel_channelField c s _).trans ((checked_of_none hchecks s _).trans ?_)
  rw [hapart, hpass]
  rfl

end

/-- Settles O20: the regions are compared once the checks have passed. -/
theorem overlapIsAModelFault : Obligations.OverlapIsAModelFault := by
  intro s
  have himage {clash : Bool} {k : Result} (hplanes : ∀ c, PlaneReady c s) (hpixels : PixelsReady s)
      (hclash : clash = true) : checked (imageChecks s) s (unlessOverlap clash k) = .fault .overlap :=
    (checked_of_none (imageChecks_passed hplanes hpixels) s _).trans (if_pos hclash)
  refine ⟨fun hplanes hpixels => ⟨fun hpix => ?_, fun ⟨c, d, hne, hcd⟩ => ?_⟩,
    fun c tb hplane htable hlimit hstream => ⟨?_, fun hcount => ?_⟩⟩
  · have hclash := pixOverlapsPlane_eq_true.2 hpix
    exact ⟨himage hplanes hpixels (by rw [hclash, Bool.true_or]), himage hplanes hpixels hclash⟩
  · exact himage hplanes hpixels (by rw [planesOverlap_of_ne hne hcd, Bool.or_true])
  · exact execEncc_of_overlap (enccChecks_passed hplane htable hlimit) hstream
  · exact execDecc_of_overlap (deccChecks_passed hplane htable hlimit hcount) hstream

/-! ### The stream of a list of tiles -/

/-- The bytes ENCC makes of a list of tiles: their records, back to back (20_memory.md R83). -/
def streamOf (q : QTable) (xs : List Tile) : List Byte := xs.flatMap fun x => record (pairs (encodeTile q x))

/-- The pass state after the given tiles have been encoded, `p` being the one before them. -/
def PassState.encoded (p : PassState) (q : QTable) (xs : List Tile) : PassState :=
  { mem := writeBytes p.mem p.ptr (streamOf q xs), ptr := p.ptr + (streamOf q xs).length,
    ovf := p.ovf || xs.any (encodeTileOvf q) }

theorem streamOf_append (q : QTable) (xs ys : List Tile) :
    streamOf q (xs ++ ys) = streamOf q xs ++ streamOf q ys := List.flatMap_append

theorem streamOf_singleton (q : QTable) (x : Tile) : streamOf q [x] = record (pairs (encodeTile q x)) :=
  List.flatMap_singleton _ x

/-- No record is empty, so a stream has more bytes than tiles. -/
theorem length_le_length_streamOf (q : QTable) (xs : List Tile) : xs.length ≤ (streamOf q xs).length := by
  induction xs with
  | nil => exact Nat.zero_le _
  | cons x xs ih =>
    have hstream : streamOf q (x :: xs) = record (pairs (encodeTile q x)) ++ streamOf q xs := List.flatMap_cons
    rw [hstream, List.length_append, record_length, recordSize, List.length_cons]
    omega

theorem PassState.encoded_nil (p : PassState) (q : QTable) : p.encoded q [] = p := by
  simp [PassState.encoded, streamOf, writeBytes]

section
variable {pl : Plane} {q : QTable} {limit i : Nat} {p : PassState}

/-- One tile of ENCC, where its samples are written and its record fits. -/
theorem encBody_of_partition {x : Tile} (hx : partition p.mem pl i = some x)
    (hfits : p.ptr + (streamOf q [x]).length ≤ limit) : encBody pl q limit i p = .done (p.encoded q [x]) := by
  rw [streamOf_singleton, record_length] at hfits
  have hover := recordOverflows_eq_false.2 hfits
  simp [encBody, hx, hover, PassState.encoded, streamOf_singleton]

theorem PassState.encoded_append (p : PassState) (q : QTable) (xs ys : List Tile) :
    p.encoded q (xs ++ ys) = (p.encoded q xs).encoded q ys := by
  simp [PassState.encoded, streamOf_append, writeBytes_append, Nat.add_assoc, Bool.or_assoc]

/-- The tiles encoded so far leave a plane apart from the stream region as it was. -/
theorem partition_encoded {xs : List Tile} (hapart : pl.region.Disjoint ⟨p.ptr, limit⟩)
    (hfits : p.ptr + (streamOf q xs).length ≤ limit) :
    partition (p.encoded q xs).mem pl i = partition p.mem pl i := by
  refine partition_congr i fun a hlo hhi => (writeBytes_writesOnly p.mem p.ptr (streamOf q xs)).outside a ?_
  rcases hapart with hbefore | hafter
  · exact .inl (Nat.lt_of_lt_of_le hhi hbefore)
  · exact .inr (hfits.trans (Nat.le_trans hafter hlo))

/-- ENCC's pass over tiles whose samples are written and whose records fit (46_pipeline.md R240). -/
theorem passLoop_encBody {xs : List Tile} (hapart : pl.region.Disjoint ⟨p.ptr, limit⟩)
    (hxs : ∀ i (h : i < xs.length), partition p.mem pl i = some xs[i])
    (hfits : p.ptr + (streamOf q xs).length ≤ limit) :
    passLoop (encBody pl q limit) xs.length 0 p = .done (p.encoded q xs) := by
  have hprefix (n : Nat) : p.ptr + (streamOf q (xs.take n)).length ≤ limit := by
    have hsplit := congrArg List.length (streamOf_append q (xs.take n) (xs.drop n))
    rw [List.take_append_drop, List.length_append] at hsplit
    omega
  have htile (n : Nat) (p' : PassState) (_ : 0 ≤ n) (hn : n < 0 + xs.length) (hp' : p' = p.encoded q (xs.take n)) :
      ∃ p'', encBody pl q limit n p' = .done p'' ∧ p'' = p.encoded q (xs.take (n + 1)) := by
    rw [Nat.zero_add] at hn
    have hstep : xs.take (n + 1) = xs.take n ++ [xs[n]] := List.take_succ_eq_append_getElem hn
    have hroom := hprefix (n + 1)
    rw [hstep, streamOf_append, List.length_append, ← Nat.add_assoc] at hroom
    rw [hstep, PassState.encoded_append, hp']
    exact ⟨_, encBody_of_partition ((partition_encoded hapart (hprefix n)).trans (hxs n hn)) hroom, rfl⟩
  obtain ⟨p', hrun, hp'⟩ := passLoop_keeps (fun n p' => p' = p.encoded q (xs.take n))
    (by rw [List.take_zero, p.encoded_nil]) htile
  rw [hrun, hp', Nat.zero_add, List.take_length]

end

/-! ### ENCC -/

theorem scan_getElem (x : Tile) (i : Fin 64) : (scan x)[i] = x[zzTable[i]] := by simp [scan]

theorem qnt_range (x : Tile) (q : QTable) (e : Fin 64) :
    satMin 16 ≤ (qnt x q)[e].toInt ∧ (qnt x q)[e].toInt ≤ satMax 16 := by
  have hrange := sat_range 16 (qntRaw x q e)
  rw [satMin16, satMax16] at hrange ⊢
  rw [qnt, satTile_getElem, BitVec.toInt_ofInt, Int.bmod_eq_of_le (by omega) (by omega)]
  exact hrange

/-- A quantized element is a 16-bit value, so the run-length coder saturates none (45_coefcoder.md R214). -/
theorem pairsOvf_encodeTile (q : QTable) (x : Tile) : pairsOvf (encodeTile q x) = false := by
  rw [pairsOvf, satFlag, anyElem_eq_false]
  intro e
  rw [saturates_eq_false_iff]
  have helem : (encodeTile q x)[e] = (qnt (fdct x) q)[zzTable[e]] := by simp only [encodeTile, scan_getElem]
  have hrange := qnt_range (fdct x) q zzTable[e]
  rwa [← helem] at hrange

theorem encodeTileOvf_eq (q : QTable) (x : Tile) : encodeTileOvf q x = (fdctOvf x || qntOvf (fdct x) q) := by
  rw [encodeTileOvf, pairsOvf_encodeTile, Bool.or_false]

/-- Settles O34: the pass leaves its tiles' stream, and RLE_PTR and TCOUNT hold its numbers without loss because the
stream lies below a 32-bit limit. -/
theorem enccWritesTheChannelStream : Obligations.EnccWritesTheChannelStream := by
  intro s c tb xs hplane htable hlimit hapart hcount hxs stream hfits
  have hpass := passLoop_encBody (p := s.passStart) (q := s.qt tb) (xs := xs) hapart hxs hfits
  rw [hcount] at hpass
  have hbelow := s.rleLimit.isLt
  have htiles : xs.length ≤ stream.length := length_le_length_streamOf (s.qt tb) xs
  have hovf : xs.any (encodeTileOvf (s.qt tb)) = xs.any fun x => fdctOvf x || qntOvf (fdct x) (s.qt tb) :=
    congrArg xs.any (funext (encodeTileOvf_eq (s.qt tb)))
  refine ⟨_, execEncc_of_done (enccChecks_passed hplane htable hlimit) hapart.overlaps_eq_false hpass,
    by simp, fun j hj => ?_, ?_, ?_, ?_⟩
  · have hmem : (s.passStart.encoded (s.qt tb) xs).mem = writeBytes s.dmem s.rlePtr.toNat stream := rfl
    simpa [hmem] using cellRead_writeBytes s.dmem s.rlePtr.toNat stream j hj
  · have hptr : (s.passStart.encoded (s.qt tb) xs).ptr = s.rlePtr.toNat + stream.length := rfl
    simp only [State.advance_rlePtr, State.setTcount_rlePtr, State.afterPass_rlePtr, hptr]
    rw [BitVec.toNat_ofNat, Nat.mod_eq_of_lt (by omega)]
  · have htc : s.tileCount = xs.length := hcount.symm
    simp only [State.advance_tcount, State.setTcount_tcount, if_true, htc]
    rw [BitVec.toNat_ofNat, Nat.mod_eq_of_lt (by omega)]
  · simpa [PassState.encoded, State.passStart] using congrArg (s.ovf || ·) hovf

end Sys2Proof.Machine
end

section
/-! Encoding (30_encoding.md). The decoder reads the fields a command uses and asks the others to be zero, so a word
decodes to a command exactly when it holds the command's fields; the rows of R104 ask the same by mask and match. -/

namespace Sys2Proof

/-! ### The word and its fields -/

/-- A word is the concatenation of its fields (R101): the fields leave out no bit. -/
theorem packFields_fieldsOf (w : Word) : packFields (fieldsOf w) = w := by
  simp only [packFields, fieldsOf, BitVec.extractLsb'_append_extractLsb'_eq_extractLsb']
  exact BitVec.extractLsb'_eq_self

theorem fieldsOf_inj {v w : Word} : fieldsOf v = fieldsOf w ↔ v = w :=
  ⟨fun h => by rw [← packFields_fieldsOf v, h, packFields_fieldsOf], congrArg fieldsOf⟩

@[simp] theorem fieldsOf_encode (i : Instr) : fieldsOf (encode i) = i.fields := fieldsOf_packFields _

/-! ### Operands and their fields (R102) -/

@[simp] theorem tregOf_regField (r : TReg) : tregOf (regField r) = r := rfl
@[simp] theorem regField_tregOf (n : BitVec 3) : regField (tregOf n) = n := rfl
@[simp] theorem tableOf_tableField (t : TableSel) : tableOf (tableField t) = t := by cases t <;> rfl
@[simp] theorem tableField_tableOf (t : BitVec 1) : tableField (tableOf t) = t := by
  rcases BitVec.eq_zero_or_eq_one t with rfl | rfl <;> rfl
@[simp] theorem flagOf_flagField (b : Bool) : flagOf (flagField b) = b := by cases b <;> rfl
@[simp] theorem flagField_flagOf (b : BitVec 1) : flagField (flagOf b) = b := by
  rcases BitVec.eq_zero_or_eq_one b with rfl | rfl <;> rfl

/-! ### Fields restricted to those a command uses (R103) -/

/-- The opcode and the fields in `u`, the others zero. -/
def Fields.restrict (f : Fields) (u : UsedFields) : Fields :=
  { op := f.op, rd := if u.rd then f.rd else 0, rs := if u.rs then f.rs else 0, ch := if u.ch then f.ch else 0,
    t := if u.t then f.t else 0, inc := if u.inc then f.inc else 0, zero := 0 }

/-- Restricting changes nothing exactly where the word passes (b) and (c) of R105. -/
theorem Fields.restrict_eq_self_iff (f : Fields) (u : UsedFields) :
    f.restrict u = f ↔ f.zero = 0#16 ∧ unusedFieldSet f u = false := by
  obtain ⟨op, rd, rs, ch, t, inc, zero⟩ := f
  have hfield {n : Nat} (x : BitVec n) (b : Bool) : (if b then x else 0) = x ↔ (x != 0#n && !b) = false := by
    cases b <;> simp [eq_comm (a := 0#n)]
  simp only [Fields.restrict, unusedFieldSet, Fields.mk.injEq, Bool.or_eq_false_iff, hfield, true_and]
  simp only [BitVec.ofNat_eq_ofNat, eq_comm (a := 0#16), and_assoc, and_comm (a := zero = 0#16)]

theorem Instr.fields_op (i : Instr) : i.fields.op = i.opcode := by cases i <;> rfl

theorem Instr.fields_restrict (i : Instr) : i.fields.restrict i.usedFields = i.fields := by cases i <;> rfl

/-- A command is well formed when the channel field of its word is, if it uses one (R101). -/
theorem Instr.wellFormed_iff (i : Instr) : i.wellFormed = true ↔ (i.usedFields.ch = true → i.fields.ch ≠ 3#2) := by
  cases i <;> simp [Instr.wellFormed, Instr.usedFields, Instr.fields, channelOk]

/-! ### Decoding -/

/-- The opcode and operands of a command are read back from its fields. -/
@[simp] theorem instrOf_fields (i : Instr) : instrOf i.fields = some i := by
  cases i <;> simp [instrOf, Instr.fields, Instr.opcode]

/-- The command read from some fields has the opcode and the operands that stand there, and zero in the fields it does
not use. -/
theorem fields_eq_restrict_of_instrOf {f : Fields} {i : Instr} (h : instrOf f = some i) :
    i.fields = f.restrict i.usedFields := by
  have hop {n : Nat} (hn : f.op.toNat = n) : f.op = BitVec.ofNat 6 n := by
    rw [← hn, BitVec.ofNat_toNat, BitVec.setWidth_eq]
  unfold instrOf at h
  split at h <;> cases h <;>
    simp [Instr.fields, Instr.opcode, Fields.restrict, Instr.usedFields, hop ‹_›]

/-- The decode procedure of R106 accepts where all of its tests pass. -/
theorem decode_eq_ok_iff_tests {w : Word} {i : Instr} : decode w = .ok i ↔
    instrOf (fieldsOf w) = some i ∧ (fieldsOf w).restrict i.usedFields = fieldsOf w ∧ i.wellFormed = true := by
  rw [Fields.restrict_eq_self_iff]
  simp only [decode]
  generalize instrOf (fieldsOf w) = o
  cases o with
  | none => simp
  | some j => simp only [Option.some.injEq]; split_ifs <;> grind

/-- A word decodes to a command exactly when the command is well formed and the word holds its fields. -/
theorem decode_eq_ok_iff {w : Word} {i : Instr} : decode w = .ok i ↔ i.wellFormed = true ∧ fieldsOf w = i.fields := by
  rw [decode_eq_ok_iff_tests]
  constructor
  · rintro ⟨hi, hunused, hwf⟩
    exact ⟨hwf, hunused.symm.trans (fields_eq_restrict_of_instrOf hi).symm⟩
  · rintro ⟨hwf, hf⟩
    rw [hf]
    exact ⟨instrOf_fields i, i.fields_restrict, hwf⟩

theorem decode_encode {i : Instr} (hwf : i.wellFormed = true) : decode (encode i) = .ok i :=
  decode_eq_ok_iff.2 ⟨hwf, fieldsOf_encode i⟩

/-- Settles O4: a command's word holds the command's fields, and those decode to it. -/
theorem decodeOfEncodeIsIdentity : Obligations.DecodeOfEncodeIsIdentity := fun _ => decode_encode

/-- Settles O5: the word has the command's fields, as the command's own word has. -/
theorem encodeOfDecodeIsIdentity : Obligations.EncodeOfDecodeIsIdentity := by
  intro w i h
  obtain ⟨hwf, hf⟩ := decode_eq_ok_iff.1 h
  exact ⟨fieldsOf_inj.1 ((fieldsOf_encode i).trans hf.symm), hwf⟩

/-- Words that are the words of well-formed commands decode to them. -/
theorem decode_eq_ok_of_all {ps : List (Word × Instr)}
    (h : ps.all (fun p => p.1 == encode p.2 && p.2.wellFormed) = true) : ∀ p ∈ ps, decode p.1 = .ok p.2 := by
  intro p hp
  have hword := List.all_eq_true.1 h p hp
  rw [Bool.and_eq_true, beq_iff_eq] at hword
  rw [hword.1, decode_encode hword.2]

theorem decode_ne_ok_of_all {ws : List Word} (h : ws.all (fun w => !(decode w).toBool) = true) :
    ∀ w ∈ ws, ∀ i, decode w ≠ .ok i := by
  intro w hw i hi
  have herror := List.all_eq_true.1 h w hw
  rw [hi] at herror
  cases herror

/-- Settles O7: the legal words are those of their commands, and decoding refuses the others. -/
theorem workedEncodingsDecode : Obligations.WorkedEncodingsDecode :=
  ⟨decode_eq_ok_of_all (by decide), decode_ne_ok_of_all (by decide)⟩

/-! ### What the opcode alone determines (R103) -/

theorem opcode_of_instrOf {f : Fields} {i : Instr} (h : instrOf f = some i) : i.opcode = f.op := by
  rw [← i.fields_op, fields_eq_restrict_of_instrOf h, Fields.restrict]

/-- The opcode alone says whether there is a command and which fields it uses. -/
theorem usedFields_of_op_eq {f g : Fields} (h : f.op = g.op) :
    (instrOf f).map Instr.usedFields = (instrOf g).map Instr.usedFields := by
  unfold instrOf
  rw [h]
  split <;> rfl

/-- Fields with a command's opcode name a command that uses the same fields. -/
theorem instrOf_of_op_eq {f : Fields} {i : Instr} (h : f.op = i.opcode) :
    ∃ j, instrOf f = some j ∧ j.usedFields = i.usedFields := by
  have hused := usedFields_of_op_eq (h.trans i.fields_op.symm)
  rwa [instrOf_fields, Option.map_some, Option.map_eq_some_iff] at hused

theorem usedFields_eq_of_opcode_eq {i j : Instr} (h : i.opcode = j.opcode) : i.usedFields = j.usedFields := by
  obtain ⟨k, hk, hused⟩ := instrOf_of_op_eq (i.fields_op.trans h)
  rwa [← Option.some.inj (hk.symm.trans (instrOf_fields i))]

/-! ### The rows of the opcode table (R104) -/

/-- The field-wise `&`. -/
def Fields.and (f g : Fields) : Fields :=
  ⟨f.op &&& g.op, f.rd &&& g.rd, f.rs &&& g.rs, f.ch &&& g.ch, f.t &&& g.t, f.inc &&& g.inc, f.zero &&& g.zero⟩

theorem fieldsOf_and (v w : Word) : fieldsOf (v &&& w) = (fieldsOf v).and (fieldsOf w) := by
  simp [fieldsOf, Fields.and, BitVec.extractLsb'_and]

/-- The fields with an opcode and zero elsewhere. -/
def Fields.blank (op : BitVec 6) : Fields := ⟨op, 0, 0, 0, 0, 0, 0⟩

/-- The bits a row checks: the opcode, the zero bits and every field outside `u`. -/
def UsedFields.checked (u : UsedFields) : Fields :=
  { op := .allOnes 6, rd := if u.rd then 0 else .allOnes 3, rs := if u.rs then 0 else .allOnes 3,
    ch := if u.ch then 0 else .allOnes 2, t := if u.t then 0 else .allOnes 1, inc := if u.inc then 0 else .allOnes 1,
    zero := .allOnes 16 }

theorem Fields.and_checked_eq_blank_iff (f : Fields) (u : UsedFields) (op : BitVec 6) :
    f.and u.checked = Fields.blank op ↔ f.op = op ∧ f.restrict u = f := by
  obtain ⟨fop, rd, rs, ch, t, inc, zero⟩ := f
  have hfield {n : Nat} (x : BitVec n) (b : Bool) :
      (x &&& if b then 0 else BitVec.allOnes n) = 0 ↔ (if b then x else 0) = x := by
    cases b <;> simp [eq_comm (a := 0#n)]
  simp only [Fields.and, UsedFields.checked, Fields.blank, Fields.restrict, Fields.mk.injEq, hfield, true_and]
  simp only [BitVec.and_allOnes, BitVec.ofNat_eq_ofNat, eq_comm (a := 0#16)]

/-- The row of a command: its opcode, with the mask over all bits it does not use as operands. -/
def Instr.tableRow (i : Instr) : Machine.OpcodeRow :=
  { op := i.opcode.toNat, pattern := packFields (Fields.blank i.opcode), mask := packFields i.usedFields.checked,
    usesChannel := i.usedFields.ch }

theorem tableRow_eq {i j : Instr} (hop : i.opcode = j.opcode) : i.tableRow = j.tableRow := by
  rw [Instr.tableRow, Instr.tableRow, hop, usedFields_eq_of_opcode_eq hop]

/-- The table of R104 has one row for each opcode that names a command. -/
theorem opcodeRows_eq : Machine.opcodeRows =
    ((List.range 64).filterMap fun n => instrOf (Fields.blank (BitVec.ofNat 6 n))).map Instr.tableRow := by decide

theorem mem_opcodeRows_iff {row : Machine.OpcodeRow} : row ∈ Machine.opcodeRows ↔ ∃ i : Instr, i.tableRow = row := by
  simp only [opcodeRows_eq, List.mem_map, List.mem_filterMap, List.mem_range]
  constructor
  · rintro ⟨i, _, hrow⟩
    exact ⟨i, hrow⟩
  · rintro ⟨i, rfl⟩
    obtain ⟨j, hj, _⟩ := instrOf_of_op_eq (f := Fields.blank i.opcode) rfl
    refine ⟨j, ⟨i.opcode.toNat, i.opcode.isLt, ?_⟩, tableRow_eq (opcode_of_instrOf hj)⟩
    rwa [BitVec.ofNat_toNat, BitVec.setWidth_eq]

/-- A word matches the row of a command when it has the command's opcode and zero in the fields the command does not
use. -/
theorem match_tableRow_iff (w : Word) (i : Instr) : w &&& i.tableRow.mask = i.tableRow.pattern ↔
    (fieldsOf w).op = i.opcode ∧ (fieldsOf w).restrict i.usedFields = fieldsOf w := by
  rw [← fieldsOf_inj, fieldsOf_and, Instr.tableRow, fieldsOf_packFields, fieldsOf_packFields,
    Fields.and_checked_eq_blank_iff]

/-- R104 for the row of a command: it says which words decode to a command of that opcode. -/
theorem decodes_to_opcode_iff (w : Word) (i : Instr) : (∃ j, decode w = .ok j ∧ j.opcode = i.opcode) ↔
    w &&& i.tableRow.mask = i.tableRow.pattern ∧ (i.tableRow.usesChannel = true → (fieldsOf w).ch ≠ 3#2) := by
  rw [match_tableRow_iff]
  constructor
  · rintro ⟨j, hj, hop⟩
    obtain ⟨hwf, hf⟩ := decode_eq_ok_iff.1 hj
    rw [hf, ← usedFields_eq_of_opcode_eq hop, Instr.tableRow, ← usedFields_eq_of_opcode_eq hop]
    exact ⟨⟨j.fields_op.trans hop, j.fields_restrict⟩, j.wellFormed_iff.1 hwf⟩
  · rintro ⟨⟨hop, hunused⟩, hch⟩
    obtain ⟨j, hj, hused⟩ := instrOf_of_op_eq hop
    have hf : fieldsOf w = j.fields := by rw [fields_eq_restrict_of_instrOf hj, hused, hunused]
    refine ⟨j, decode_eq_ok_iff.2 ⟨j.wellFormed_iff.2 ?_, hf⟩, ?_⟩
    · rw [hused, ← hf]
      exact hch
    · rw [← j.fields_op, ← hf, hop]

/-- Settles O6: the rows are those of the commands, and each row checks what the decoder checks. -/
theorem decodeMatchesTheOpcodeTable : Obligations.DecodeMatchesTheOpcodeTable := by
  intro w
  refine ⟨fun row hrow => ?_, fun i _ => ⟨i.tableRow, mem_opcodeRows_iff.2 ⟨i, rfl⟩, rfl⟩⟩
  obtain ⟨i, rfl⟩ := mem_opcodeRows_iff.1 hrow
  have hop (j : Instr) : j.opcode.toNat = i.tableRow.op ↔ j.opcode = i.opcode := BitVec.toNat_inj
  simp only [hop]
  exact decodes_to_opcode_iff w i

/-! ### The reserved channel (R105 (d)) -/

/-- A command with a channel stops with E_ILLEGAL where the channel is the reserved one. -/
theorem withChannel_reserved (s : Machine.State) (k : Channel → Machine.Result) :
    Machine.withChannel 3#2 s k = .next (s.stopError .eIllegal) := rfl

/-- Settles O17: a decoded command is well formed, and each of the four meanings starts by naming its channel. -/
theorem reservedChannelIsIllegal : Obligations.ReservedChannelIsIllegal := by
  refine ⟨fun w i h r b t => ?_, fun s r b t i hi => ?_⟩
  · obtain ⟨hwf, _⟩ := decode_eq_ok_iff.1 h
    refine ⟨?_, ?_, ?_, ?_⟩ <;> rintro rfl <;> exact absurd hwf Bool.false_ne_true
  · simp only [List.mem_cons, List.not_mem_nil, or_false] at hi
    rcases hi with rfl | rfl | rfl | rfl <;>
      simp only [Machine.exec, Machine.execLdt, Machine.execStt, Machine.execEncc, Machine.execDecc,
        withChannel_reserved]

end Sys2Proof
end

section
/-! The sequencer's step, branch by branch (40_sequencer.md R121, R122), and the end of every run (R124). -/

namespace Sys2Proof.Machine

/-- Settles O10: END and NOP are the advance of PC, and END the end of the run. -/
theorem endAndNopHaveNoOtherEffect : Obligations.EndAndNopHaveNoOtherEffect := fun _ => ⟨rfl, rfl⟩

/-! ### Which step the machine takes -/

section
variable {s : State}

theorem step_of_no_event (h : s.host = []) : step s = coreStep s := by rw [step, machineStep, h]

theorem step_of_sequencer_event {rest : List HostEvent} (h : s.host = .sequencer :: rest) :
    step s = coreStep { s with host := rest } := by rw [step, machineStep, h]; rfl

theorem coreStep_idle (h : s.busy = false) : coreStep s = .next s := if_neg (by simp [h])

theorem coreStep_busy (h : s.busy = true) : coreStep s = sequencerStep s := if_pos h

/-! ### The branches of a sequencer step (R121) -/

theorem sequencerStep_of_abort (h : s.abortPend = true) : sequencerStep s = .next (s.stopError .eAborted) := if_pos h

theorem sequencerStep_of_pc_range (habort : s.abortPend = false) (hpc : s.params.nCmd ≤ s.pc.toNat) :
    sequencerStep s = .next (s.stopError .ePcRange) := by
  simp [sequencerStep, habort, hpc, raise]

section
variable (habort : s.abortPend = false) (hpc : s.pc.toNat < s.params.nCmd)
include habort hpc

theorem sequencerStep_of_unwritten (hfetch : fetch s = none) : sequencerStep s = .fault .unwrittenCommand := by
  simp [sequencerStep, habort, hpc, hfetch]

variable {w : Word} (hfetch : fetch s = some w)
include hfetch

theorem sequencerStep_of_illegal {r : IllegalReason} (hdecode : decode w = .error r) :
    sequencerStep s = .next (s.stopError .eIllegal) := by
  simp [sequencerStep, habort, hpc, hfetch, hdecode, raise]

theorem sequencerStep_of_decode {i : Instr} (hdecode : decode w = .ok i) : sequencerStep s = exec i s := by
  simp [sequencerStep, habort, hpc, hfetch, hdecode]

theorem coreStep_of_decode (hbusy : s.busy = true) {i : Instr} (hdecode : decode w = .ok i) : coreStep s = exec i s :=
  (coreStep_busy hbusy).trans (sequencerStep_of_decode habort hpc hfetch hdecode)

end

/-- Only the word at a PC below N_CMD is executed; every other step stops (R121, R122). -/
theorem sequencerStep_cases (s : State) :
    (∃ e, sequencerStep s = .next (s.stopError e)) ∨ sequencerStep s = .fault .unwrittenCommand ∨
      (s.pc.toNat < s.params.nCmd ∧ ∃ i, sequencerStep s = exec i s) := by
  cases habort : s.abortPend with
  | true => exact .inl ⟨_, sequencerStep_of_abort habort⟩
  | false =>
    rcases Nat.lt_or_ge s.pc.toNat s.params.nCmd with hpc | hpc
    · cases hfetch : fetch s with
      | none => exact .inr (.inl (sequencerStep_of_unwritten habort hpc hfetch))
      | some w =>
        cases hdecode : decode w with
        | error r => exact .inl ⟨_, sequencerStep_of_illegal habort hpc hfetch hdecode⟩
        | ok i => exact .inr (.inr ⟨hpc, i, sequencerStep_of_decode habort hpc hfetch hdecode⟩)
    · exact .inl ⟨_, sequencerStep_of_pc_range habort hpc⟩

end

/-- Settles O8: the event list decides that the sequencer moves, and the word at PC what it executes. -/
theorem stepRunsTheDecodedCommand : Obligations.StepRunsTheDecodedCommand := by
  intro s w i rest hbusy habort hpc hfetch hdecode
  exact ⟨fun hhost => (step_of_no_event hhost).trans (coreStep_of_decode habort hpc hfetch hbusy hdecode),
    fun hhost => (step_of_sequencer_event hhost).trans
      (coreStep_of_decode (s := { s with host := rest }) habort hpc hfetch hbusy hdecode)⟩

/-- Settles O9: one clause for each branch in which nothing executes. -/
theorem stepStopsBeforeExecuting : Obligations.StepStopsBeforeExecuting := by
  intro s hhost stops
  have hcore := step_of_no_event hhost
  have hstep (hbusy : s.busy = true) : step s = sequencerStep s := hcore.trans (coreStep_busy hbusy)
  refine ⟨fun hidle => hcore.trans (coreStep_idle hidle),
    fun hbusy habort => (hstep hbusy).trans (sequencerStep_of_abort habort),
    fun hbusy habort hpc => (hstep hbusy).trans (sequencerStep_of_pc_range habort hpc),
    fun hbusy habort hpc => ⟨fun hfetch => ?_, fun w r hfetch hdecode => ?_⟩⟩
  · exact (hstep hbusy).trans (sequencerStep_of_unwritten habort hpc hfetch)
  · exact (hstep hbusy).trans (sequencerStep_of_illegal habort hpc hfetch hdecode)

/-! ### No command is refused -/

section
variable {s : State} {k : Result} {r : Refusal}

theorem complete_ne_refused : complete s ≠ .refused r := nofun

theorem raise_ne_refused {e : ErrCode} : raise e s ≠ .refused r := nofun

theorem checked_ne_refused {cs : List (Bool × ErrCode)} (hk : k ≠ .refused r) : checked cs s k ≠ .refused r := by
  rcases checked_cases cs s k with ⟨e, _, hstop⟩ | ⟨_, hgo⟩
  · rw [hstop]; nofun
  · rwa [hgo]

theorem unlessOverlap_ne_refused {b : Bool} (hk : k ≠ .refused r) : unlessOverlap b k ≠ .refused r := by
  cases b with
  | true => nofun
  | false => exact hk

theorem withData_ne_refused {α : Type} {o : Option α} {k : α → Result} (hk : ∀ a, k a ≠ .refused r) :
    withData o k ≠ .refused r := by
  cases o with
  | none => nofun
  | some a => exact hk a

theorem withChannel_ne_refused {ch : BitVec 2} {k : Channel → Result} (hk : ∀ c, k c ≠ .refused r) :
    withChannel ch s k ≠ .refused r := by
  rcases withChannel_cases ch s k with ⟨c, _, hgo⟩ | ⟨_, hstop⟩
  · rw [hgo]; exact hk c
  · rw [hstop]; nofun

end

/-- Every command of R104 has a meaning: its checks and its work end in a next state or a model fault. -/
theorem exec_ne_refused (i : Instr) (s : State) (r : Refusal) : exec i s ≠ .refused r := by
  cases i with
  | endList => nofun
  | nop | fdct | idct | zzs | zzu => exact complete_ne_refused
  | qnt | dqnt | rle => exact checked_ne_refused complete_ne_refused
  | ccf | cci =>
    exact checked_ne_refused (unlessOverlap_ne_refused (withData_ne_refused fun _ => complete_ne_refused))
  | ldt =>
    exact withChannel_ne_refused fun _ => checked_ne_refused (withData_ne_refused fun _ => complete_ne_refused)
  | stt => exact withChannel_ne_refused fun _ => checked_ne_refused complete_ne_refused
  | rld =>
    refine checked_ne_refused ?_
    split
    · exact raise_ne_refused
    · nofun
    · exact complete_ne_refused
  | encc | decc =>
    refine withChannel_ne_refused fun _ => checked_ne_refused (unlessOverlap_ne_refused ?_)
    split
    · nofun
    · exact raise_ne_refused
    · exact complete_ne_refused

/-! ### Every run ends (R124) -/

/-- A command ends the run, or goes on with the next PC and nothing else that a run's length depends on changed. -/
theorem exec_stops_or_advances (i : Instr) (s : State) :
    Stopped (exec i s) ∨ ∃ t, exec i s = .next t ∧ t.pc = s.pc + 1 ∧ t.host = s.host ∧ t.params = s.params := by
  cases h : exec i s with
  | refused r => exact absurd h (exec_ne_refused i s r)
  | fault f => exact .inl trivial
  | next t =>
    obtain ⟨u, hwork, hend⟩ := exec_next h
    cases hend with
    | completed _ =>
      have hu := SameConfiguration.of_control hwork.control
      exact .inr ⟨_, rfl, congrArg (· + 1) hwork.pc, hu.host, hu.params⟩
    | stopped _ _ => exact .inl rfl
    | ended => exact .inl rfl

/-- A step that does not end the run executes a command below N_CMD and leaves the next PC. -/
theorem step_stops_or_advances {s : State} (hhost : s.host = []) :
    Stopped (step s) ∨ s.pc.toNat < s.params.nCmd ∧
      ∃ t, step s = .next t ∧ t.pc = s.pc + 1 ∧ t.host = s.host ∧ t.params = s.params := by
  rw [step_of_no_event hhost]
  cases hbusy : s.busy with
  | false => rw [coreStep_idle hbusy]; exact .inl hbusy
  | true =>
    rw [coreStep_busy hbusy]
    rcases sequencerStep_cases s with ⟨e, hstop⟩ | hfault | ⟨hpc, i, hexec⟩
    · rw [hstop]; exact .inl rfl
    · rw [hfault]; exact .inl trivial
    · rw [hexec]; exact (exec_stops_or_advances i s).imp_right fun h => ⟨hpc, h⟩

theorem run_succ_of_next (M : Host.Core) {s t : M.State} (h : M.step s = .next t) (k : Nat) :
    M.run (k + 1) s = M.run k t := by rw [Host.Core.run, h]

theorem run_one (M : Host.Core) (s : M.State) : M.run 1 s = M.step s := by
  rw [Host.Core.run]
  cases M.step s <;> rfl

/-- PC comes one nearer to N_CMD with each step that goes on, and at N_CMD the run stops. -/
theorem run_stops_of_pc (n : Nat) {s : State} (hsize : s.params.nCmd ≤ 4096) (hhost : s.host = [])
    (hpc : s.params.nCmd ≤ s.pc.toNat + n) : ∃ k ≤ n + 1, Stopped (Host.Core.run core k s) := by
  induction n generalizing s with
  | zero =>
    rcases step_stops_or_advances hhost with hstop | ⟨hlt, _⟩
    · exact ⟨1, by omega, (run_one core s).symm ▸ hstop⟩
    · omega
  | succ n ih =>
    rcases step_stops_or_advances hhost with hstop | ⟨hlt, t, hstep, htpc, hthost, htparams⟩
    · exact ⟨1, by omega, (run_one core s).symm ▸ hstop⟩
    · have hnext : t.pc.toNat = s.pc.toNat + 1 := by
        rw [htpc, BitVec.toNat_add_of_lt (by simp; omega)]
        rfl
      obtain ⟨k, hk, hstop⟩ := ih (s := t) (by rwa [htparams]) (hthost.trans hhost) (by rw [htparams]; omega)
      exact ⟨k + 1, by omega, by rwa [run_succ_of_next core hstep]⟩

/-- Settles O11: from any PC at most N_CMD commands are ahead, and one more step stops. -/
theorem everyRunStops : Obligations.EveryRunStops := by
  intro s hlegal hhost
  obtain ⟨_, _, _, hsize⟩ := hlegal
  exact run_stops_of_pc s.params.nCmd hsize hhost (Nat.le_add_left _ _)

end Sys2Proof.Machine
end

section
/-! The colour converter (41_colorspace.md): its checks, the pixel loop of CCF and CCI, and a colour's round trip. -/

namespace Sys2Proof.Machine

/-! ### The checks (R132, R135) -/

/-- Where the checks before a group pass, and one of the group fails, the code the group shares is raised. -/
theorem firstError_of_group {before group after : List (Bool × ErrCode)} {e : ErrCode}
    (hpass : ∀ c ∈ before, c.1 = false) (hcode : ∀ c ∈ group, c.2 = e) (hfail : ∃ c ∈ group, c.1 = true) :
    firstError (before ++ (group ++ after)) = some e := by
  induction before with
  | cons c before ih =>
    obtain ⟨hc, hrest⟩ := List.forall_mem_cons.1 hpass
    rw [List.cons_append, firstError, if_neg (by simp [hc]), ih hrest]
  | nil =>
    induction group with
    | nil => simp at hfail
    | cons c group ih =>
      obtain ⟨hc, hrest⟩ := List.forall_mem_cons.1 hcode
      rw [List.nil_append, List.cons_append, firstError]
      split
      · rw [hc]
      next hnot => exact ih hrest (by simpa [hnot] using hfail)

/-- The three channels, in the order in which CCF and CCI check their planes. -/
def allChannels : List Channel := [.y, .cb, .cr]

theorem mem_allChannels (c : Channel) : c ∈ allChannels := by cases c <;> decide

/-- The checks of CCF and CCI are three groups, each with one code: the dimensions, the alignments, the regions. -/
theorem imageChecks_eq_groups (s : State) : imageChecks s =
    [dimCheck s] ++ (allChannels.map (alignCheck · s) ++ (pixCheck s :: allChannels.map (planeCheck · s))) := rfl

theorem dimCheck_failed {s : State} : (dimCheck s).1 = true ↔ s.width.toNat = 0 ∨ s.height.toNat = 0 := by
  simp [dimCheck, BitVec.toNat_eq]

theorem dimCheck_passed_of_ne_zero {s : State} (hw : s.width.toNat ≠ 0) (hh : s.height.toNat ≠ 0) :
    (dimCheck s).1 = false := by
  rw [← Bool.not_eq_true, dimCheck_failed, not_or]
  exact ⟨hw, hh⟩

theorem alignCheck_failed {c : Channel} {s : State} : (alignCheck c s).1 = true ↔ (s.planeBase c).toNat % 4 ≠ 0 := by
  simp [alignCheck]

theorem imageChecks_eDim {s : State} (h : s.width.toNat = 0 ∨ s.height.toNat = 0) :
    firstError (imageChecks s) = some .eDim := by
  rw [imageChecks_eq_groups]
  have hfail : ∃ k ∈ [dimCheck s], k.1 = true := ⟨_, List.mem_singleton_self _, dimCheck_failed.2 h⟩
  exact firstError_of_group (before := []) nofun (by simp [dimCheck]) hfail

section
variable {s : State} (hw : s.width.toNat ≠ 0) (hh : s.height.toNat ≠ 0)
include hw hh

theorem imageChecks_eAlign {c : Channel} (h : (s.planeBase c).toNat % 4 ≠ 0) :
    firstError (imageChecks s) = some .eAlign := by
  rw [imageChecks_eq_groups]
  refine firstError_of_group (by simpa using dimCheck_passed_of_ne_zero hw hh) (by simp [alignCheck]) ?_
  exact ⟨_, List.mem_map_of_mem (mem_allChannels c), alignCheck_failed.2 h⟩

theorem imageChecks_eAddr (halign : ∀ c, (s.planeBase c).toNat % 4 = 0)
    (h : s.params.dmemBytes < s.pixRegion.hi ∨ ∃ c, s.params.dmemBytes < (s.plane c).region.hi) :
    firstError (imageChecks s) = some .eAddr := by
  have hpass : ∀ k ∈ dimCheck s :: allChannels.map (alignCheck · s), k.1 = false := by
    simp [dimCheck_passed_of_ne_zero hw hh, alignCheck, halign]
  have hfail : ∃ k ∈ pixCheck s :: allChannels.map (planeCheck · s), k.1 = true := by
    rcases h with hpix | ⟨c, hplane⟩
    · exact ⟨_, List.mem_cons_self, decide_eq_true hpix⟩
    · exact ⟨_, .tail _ (List.mem_map_of_mem (mem_allChannels c)), decide_eq_true hplane⟩
  exact firstError_of_group (after := []) hpass (by simp [pixCheck, planeCheck]) hfail

end

/-- Settles O13: both commands start with the same checks. -/
theorem colorConvertersCheckInOrder : Obligations.ColorConvertersCheckInOrder := by
  intro s W H stops
  have hstops {e : ErrCode} (h : firstError (imageChecks s) = some e) : stops e :=
    ⟨checked_of_some h s _, checked_of_some h s _⟩
  exact ⟨fun hdim => hstops (imageChecks_eDim hdim),
    fun hw hh ⟨_, halign⟩ => hstops (imageChecks_eAlign hw hh halign),
    fun hw hh halign haddr => hstops (imageChecks_eAddr hw hh halign haddr)⟩

/-! ### The pixel loop (R134) -/

/-- A loop whose body, from any memory that still holds the source, finishes its own pixel and disturbs neither the
source nor another finished pixel, finishes every pixel. -/
theorem pixelLoop_finishes {body : Nat → Memory → Option Memory} {n : Nat} {m₀ : Memory} {Source : Memory → Prop}
    {Finished : Nat → Memory → Prop} (hsource : Source m₀)
    (hbody : ∀ i < n, ∀ m, Source m → ∃ m', body i m = some m' ∧ Source m' ∧ Finished i m' ∧
      ∀ j < i, Finished j m → Finished j m') :
    ∃ m, pixelLoop body n 0 m₀ = some m ∧ ∀ i < n, Finished i m := by
  have hstep (i : Nat) (m : Memory) (_ : 0 ≤ i) (hi : i < 0 + n) (hm : Source m ∧ ∀ j < i, Finished j m) :
      ∃ m', body i m = some m' ∧ Source m' ∧ ∀ j < i + 1, Finished j m' := by
    obtain ⟨hsource, hfinished⟩ := hm
    obtain ⟨m', hrun, hsource', hown, hothers⟩ := hbody i (by omega) m hsource
    refine ⟨m', hrun, hsource', fun j hj => ?_⟩
    rcases Nat.lt_succ_iff_lt_or_eq.1 hj with hlt | rfl
    · exact hothers j hlt (hfinished j hlt)
    · exact hown
  obtain ⟨m, hrun, _, hall⟩ := pixelLoop_keeps (fun i m => Source m ∧ ∀ j < i, Finished j m)
    ⟨hsource, fun _ hj => absurd hj (Nat.not_lt_zero _)⟩ hstep
  exact ⟨m, hrun, by rwa [Nat.zero_add] at hall⟩

/-- The bytes of pixel `p` (20_memory.md R81). -/
structure PixelIs (g : ImageBases) (m : Memory) (p : Nat) (r gr b : Byte) : Prop where
  red : cellRead m (g.pix + 3 * p) = some r
  green : cellRead m (g.pix + 3 * p + 1) = some gr
  blue : cellRead m (g.pix + 3 * p + 2) = some b

/-- The words of sample `p` of the three planes (20_memory.md R80). -/
structure SamplesAre (g : ImageBases) (m : Memory) (p : Nat) (y cb cr : Word) : Prop where
  y : readWord m (g.y + 4 * p) = some y
  cb : readWord m (g.cb + 4 * p) = some cb
  cr : readWord m (g.cr + 4 * p) = some cr

section
variable {g : ImageBases} {m m' : Memory} {p : Nat}

theorem ccfPixel_of_pixelIs {r gr b : Byte} (h : PixelIs g m p r gr b) :
    ccfPixel g p m = some (storeSamples g p r.toNat gr.toNat b.toNat m) := by
  rw [ccfPixel, h.red, h.green, h.blue]

theorem cciPixel_of_samplesAre {y cb cr : Word} (h : SamplesAre g m p y cb cr) :
    cciPixel g p m = some (storePixel g p y.toInt cb.toInt cr.toInt m) := by
  rw [cciPixel, h.y, h.cb, h.cr]

/-- Each pixel holds one triple of bytes. -/
theorem PixelIs.unique {r gr b r' gr' b' : Byte} (h : PixelIs g m p r gr b) (h' : PixelIs g m p r' gr' b') :
    r = r' ∧ gr = gr' ∧ b = b' :=
  ⟨Option.some.inj (h.red.symm.trans h'.red), Option.some.inj (h.green.symm.trans h'.green),
    Option.some.inj (h.blue.symm.trans h'.blue)⟩

/-- Each place of the planes holds one triple of words. -/
theorem SamplesAre.unique {y cb cr y' cb' cr' : Word} (h : SamplesAre g m p y cb cr)
    (h' : SamplesAre g m p y' cb' cr') : y = y' ∧ cb = cb' ∧ cr = cr' :=
  ⟨Option.some.inj (h.y.symm.trans h'.y), Option.some.inj (h.cb.symm.trans h'.cb),
    Option.some.inj (h.cr.symm.trans h'.cr)⟩

theorem PixelIs.congr {r gr b : Byte} (h : PixelIs g m p r gr b)
    (heq : ∀ a, g.pix + 3 * p ≤ a → a < g.pix + 3 * p + 3 → cellRead m' a = cellRead m a) :
    PixelIs g m' p r gr b where
  red := (heq _ (by omega) (by omega)).trans h.red
  green := (heq _ (by omega) (by omega)).trans h.green
  blue := (heq _ (by omega) (by omega)).trans h.blue

theorem pixelIs_storePixel (g : ImageBases) (p : Nat) (y cb cr : Int) (m : Memory) :
    PixelIs g (storePixel g p y cb cr m) p (BitVec.ofInt 8 (redOf y cb cr)) (BitVec.ofInt 8 (greenOf y cb cr))
      (BitVec.ofInt 8 (blueOf y cb cr)) := by
  constructor <;> simp [storePixel]

end

/-- A written word can be read. -/
theorem exists_readWord_of_regionWritten {m : Memory} {r : Region} {a : Nat} (h : regionWritten m r) (hlo : r.lo ≤ a)
    (hhi : a + 4 ≤ r.hi) : ∃ w, readWord m a = some w := by
  have hsome : (readBE m a 4).isSome = true := (readBE_isSome m a 4).2 fun b hb hb' =>
    Option.isSome_iff_exists.2 (h b (by omega) (by omega))
  obtain ⟨v, hv⟩ := Option.isSome_iff_exists.1 hsome
  exact ⟨_, by rw [readWord, hv, Option.map_some]⟩

/-- No two planes share a byte (20_memory.md R84). -/
def PlanesApart (s : State) : Prop := ∀ c d, c ≠ d → (s.plane c).region.Disjoint (s.plane d).region

/-- The pixel buffer shares no byte with a plane (20_memory.md R84). -/
def PixelsApart (s : State) : Prop := ∀ c, s.pixRegion.Disjoint (s.plane c).region

section
variable {s : State} {m m' : Memory} {p : Nat}

theorem exists_pixelIs (h : regionWritten s.dmem s.pixRegion) (hp : p < s.pixels) :
    ∃ r gr b, PixelIs s.imageBases s.dmem p r gr b := by
  have hlo : s.pixRegion.lo = s.imageBases.pix := rfl
  have hhi : s.pixRegion.hi = s.imageBases.pix + 3 * s.pixels := rfl
  obtain ⟨r, hr⟩ := h (s.imageBases.pix + 3 * p) (by omega) (by omega)
  obtain ⟨gr, hgr⟩ := h (s.imageBases.pix + 3 * p + 1) (by omega) (by omega)
  obtain ⟨b, hb⟩ := h (s.imageBases.pix + 3 * p + 2) (by omega) (by omega)
  exact ⟨r, gr, b, hr, hgr, hb⟩

theorem exists_samplesAre (h : ∀ c, regionWritten s.dmem (s.plane c).region) (hp : p < s.pixels) :
    ∃ y cb cr, SamplesAre s.imageBases s.dmem p y cb cr := by
  have hword (c : Channel) : ∃ w, readWord s.dmem ((s.planeBase c).toNat + 4 * p) = some w := by
    have hlo : (s.plane c).region.lo = (s.planeBase c).toNat := rfl
    have hhi : (s.plane c).region.hi = (s.planeBase c).toNat + 4 * s.pixels := rfl
    exact exists_readWord_of_regionWritten (h c) (by omega) (by omega)
  obtain ⟨y, hy⟩ := hword .y
  obtain ⟨cb, hcb⟩ := hword .cb
  obtain ⟨cr, hcr⟩ := hword .cr
  exact ⟨y, cb, cr, hy, hcb, hcr⟩

/-- The pixels stand as before where the bytes of the buffer do. -/
theorem pixelIs_of_same_buffer {r gr b : Byte} (hp : p < s.pixels)
    (hm : ∀ a, s.pixRegion.lo ≤ a → a < s.pixRegion.hi → cellRead m a = cellRead s.dmem a)
    (h : PixelIs s.imageBases s.dmem p r gr b) : PixelIs s.imageBases m p r gr b := by
  have hlo : s.pixRegion.lo = s.imageBases.pix := rfl
  have hhi : s.pixRegion.hi = s.imageBases.pix + 3 * s.pixels := rfl
  exact h.congr fun a hlo' hhi' => hm a (by omega) (by omega)

/-- Sample `p` of each plane stands as before where its four bytes do. -/
theorem samplesAre_of_same_words {y cb cr : Word}
    (hm : ∀ c a, (s.planeBase c).toNat + 4 * p ≤ a → a < (s.planeBase c).toNat + 4 * p + 4 →
      cellRead m' a = cellRead m a)
    (h : SamplesAre s.imageBases m p y cb cr) : SamplesAre s.imageBases m' p y cb cr where
  y := (readWord_congr (hm .y)).trans h.y
  cb := (readWord_congr (hm .cb)).trans h.cb
  cr := (readWord_congr (hm .cr)).trans h.cr

/-- The samples stand as before where the bytes of the planes do. -/
theorem samplesAre_of_same_planes {y cb cr : Word} (hp : p < s.pixels)
    (hm : ∀ c a, (s.plane c).region.lo ≤ a → a < (s.plane c).region.hi → cellRead m a = cellRead s.dmem a)
    (h : SamplesAre s.imageBases s.dmem p y cb cr) : SamplesAre s.imageBases m p y cb cr := by
  refine samplesAre_of_same_words (fun c a hlo hhi => hm c a ?_ ?_) h
  · have hbase : (s.plane c).region.lo = (s.planeBase c).toNat := rfl
    omega
  · have hend : (s.plane c).region.hi = (s.planeBase c).toNat + 4 * s.pixels := rfl
    omega

theorem pixOverlapsPlane_eq_false (h : PixelsApart s) : pixOverlapsPlane s = false := by
  simp [pixOverlapsPlane, (h _).overlaps_eq_false]

theorem planesOverlap_eq_false (h : PlanesApart s) : planesOverlap s = false := by
  simp [planesOverlap, (h .y .cb nofun).overlaps_eq_false, (h .y .cr nofun).overlaps_eq_false,
    (h .cb .cr nofun).overlaps_eq_false]

/-! ### CCF -/

/-- The plane words of pixel `p` are the conversion of the bytes that stood in the pixel buffer at the start (R132). -/
def ForwardConverted (s : State) (p : Nat) (m : Memory) : Prop :=
  ∀ r gr b, PixelIs s.imageBases s.dmem p r gr b →
    SamplesAre s.imageBases m p (sampleWord (lumaOf r.toNat gr.toNat b.toNat))
      (sampleWord (cbOf r.toNat gr.toNat b.toNat)) (sampleWord (crOf r.toNat gr.toNat b.toNat))

theorem samplesAre_storeSamples (hplanes : PlanesApart s) (hp : p < s.pixels) (r gr b : Int) :
    SamplesAre s.imageBases (storeSamples s.imageBases p r gr b m) p (sampleWord (lumaOf r gr b))
      (sampleWord (cbOf r gr b)) (sampleWord (crOf r gr b)) := by
  have hycb : s.imageBases.y + 4 * s.pixels ≤ s.imageBases.cb ∨ s.imageBases.cb + 4 * s.pixels ≤ s.imageBases.y :=
    hplanes .y .cb nofun
  have hycr : s.imageBases.y + 4 * s.pixels ≤ s.imageBases.cr ∨ s.imageBases.cr + 4 * s.pixels ≤ s.imageBases.y :=
    hplanes .y .cr nofun
  have hcbcr : s.imageBases.cb + 4 * s.pixels ≤ s.imageBases.cr ∨ s.imageBases.cr + 4 * s.pixels ≤ s.imageBases.cb :=
    hplanes .cb .cr nofun
  constructor
  case y =>
    rw [storeSamples, readWord_writeWord_disjoint _ _ (by omega), readWord_writeWord_disjoint _ _ (by omega),
      readWord_writeWord]
  case cb => rw [storeSamples, readWord_writeWord_disjoint _ _ (by omega), readWord_writeWord]
  case cr => rw [storeSamples, readWord_writeWord]

/-- Storing the samples of one pixel leaves those of another alone. -/
theorem samplesAre_storeSamples_of_ne (hplanes : PlanesApart s) (hp : p < s.pixels) {j : Nat} (hj : j < s.pixels)
    (hne : j ≠ p) {r gr b : Int} {y cb cr : Word} (h : SamplesAre s.imageBases m j y cb cr) :
    SamplesAre s.imageBases (storeSamples s.imageBases p r gr b m) j y cb cr := by
  refine samplesAre_of_same_words (fun c a hlo hhi => ?_) h
  have hout (d : Channel) : a < (s.planeBase d).toNat + 4 * p ∨ (s.planeBase d).toNat + 4 * p + 4 ≤ a := by
    by_cases hcd : c = d
    · rw [hcd] at hlo hhi
      omega
    · have hapart : (s.planeBase c).toNat + 4 * s.pixels ≤ (s.planeBase d).toNat ∨
          (s.planeBase d).toNat + 4 * s.pixels ≤ (s.planeBase c).toNat := hplanes c d hcd
      omega
  exact storeSamples_outside _ _ _ _ _ _ (hout .y) (hout .cb) (hout .cr)

/-- Storing samples leaves the pixel buffer alone. -/
theorem storeSamples_same_buffer (hapart : PixelsApart s) (hp : p < s.pixels) (r gr b : Int) {a : Nat}
    (hlo : s.pixRegion.lo ≤ a) (hhi : a < s.pixRegion.hi) :
    cellRead (storeSamples s.imageBases p r gr b m) a = cellRead m a := by
  have hout (c : Channel) : a < (s.planeBase c).toNat + 4 * p ∨ (s.planeBase c).toNat + 4 * p + 4 ≤ a := by
    have hregions : s.pixRegion.hi ≤ (s.planeBase c).toNat ∨
        (s.planeBase c).toNat + 4 * s.pixels ≤ s.pixRegion.lo := hapart c
    omega
  exact storeSamples_outside _ _ _ _ _ _ (hout .y) (hout .cb) (hout .cr)

/-- CCF's loop converts every pixel where the regions are apart and the pixel bytes are written (R132). -/
theorem pixelLoop_ccf_converts (hplanes : PlanesApart s) (hapart : PixelsApart s)
    (hwritten : regionWritten s.dmem s.pixRegion) :
    ∃ m, pixelLoop (ccfPixel s.imageBases) s.pixels 0 s.dmem = some m ∧ ∀ p < s.pixels, ForwardConverted s p m := by
  refine pixelLoop_finishes
    (Source := fun m => ∀ a, s.pixRegion.lo ≤ a → a < s.pixRegion.hi → cellRead m a = cellRead s.dmem a)
    (fun _ _ _ => rfl) fun i hi m hm => ?_
  obtain ⟨r, gr, b, hpixel⟩ := exists_pixelIs hwritten hi
  refine ⟨_, ccfPixel_of_pixelIs (pixelIs_of_same_buffer hi hm hpixel), fun a hlo hhi => ?_,
    fun r' gr' b' hpixel' => ?_, fun j hj hfinished r' gr' b' hpixel' => ?_⟩
  · exact (storeSamples_same_buffer hapart hi _ _ _ hlo hhi).trans (hm a hlo hhi)
  · obtain ⟨rfl, rfl, rfl⟩ := hpixel.unique hpixel'
    exact samplesAre_storeSamples hplanes hi _ _ _
  · exact samplesAre_storeSamples_of_ne hplanes hi (hj.trans hi) hj.ne (hfinished r' gr' b' hpixel')

/-- CCF completes where its checks pass, no regions overlap and its loop does. -/
theorem execCcf_of_loop (hready : ∀ c, PlaneReady c s) (hpixels : PixelsReady s) (hplanes : PlanesApart s)
    (hapart : PixelsApart s) (hloop : pixelLoop (ccfPixel s.imageBases) s.pixels 0 s.dmem = some m) :
    exec .ccf s = .next (s.setDmem m).advance := by
  refine (checked_of_none (imageChecks_passed hready hpixels) s _).trans ?_
  rw [pixOverlapsPlane_eq_false hapart, planesOverlap_eq_false hplanes, hloop]
  rfl

/-! ### CCI -/

/-- The bytes of pixel `p` are the conversion of the plane words that stood in the planes at the start (R135). -/
def InverseConverted (s : State) (p : Nat) (m : Memory) : Prop :=
  ∀ y cb cr, SamplesAre s.imageBases s.dmem p y cb cr →
    PixelIs s.imageBases m p (BitVec.ofInt 8 (redOf y.toInt cb.toInt cr.toInt))
      (BitVec.ofInt 8 (greenOf y.toInt cb.toInt cr.toInt)) (BitVec.ofInt 8 (blueOf y.toInt cb.toInt cr.toInt))

/-- Storing one pixel leaves another alone. -/
theorem pixelIs_storePixel_of_ne {g : ImageBases} {j : Nat} (hne : j ≠ p) {y cb cr : Int} {r gr b : Byte}
    (h : PixelIs g m j r gr b) : PixelIs g (storePixel g p y cb cr m) j r gr b :=
  h.congr fun a _ _ => (storePixel_writesOnly g p y cb cr m).outside a (by omega)

/-- Storing a pixel leaves the planes alone. -/
theorem storePixel_same_planes (hapart : PixelsApart s) (hp : p < s.pixels) (y cb cr : Int) {c : Channel} {a : Nat}
    (hlo : (s.plane c).region.lo ≤ a) (hhi : a < (s.plane c).region.hi) :
    cellRead (storePixel s.imageBases p y cb cr m) a = cellRead m a := by
  have hregions : s.imageBases.pix + 3 * s.pixels ≤ (s.plane c).region.lo ∨
      (s.plane c).region.hi ≤ s.imageBases.pix := hapart c
  exact (storePixel_writesOnly _ _ _ _ _ _).outside a (by omega)

/-- CCI's loop converts every pixel where the pixel buffer is apart from the planes and the plane bytes are written
(R135). -/
theorem pixelLoop_cci_converts (hapart : PixelsApart s) (hwritten : ∀ c, regionWritten s.dmem (s.plane c).region) :
    ∃ m, pixelLoop (cciPixel s.imageBases) s.pixels 0 s.dmem = some m ∧ ∀ p < s.pixels, InverseConverted s p m := by
  refine pixelLoop_finishes
    (Source := fun m => ∀ c a, (s.plane c).region.lo ≤ a → a < (s.plane c).region.hi → cellRead m a = cellRead s.dmem a)
    (fun _ _ _ _ => rfl) fun i hi m hm => ?_
  obtain ⟨y, cb, cr, hsamples⟩ := exists_samplesAre hwritten hi
  refine ⟨_, cciPixel_of_samplesAre (samplesAre_of_same_planes hi hm hsamples), fun c a hlo hhi => ?_,
    fun y' cb' cr' hsamples' => ?_, fun j hj hfinished y' cb' cr' hsamples' => ?_⟩
  · exact (storePixel_same_planes hapart hi _ _ _ hlo hhi).trans (hm c a hlo hhi)
  · obtain ⟨rfl, rfl, rfl⟩ := hsamples.unique hsamples'
    exact pixelIs_storePixel _ _ _ _ _ _
  · exact pixelIs_storePixel_of_ne hj.ne (hfinished y' cb' cr' hsamples')

/-- CCI completes where its checks pass, the pixel buffer is apart from the planes and its loop completes. -/
theorem execCci_of_loop (hready : ∀ c, PlaneReady c s) (hpixels : PixelsReady s) (hapart : PixelsApart s)
    (hloop : pixelLoop (cciPixel s.imageBases) s.pixels 0 s.dmem = some m) :
    exec .cci s = .next (s.setDmem m).advance := by
  refine (checked_of_none (imageChecks_passed hready hpixels) s _).trans ?_
  rw [pixOverlapsPlane_eq_false hapart, hloop]
  rfl

end

/-- Settles O21: the loop converts every pixel, and nothing but DMEM and PC changes. -/
theorem ccfConvertsEveryPixel : Obligations.CcfConvertsEveryPixel := by
  intro s hready hpixels hapart hplanes hwritten
  obtain ⟨m, hloop, hconverted⟩ := pixelLoop_ccf_converts hplanes hapart hwritten
  refine ⟨_, execCcf_of_loop hready hpixels hplanes hapart hloop, rfl, rfl, fun p hp r gr b hr hgr hb => ?_⟩
  obtain ⟨hy, hcb, hcr⟩ := hconverted p hp r gr b ⟨hr, hgr, hb⟩
  exact ⟨hy, hcb, hcr⟩

/-- Settles O22: the loop converts every pixel, and nothing but DMEM and PC changes. -/
theorem cciConvertsEveryPixel : Obligations.CciConvertsEveryPixel := by
  intro s hready hpixels hapart hwritten
  obtain ⟨m, hloop, hconverted⟩ := pixelLoop_cci_converts hapart hwritten
  refine ⟨_, execCci_of_loop hready hpixels hapart hloop, rfl, rfl, fun p hp y cb cr hy hcb hcr => ?_⟩
  obtain ⟨hred, hgreen, hblue⟩ := hconverted p hp y cb cr ⟨hy, hcb, hcr⟩
  exact ⟨hred, hgreen, hblue⟩

/-! ### The round trip (R137) -/

theorem clamp255_cases (n : Int) :
    n < 0 ∧ clamp255 n = 0 ∨ 255 < n ∧ clamp255 n = 255 ∨ 0 ≤ n ∧ n ≤ 255 ∧ clamp255 n = n := by
  unfold clamp255
  split <;> [skip; split] <;> omega

/-- `x` is within half a unit of `p` millionths, the scale of the forward coefficients (R130). -/
def NearMillionths (x p : Int) : Prop := 2 * (x * 1000000 - p) ≤ 1000000 ∧ 2 * (p - x * 1000000) ≤ 1000000

/-- A clamped forward result is as near as the rounded one: no exact value is below -0.5 or above 255.5 (R133). -/
theorem nearMillionths_clamp255_rne {p : Int} (hlo : -1000000 ≤ 2 * p) (hhi : 2 * p ≤ 511000000) :
    NearMillionths (clamp255 (rne p 1000000)) p := by
  have hnear := rne_near (p := p) (q := 1000000) (by decide)
  have hclamp := clamp255_cases (rne p 1000000)
  constructor <;> omega

/-- An inverse result is within 1 of a channel value that its exact value misses by less than 1.5. -/
theorem abs_clamp255_rne_sub_le_one {p r : Int} (hr0 : 0 ≤ r) (hr1 : r ≤ 255)
    (hlo : 2 * (r * rgbScale - p) < 3 * rgbScale) (hhi : 2 * (p - r * rgbScale) < 3 * rgbScale) :
    |clamp255 (rne p rgbScale) - r| ≤ 1 := by
  have hnear := rne_near (p := p) (q := rgbScale) (by decide)
  have hclamp := clamp255_cases (rne p rgbScale)
  have hscale : rgbScale = 65536000000 := by decide
  rw [hscale] at hlo hhi hnear hclamp ⊢
  rw [abs_le]
  omega

section
variable {r g b : Int} (hr0 : 0 ≤ r) (hr1 : r ≤ 255) (hg0 : 0 ≤ g) (hg1 : g ≤ 255) (hb0 : 0 ≤ b) (hb1 : b ≤ 255)
include hr0 hr1 hg0 hg1 hb0 hb1

theorem lumaOf_near : NearMillionths (lumaOf r g b) (299000 * r + 587000 * g + 114000 * b) :=
  nearMillionths_clamp255_rne (by omega) (by omega)

theorem cbOf_near : NearMillionths (cbOf r g b) (-168736 * r - 331264 * g + 500000 * b + 128000000) :=
  nearMillionths_clamp255_rne (by omega) (by omega)

theorem crOf_near : NearMillionths (crOf r g b) (500000 * r - 418688 * g - 81312 * b + 128000000) :=
  nearMillionths_clamp255_rne (by omega) (by omega)

theorem red_round_trip (cb : Int) : |redOf (lumaOf r g b * 2 ^ 16) cb (crOf r g b * 2 ^ 16) - r| ≤ 1 := by
  obtain ⟨hy, hy'⟩ := lumaOf_near hr0 hr1 hg0 hg1 hb0 hb1
  obtain ⟨hcr, hcr'⟩ := crOf_near hr0 hr1 hg0 hg1 hb0 hb1
  refine abs_clamp255_rne_sub_le_one hr0 hr1 ?_ ?_ <;> rw [rgbScale, chromaZero] <;> omega

theorem green_round_trip :
    |greenOf (lumaOf r g b * 2 ^ 16) (cbOf r g b * 2 ^ 16) (crOf r g b * 2 ^ 16) - g| ≤ 1 := by
  obtain ⟨hy, hy'⟩ := lumaOf_near hr0 hr1 hg0 hg1 hb0 hb1
  obtain ⟨hcb, hcb'⟩ := cbOf_near hr0 hr1 hg0 hg1 hb0 hb1
  obtain ⟨hcr, hcr'⟩ := crOf_near hr0 hr1 hg0 hg1 hb0 hb1
  refine abs_clamp255_rne_sub_le_one hg0 hg1 ?_ ?_ <;> rw [rgbScale, chromaZero] <;> omega

theorem blue_round_trip (cr : Int) : |blueOf (lumaOf r g b * 2 ^ 16) (cbOf r g b * 2 ^ 16) cr - b| ≤ 1 := by
  obtain ⟨hy, hy'⟩ := lumaOf_near hr0 hr1 hg0 hg1 hb0 hb1
  obtain ⟨hcb, hcb'⟩ := cbOf_near hr0 hr1 hg0 hg1 hb0 hb1
  refine abs_clamp255_rne_sub_le_one hb0 hb1 ?_ ?_ <;> rw [rgbScale, chromaZero] <;> omega

end

/-- Settles O50: the coefficients cancel up to less than 1.5, and the last rounding is to a nearest integer. -/
theorem colorRoundTripWithinOne : Obligations.ColorRoundTripWithinOne := by
  refine ⟨fun r g b hr0 hr1 hg0 hg1 hb0 hb1 => ⟨?_, ?_, ?_⟩, by decide⟩
  · exact red_round_trip hr0 hr1 hg0 hg1 hb0 hb1 _
  · exact green_round_trip hr0 hr1 hg0 hg1 hb0 hb1
  · exact blue_round_trip hr0 hr1 hg0 hg1 hb0 hb1 _

end Sys2Proof.Machine
end

section
/-! The block grid (42_blockgrid.md): the checks of LDT and STT, the tile LDT loads and the tile STT stores. -/

namespace Sys2Proof.Machine

/-! ### The checks (R152, R153) -/

/-- A check that fails raises its code where every check before it passes. -/
theorem firstError_of_failed {before after : List (Bool × ErrCode)} {failed : Bool × ErrCode}
    (hpass : ∀ k ∈ before, k.1 = false) (hfail : failed.1 = true) :
    firstError (before ++ failed :: after) = some failed.2 :=
  firstError_of_group (group := [failed]) hpass (by simp) ⟨failed, List.mem_singleton_self _, hfail⟩

theorem PlaneReady.of_ne_zero {s : State} {c : Channel} (hw : s.width.toNat ≠ 0) (hh : s.height.toNat ≠ 0)
    (halign : (s.planeBase c).toNat % 4 = 0) (hfits : (s.plane c).region.hi ≤ s.params.dmemBytes) :
    PlaneReady c s where
  width h := hw (congrArg BitVec.toNat h)
  height h := hh (congrArg BitVec.toNat h)
  aligned := halign
  fits := hfits

section
variable {s : State} {c : Channel}

theorem tileChecks_eDim (h : s.width.toNat = 0 ∨ s.height.toNat = 0) : firstError (tileChecks c s) = some .eDim :=
  firstError_of_failed (before := []) nofun (dimCheck_failed.2 h)

theorem tileChecks_eAlign (hw : s.width.toNat ≠ 0) (hh : s.height.toNat ≠ 0)
    (halign : (s.planeBase c).toNat % 4 ≠ 0) : firstError (tileChecks c s) = some .eAlign :=
  firstError_of_failed (before := [dimCheck s]) (by simpa using dimCheck_passed_of_ne_zero hw hh)
    (alignCheck_failed.2 halign)

theorem tileChecks_eAddr (hw : s.width.toNat ≠ 0) (hh : s.height.toNat ≠ 0)
    (halign : (s.planeBase c).toNat % 4 = 0) (haddr : s.params.dmemBytes < (s.plane c).region.hi) :
    firstError (tileChecks c s) = some .eAddr :=
  firstError_of_failed (before := [dimCheck s, alignCheck c s])
    (by simp [dimCheck_passed_of_ne_zero hw hh, alignCheck, halign]) (decide_eq_true haddr)

/-- The three checks that a ready plane passes. -/
theorem PlaneReady.checks_passed (h : PlaneReady c s) :
    ∀ k ∈ [dimCheck s, alignCheck c s, planeCheck c s], k.1 = false := by
  simp [h.dimCheck_passed, h.alignCheck_passed, (planeCheck_passed s c).2 h.fits]

theorem tileChecks_eTIdx (hplane : PlaneReady c s) (htidx : s.tileCount ≤ s.tidx.toNat) :
    firstError (tileChecks c s) = some .eTIdx :=
  firstError_of_failed hplane.checks_passed (decide_eq_true htidx)

theorem tileChecks_passed (hplane : PlaneReady c s) (htidx : s.tidx.toNat < s.tileCount) :
    firstError (tileChecks c s) = none := by
  have htidx' : (tidxCheck s).1 = false := decide_eq_false (Nat.not_le.2 htidx)
  have hsplit : tileChecks c s = [dimCheck s, alignCheck c s, planeCheck c s] ++ [tidxCheck s] := rfl
  rw [firstError_eq_none, hsplit, List.forall_mem_append]
  exact ⟨hplane.checks_passed, by simpa using htidx'⟩

end

/-- Settles O12: both commands start with the same checks. -/
theorem tileTransfersCheckInOrder : Obligations.TileTransfersCheckInOrder := by
  intro s r c inc W H base stops
  have hstops {e : ErrCode} (h : firstError (tileChecks c s) = some e) : stops e :=
    ⟨(withChannel_channelField c s _).trans (checked_of_some h s _),
      (withChannel_channelField c s _).trans (checked_of_some h s _)⟩
  exact ⟨fun hdim => hstops (tileChecks_eDim hdim),
    fun hw hh halign => hstops (tileChecks_eAlign hw hh halign),
    fun hw hh halign haddr => hstops (tileChecks_eAddr hw hh halign haddr),
    fun hw hh halign hfits htidx => hstops (tileChecks_eTIdx (.of_ne_zero hw hh halign hfits) htidx)⟩

/-! ### Where an element stands (R150, R151) -/

section
variable {p : Plane} {i : Nat} {r k : Fin 8}

theorem Plane.elemAddr_elemAt_of_inside
    (h : 8 * (i / ceil8 p.w) + r.val < p.h ∧ 8 * (i % ceil8 p.w) + k.val < p.w) :
    p.elemAddr i (elemAt r k) =
      some (p.sampleAddr (8 * (i / ceil8 p.w) + r.val) (8 * (i % ceil8 p.w) + k.val)) := by
  simp only [Plane.elemAddr, Plane.elemRow, Plane.elemCol, rowOf_elemAt, colOf_elemAt, if_pos h]

theorem Plane.elemAddr_elemAt_of_padding
    (h : ¬(8 * (i / ceil8 p.w) + r.val < p.h ∧ 8 * (i % ceil8 p.w) + k.val < p.w)) :
    p.elemAddr i (elemAt r k) = none := by
  simp only [Plane.elemAddr, Plane.elemRow, Plane.elemCol, rowOf_elemAt, colOf_elemAt, if_neg h]

end

/-! ### LDT (R152) -/

section
variable {m : Memory} {p : Plane} {i : Nat} {e : Fin 64}

theorem partitionElem_of_elemAddr {a : Nat} (h : p.elemAddr i e = some a) :
    partitionElem m p i e = readWord m a := by rw [partitionElem, h]

theorem partitionElem_of_padding (h : p.elemAddr i e = none) : partitionElem m p i e = some 0 := by
  rw [partitionElem, h]

/-- Every tile of a written plane can be read: an element is a written word or padding. -/
theorem exists_partition_of_regionWritten (h : regionWritten m p.region) (i : Nat) :
    ∃ t, partition m p i = some t := by
  have helem (e : Fin 64) : ∃ w, partitionElem m p i e = some w := by
    cases ha : p.elemAddr i e with
    | none => exact ⟨0, partitionElem_of_padding ha⟩
    | some a =>
      obtain ⟨hlo, hhi⟩ := Plane.elemAddr_region ha
      obtain ⟨w, hw⟩ := exists_readWord_of_regionWritten h hlo hhi
      exact ⟨w, (partitionElem_of_elemAddr ha).trans hw⟩
  choose elem helem using helem
  exact ⟨Vector.ofFn elem, partition_eq_some.2 fun e => by simp [helem]⟩

end

/-- LDT completes where its checks pass and its tile can be read. -/
theorem execLdt_of_partition {s : State} {c : Channel} {t : Tile} (hchecks : firstError (tileChecks c s) = none)
    (ht : partition s.dmem (s.plane c) s.tidx.toNat = some t) (rd : TReg) (inc : Bool) :
    exec (.ldt rd (channelField c) inc) s = .next ((s.writeTile rd t).bumpTidx inc).advance := by
  refine (withChannel_channelField c s _).trans ((checked_of_none hchecks s _).trans ?_)
  rw [ht]
  rfl

/-- What LDT's destination register holds afterwards. -/
theorem tileElem_after_ldt (s : State) (rd : TReg) (t : Tile) (inc : Bool) (e : Fin 64) :
    ((s.writeTile rd t).bumpTidx inc).advance.tileElem rd e = t[e] :=
  (s.tileElem_writeTile rd rd t e).trans (if_pos rfl)

/-- Settles O23: a written plane can be partitioned, and LDT writes the tile that results. -/
theorem ldtLoadsTheTile : Obligations.LdtLoadsTheTile := by
  intro s rd c inc hplane htidx hwritten
  obtain ⟨tile, htile⟩ := exists_partition_of_regionWritten hwritten s.tidx.toNat
  have helem := partition_eq_some.1 htile
  refine ⟨_, execLdt_of_partition (tileChecks_passed hplane htidx) htile rd inc, rfl, rfl, rfl,
    fun r k => ⟨fun hinside => ?_, fun hpadding => ?_⟩⟩
  · have haddr := Plane.elemAddr_elemAt_of_inside (p := s.plane c) hinside
    rw [tileElem_after_ldt, ← helem, partitionElem_of_elemAddr haddr]
    rfl
  · have haddr := Plane.elemAddr_elemAt_of_padding (p := s.plane c) hpadding
    have hzero := (helem (elemAt r k)).symm.trans (partitionElem_of_padding haddr)
    exact (tileElem_after_ldt s rd tile inc _).trans (Option.some.inj hzero)

/-! ### STT (R153, R154) -/

/-- STT completes where its checks pass. -/
theorem execStt_of_passed {s : State} {c : Channel} (hchecks : firstError (tileChecks c s) = none) (rs : TReg)
    (inc : Bool) : exec (.stt rs (channelField c) inc) s =
      .next ((s.setDmem (reassemble s.dmem (s.plane c) s.tidx.toNat (s.readTile rs))).bumpTidx inc).advance :=
  (withChannel_channelField c s _).trans (checked_of_none hchecks s _)

/-- Settles O24: STT reassembles the tile register into the plane, which stores the elements in range and no other
byte. -/
theorem sttStoresTheTile : Obligations.SttStoresTheTile := by
  intro s rs c inc hplane htidx
  refine ⟨_, execStt_of_passed (tileChecks_passed hplane htidx) rs inc, rfl, rfl, rfl, fun r k hinside => ?_,
    fun b hb => reassemble_outside _ _ _ _ hb⟩
  have haddr := Plane.elemAddr_elemAt_of_inside (p := s.plane c) hinside
  exact (reassemble_stored _ _ _ _ haddr).trans (congrArg some (s.readTile_getElem rs _))

end Sys2Proof.Machine
end

section
/-! The 2D-DCT (43_transform.md): the double sums and what FDCT and IDCT leave, the other exact datapaths, and the corner
cases. -/

namespace Sys2Proof.Machine

/-! ### The double sums (R173, R174) -/

theorem sum8_eq_sum (f : Fin 8 → Int) : sum8 f = ∑ i, f i := (Fin.sum_univ_eight f).symm

theorem fdctSum_eq_sum (x : Tile) (u v : Fin 8) :
    fdctSum x u v = ∑ r, ∑ c, dctK u r * x[elemAt r c].toInt * dctK v c := by
  simp only [fdctSum, sum8_eq_sum]

theorem idctSum_eq_sum (x : Tile) (r c : Fin 8) :
    idctSum x r c = ∑ u, ∑ v, dctK u r * x[elemAt u v].toInt * dctK v c := by
  simp only [idctSum, sum8_eq_sum]

/-- A double sum with a factor for each row and one for each column is a sum along the rows, then one over them. -/
theorem sum_sum_eq_sum_mul_sum (a b : Fin 8 → Int) (m : Fin 8 → Fin 8 → Int) :
    ∑ i, ∑ j, a i * m i j * b j = ∑ i, a i * ∑ j, m i j * b j := by
  simp only [Finset.mul_sum, mul_assoc]

/-! ### FDCT and IDCT -/

/-- An element of a tile is one of some row and column. -/
theorem exists_elem_iff_exists_elemAt {p : Fin 64 → Prop} : (∃ e, p e) ↔ ∃ r c, p (elemAt r c) :=
  ⟨fun ⟨e, he⟩ => ⟨rowOf e, colOf e, by rwa [elemAt_rowOf_colOf]⟩, fun ⟨r, c, h⟩ => ⟨elemAt r c, h⟩⟩

theorem saturates_eq_true_iff {bits : Nat} {n : Int} : saturates bits n = true ↔ n < satMin bits ∨ satMax bits < n := by
  simp [saturates]

/-- `sat_32` sets the flag exactly if some row and column hold a value outside 32 bits (00_scope.md R16). -/
theorem satFlag32_eq_true_iff {raw : Fin 64 → Int} :
    satFlag 32 raw = true ↔ ∃ r c, raw (elemAt r c) < -2147483648 ∨ 2147483647 < raw (elemAt r c) := by
  simp only [satFlag, anyElem_eq_true, saturates_eq_true_iff, satMin32, satMax32]
  exact exists_elem_iff_exists_elemAt

/-- What a command that saturates a tile leaves in its destination register. -/
theorem tileElem_after_satTile (s : State) (rd : TReg) (bits : Nat) (raw : Fin 64 → Int) (b : Bool) (e : Fin 64) :
    ((s.writeTile rd (satTile bits raw)).orOvf b).advance.tileElem rd e = BitVec.ofInt 32 (sat bits (raw e)) :=
  ((s.tileElem_writeTile rd rd _ e).trans (if_pos rfl)).trans (satTile_getElem bits raw e)

/-- A command that saturates a tile to 32 bits sets OVF if an element saturates, and never clears it (10_state.md R45). -/
theorem ovf_after_satFlag32 (s : State) (rd : TReg) (x : Tile) (raw : Fin 64 → Int) :
    ((s.writeTile rd x).orOvf (satFlag 32 raw)).advance.ovf = true ↔
      s.ovf = true ∨ ∃ r c, raw (elemAt r c) < -2147483648 ∨ 2147483647 < raw (elemAt r c) := by
  rw [State.advance_ovf, State.orOvf_ovf, State.writeTile_ovf, Bool.or_eq_true, satFlag32_eq_true_iff]

theorem fdctRaw_readTile_elemAt (s : State) (rs : TReg) (u v : Fin 8) :
    fdctRaw (s.readTile rs) (elemAt u v) =
      rne (∑ r, ∑ c, dctK u r * (s.tileElem rs (elemAt r c)).toInt * dctK v c) (2 ^ 60) := by
  simp only [fdctRaw, rowOf_elemAt, colOf_elemAt, fdctSum_eq_sum, State.readTile_getElem]

theorem idctRaw_readTile_elemAt (s : State) (rs : TReg) (r c : Fin 8) :
    idctRaw (s.readTile rs) (elemAt r c) =
      rne (∑ u, ∑ v, dctK u r * (s.tileElem rs (elemAt u v)).toInt * dctK v c) (2 ^ 60) := by
  simp only [idctRaw, rowOf_elemAt, colOf_elemAt, idctSum_eq_sum, State.readTile_getElem]

/-- Settles O25: the tile FDCT writes is the saturated one, and its raw elements are the rounded double sums. -/
theorem fdctIsTheRoundedSum : Obligations.FdctIsTheRoundedSum := by
  intro s rd rs
  simp only [← fdctRaw_readTile_elemAt]
  exact ⟨_, rfl, rfl, fun u v => tileElem_after_satTile s rd 32 _ _ _, ovf_after_satFlag32 s rd _ _⟩

/-- Settles O26: the tile IDCT writes is the saturated one, and its raw elements are the rounded double sums. -/
theorem idctIsTheRoundedSum : Obligations.IdctIsTheRoundedSum := by
  intro s rd rs
  simp only [← idctRaw_readTile_elemAt]
  exact ⟨_, rfl, rfl, fun r c => tileElem_after_satTile s rd 32 _ _ _, ovf_after_satFlag32 s rd _ _⟩

/-! ### The butterfly (R175) -/

/-- The position that faces `n` in a row of eight. -/
def mirror (n : Fin 8) : Fin 8 := ⟨7 - n.val, by omega⟩

/-- Of two facing positions, the one in the left half. -/
def nearSide (n : Fin 8) : Fin 8 := if n.val < 4 then n else mirror n

/-- `+1` or `-1`. -/
def unitSign (b : Bool) : Int := if b then 1 else -1

/-- A one-dimensional forward pass over the four sums and differences of facing inputs. -/
def forwardButterfly (f : Fin 8 → Int) (k : Fin 8) : Int :=
  ([0, 1, 2, 3].map fun n => (f n + unitSign (k.val % 2 == 0) * f (mirror n)) * dctK k n).sum

/-- A one-dimensional inverse pass: the even rows and the odd rows, each summed once for two facing outputs. -/
def inverseButterfly (f : Fin 8 → Int) (n : Fin 8) : Int :=
  ([0, 2, 4, 6].map fun k => f k * dctK k (nearSide n)).sum +
    unitSign (n.val < 4) * ([1, 3, 5, 7].map fun k => f k * dctK k (nearSide n)).sum

/-- Even rows of `K` are symmetric, odd rows antisymmetric (R172). -/
theorem dctK_mirror : ∀ k n : Fin 8, dctK k (mirror n) = unitSign (k.val % 2 == 0) * dctK k n := by decide

/-- Eight products are four pairs of facing ones. -/
theorem sum_mul_dctK_eq_facing_pairs (f : Fin 8 → Int) (k : Fin 8) :
    ∑ n, f n * dctK k n =
      ([0, 1, 2, 3].map fun n => f n * dctK k n + f (mirror n) * dctK k (mirror n)).sum := by
  have hfacing : mirror 0 = 7 ∧ mirror 1 = 6 ∧ mirror 2 = 5 ∧ mirror 3 = 4 := by decide
  obtain ⟨h0, h1, h2, h3⟩ := hfacing
  simp only [Fin.sum_univ_eight, List.map_cons, List.map_nil, List.sum_cons, List.sum_nil, h0, h1, h2, h3]
  ring

theorem forwardButterfly_eq_sum (f : Fin 8 → Int) (k : Fin 8) : forwardButterfly f k = ∑ n, f n * dctK k n := by
  rw [sum_mul_dctK_eq_facing_pairs, forwardButterfly]
  congr 2 with n
  rw [dctK_mirror]
  ring

theorem dctK_nearSide_of_even : ∀ k ∈ [0, 2, 4, 6], ∀ n, dctK k (nearSide n) = dctK k n := by decide

theorem dctK_nearSide_of_odd : ∀ k ∈ [1, 3, 5, 7], ∀ n : Fin 8, unitSign (n.val < 4) * dctK k (nearSide n) = dctK k n := by
  decide

/-- Eight terms are the four of even and the four of odd rows. -/
theorem sum_eq_even_add_odd (g : Fin 8 → Int) : ∑ k, g k = ([0, 2, 4, 6].map g).sum + ([1, 3, 5, 7].map g).sum := by
  simp only [Fin.sum_univ_eight, List.map_cons, List.map_nil, List.sum_cons, List.sum_nil]
  ring

theorem inverseButterfly_eq_sum (f : Fin 8 → Int) (n : Fin 8) : inverseButterfly f n = ∑ k, f k * dctK k n := by
  rw [sum_eq_even_add_odd, inverseButterfly, ← List.sum_map_mul_left]
  congr 2
  · exact List.map_congr_left fun k hk => by rw [dctK_nearSide_of_even k hk]
  · exact List.map_congr_left fun k hk => by rw [mul_left_comm, dctK_nearSide_of_odd k hk]

/-- A form equal to the direct sum in every element has its tile and flag. -/
theorem fdct_eq_of_form {x : Tile} {form : Fin 64 → Int} (h : ∀ e, form e = fdctSum x (rowOf e) (colOf e)) :
    fdct x = satTile 32 (fun e => rne (form e) (2 ^ 60)) ∧ fdctOvf x = satFlag 32 fun e => rne (form e) (2 ^ 60) := by
  simp only [h]
  exact ⟨rfl, rfl⟩

theorem idct_eq_of_form {x : Tile} {form : Fin 64 → Int} (h : ∀ e, form e = idctSum x (rowOf e) (colOf e)) :
    idct x = satTile 32 (fun e => rne (form e) (2 ^ 60)) ∧ idctOvf x = satFlag 32 fun e => rne (form e) (2 ^ 60) := by
  simp only [h]
  exact ⟨rfl, rfl⟩

theorem separable_eq_fdctSum (x : Tile) (u v : Fin 8) :
    ∑ r, dctK u r * ∑ c, x[elemAt r c].toInt * dctK v c = fdctSum x u v := by
  rw [fdctSum_eq_sum, sum_sum_eq_sum_mul_sum]

theorem separable_eq_idctSum (x : Tile) (r c : Fin 8) :
    ∑ u, dctK u r * ∑ v, x[elemAt u v].toInt * dctK v c = idctSum x r c := by
  rw [idctSum_eq_sum, sum_sum_eq_sum_mul_sum (fun u => dctK u r) (fun v => dctK v c)]

theorem butterfly_eq_fdctSum (x : Tile) (u v : Fin 8) :
    forwardButterfly (fun r => forwardButterfly (fun c => x[elemAt r c].toInt) v) u = fdctSum x u v := by
  rw [← separable_eq_fdctSum]
  simp only [forwardButterfly_eq_sum, mul_comm (dctK u _)]

theorem butterfly_eq_idctSum (x : Tile) (r c : Fin 8) :
    inverseButterfly (fun u => inverseButterfly (fun v => x[elemAt u v].toInt) c) r = idctSum x r c := by
  rw [← separable_eq_idctSum]
  simp only [inverseButterfly_eq_sum, mul_comm (dctK _ r)]

/-- Settles O48: each form is the direct sum, by distributivity and by the symmetry of the rows of `K`. -/
theorem exactDatapathsAgree : Obligations.ExactDatapathsAgree := by
  intro x
  refine ⟨List.forall_mem_cons.2 ⟨?_, List.forall_mem_singleton.2 ?_⟩,
    List.forall_mem_cons.2 ⟨?_, List.forall_mem_singleton.2 ?_⟩⟩
  · exact fdct_eq_of_form fun e => separable_eq_fdctSum x _ _
  · exact fdct_eq_of_form fun e => butterfly_eq_fdctSum x _ _
  · exact idct_eq_of_form fun e => separable_eq_idctSum x _ _
  · exact idct_eq_of_form fun e => butterfly_eq_idctSum x _ _

/-! ### No saturation on image-like inputs (R177) -/

/-- `3037000496`, eight times the constant of row 0, bounds the absolute sum of every row of `K`. -/
theorem sum_abs_dctK_row_le : ∀ k : Fin 8, ∑ n, |dctK k n| ≤ 3037000496 := by decide

/-- The same number bounds the absolute sum of every column. -/
theorem sum_abs_dctK_column_le : ∀ n : Fin 8, ∑ k, |dctK k n| ≤ 3037000496 := by decide

theorem abs_sum_mul_le {f b : Fin 8 → Int} {B L : Int} (hf : ∀ i, |f i| ≤ B) (hB : 0 ≤ B) (hb : ∑ i, |b i| ≤ L) :
    |∑ i, f i * b i| ≤ B * L := by
  calc |∑ i, f i * b i|
    _ ≤ ∑ i, |f i * b i| := Finset.abs_sum_le_sum_abs _ _
    _ ≤ ∑ i, B * |b i| := Finset.sum_le_sum fun i _ => by
        rw [abs_mul]; exact mul_le_mul_of_nonneg_right (hf i) (abs_nonneg _)
    _ = B * ∑ i, |b i| := (Finset.mul_sum _ _ _).symm
    _ ≤ B * L := mul_le_mul_of_nonneg_left hb hB

/-- A double sum is bounded by the bound of its elements and those of its two coefficient sums. -/
theorem abs_sum_sum_le {a b : Fin 8 → Int} {m : Fin 8 → Fin 8 → Int} {B L : Int} (hm : ∀ i j, |m i j| ≤ B) (hB : 0 ≤ B)
    (hL : 0 ≤ L) (ha : ∑ i, |a i| ≤ L) (hb : ∑ j, |b j| ≤ L) : |∑ i, ∑ j, a i * m i j * b j| ≤ B * L * L := by
  rw [sum_sum_eq_sum_mul_sum]
  simp only [mul_comm (a _)]
  exact abs_sum_mul_le (fun i => abs_sum_mul_le (hm i) hB hb) (mul_nonneg hB hL) ha

/-- A double sum of inputs of magnitude at most 4095 rounds to a 32-bit value. -/
theorem saturates_rne_eq_false {p : Int} (h : |p| ≤ 4095 * 2 ^ 16 * 3037000496 * 3037000496) :
    saturates 32 (rne p (2 ^ 60)) = false := by
  rw [saturates_eq_false_iff, satMin32, satMax32]
  have hnear := rne_near (p := p) (q := 2 ^ 60) (by norm_num)
  rw [abs_le] at h
  omega

section
variable {x : Tile} (hx : ∀ e : Fin 64, |x[e].toInt| ≤ 4095 * 2 ^ 16)
include hx

theorem fdctOvf_eq_false_of_bounded : fdctOvf x = false := by
  rw [fdctOvf, satFlag, anyElem_eq_false]
  refine fun e => saturates_rne_eq_false ?_
  rw [fdctSum_eq_sum]
  exact abs_sum_sum_le (fun r c => hx (elemAt r c)) (by norm_num) (by norm_num) (sum_abs_dctK_row_le _)
    (sum_abs_dctK_row_le _)

theorem idctOvf_eq_false_of_bounded : idctOvf x = false := by
  rw [idctOvf, satFlag, anyElem_eq_false]
  refine fun e => saturates_rne_eq_false ?_
  rw [idctSum_eq_sum]
  exact abs_sum_sum_le (fun u v => hx (elemAt u v)) (by norm_num) (by norm_num) (sum_abs_dctK_column_le (rowOf e))
    (sum_abs_dctK_column_le (colOf e))

end

/-! ### The constant tile (R177) -/

/-- Every row of `K` but row 0 sums to 0. -/
theorem sum_dctK_row : ∀ k : Fin 8, ∑ n, dctK k n = if k = 0 then 8 * 379625062 else 0 := by decide

theorem fdctSum_replicate (w : Word) (u v : Fin 8) :
    fdctSum (Vector.replicate 64 w) u v = (∑ r, dctK u r) * (w.toInt * ∑ c, dctK v c) := by
  rw [fdctSum_eq_sum, sum_sum_eq_sum_mul_sum, Finset.sum_mul, Finset.mul_sum]
  simp

theorem fdct_replicate_getElem_zero (w : Word) :
    (fdct (Vector.replicate 64 w))[(0 : Fin 64)] =
      BitVec.ofInt 32 (sat 32 (rne (64 * 379625062 ^ 2 * w.toInt) (2 ^ 60))) := by
  have hsum : fdctSum (Vector.replicate 64 w) 0 0 = 64 * 379625062 ^ 2 * w.toInt := by
    rw [fdctSum_replicate, sum_dctK_row, if_pos rfl]
    ring
  rw [← hsum]
  exact satTile_getElem 32 _ 0

theorem rowOf_ne_zero_or_colOf_ne_zero {e : Fin 64} (he : e ≠ 0) : rowOf e ≠ 0 ∨ colOf e ≠ 0 := by
  by_contra! hzero
  obtain ⟨hrow, hcol⟩ := hzero
  rw [← elemAt_rowOf_colOf e, hrow, hcol] at he
  exact he rfl

theorem fdct_replicate_getElem_of_ne_zero (w : Word) {e : Fin 64} (he : e ≠ 0) :
    (fdct (Vector.replicate 64 w))[e] = 0#32 := by
  have hsum : fdctSum (Vector.replicate 64 w) (rowOf e) (colOf e) = 0 := by
    rw [fdctSum_replicate, sum_dctK_row, sum_dctK_row]
    rcases rowOf_ne_zero_or_colOf_ne_zero he with hrow | hcol
    · rw [if_neg hrow, zero_mul]
    · rw [if_neg hcol, mul_zero, mul_zero]
  have hraw : fdctRaw (Vector.replicate 64 w) e = 0 := by
    rw [fdctRaw, hsum]
    decide
  rw [fdct, satTile_getElem, hraw]
  decide

/-- Settles O49: `K` is the table; the absolute sums of its rows and columns bound both transforms, and the plain sums
of its rows give the constant tile's coefficients. -/
theorem transformCornerCases : Obligations.TransformCornerCases :=
  ⟨by decide, fun _ hx => ⟨fdctOvf_eq_false_of_bounded hx, idctOvf_eq_false_of_bounded hx⟩,
    fun w => ⟨fun _ he => fdct_replicate_getElem_of_ne_zero w he, fdct_replicate_getElem_zero w⟩⟩

end Sys2Proof.Machine
end

section
/-! The quantizer (44_quantizer.md): its one check, what QNT and DQNT leave, requantization and the quantization error. -/

namespace Sys2Proof.Machine

/-! ### The check (R192) -/

/-- The check fails as soon as one entry of the selected table is 0. -/
theorem qtCheck_eQtZero {s : State} {tb : TableSel} {e : Fin 64} (he : (s.qt tb)[e] = 0#16) :
    firstError [qtCheck tb s] = some .eQtZero := by
  have hzero : qtHasZero (s.qt tb) = true := anyElem_eq_true.2 ⟨e, beq_iff_eq.2 he⟩
  exact firstError_of_failed (failed := qtCheck tb s) (before := []) nofun hzero

/-- Settles O14: both commands start with the check of the table, which a 0 entry fails. -/
theorem quantizerRefusesAZeroEntry : Obligations.QuantizerRefusesAZeroEntry := fun s _ _ _ _ he =>
  ⟨checked_of_some (qtCheck_eQtZero he) s _, checked_of_some (qtCheck_eQtZero he) s _⟩

/-! ### QNT and DQNT (R190, R191) -/

/-- The state after a command that saturates a tile to `bits` bits. -/
def State.afterSatTile (s : State) (rd : TReg) (bits : Nat) (raw : Fin 64 → Int) : State :=
  ((s.writeTile rd (satTile bits raw)).orOvf (satFlag bits raw)).advance

section
variable {s : State} {tb : TableSel} (h : TableReady tb s) (rd rs : TReg)
include h

theorem TableReady.quantizer_checks_passed : firstError [qtCheck tb s] = none := by
  simp [firstError_eq_none, h.qtCheck_passed]

theorem TableReady.exec_qnt :
    exec (.qnt rd rs tb) s = .next (s.afterSatTile rd 16 (qntRaw (s.readTile rs) (s.qt tb))) :=
  checked_of_none h.quantizer_checks_passed s _

theorem TableReady.exec_dqnt :
    exec (.dqnt rd rs tb) s = .next (s.afterSatTile rd 32 (dqntRaw (s.readTile rs) (s.qt tb))) :=
  checked_of_none h.quantizer_checks_passed s _

end

section
variable (s : State) (rd : TReg) (bits : Nat) (raw : Fin 64 → Int)

@[simp] theorem State.afterSatTile_pc : (s.afterSatTile rd bits raw).pc = s.pc + 1 := rfl

@[simp] theorem State.afterSatTile_ovf : (s.afterSatTile rd bits raw).ovf = (s.ovf || satFlag bits raw) := rfl

@[simp] theorem State.afterSatTile_qt (tb : TableSel) : (s.afterSatTile rd bits raw).qt tb = s.qt tb := by
  simp [State.afterSatTile]

@[simp] theorem State.tileElem_afterSatTile (e : Fin 64) :
    (s.afterSatTile rd bits raw).tileElem rd e = BitVec.ofInt 32 (sat bits (raw e)) :=
  tileElem_after_satTile s rd bits raw _ e

@[simp] theorem State.readTile_afterSatTile : (s.afterSatTile rd bits raw).readTile rd = satTile bits raw :=
  (s.readTile_writeTile rd rd _).trans (if_pos rfl)

variable {bits raw} in
theorem State.afterSatTile_ovf_of_exact (h : satFlag bits raw = false) : (s.afterSatTile rd bits raw).ovf = s.ovf := by
  rw [State.afterSatTile_ovf, h, Bool.or_false]

variable {s} in
theorem TableReady.afterSatTile {tb : TableSel} (h : TableReady tb s) : TableReady tb (s.afterSatTile rd bits raw) := by
  rwa [TableReady, State.afterSatTile_qt]

/-- OVF is set if an element saturates, and never cleared (10_state.md R45). -/
theorem State.afterSatTile_ovf_eq_true_iff :
    (s.afterSatTile rd bits raw).ovf = true ↔ s.ovf = true ∨ ∃ e, raw e < satMin bits ∨ satMax bits < raw e := by
  simp only [State.afterSatTile_ovf, Bool.or_eq_true, satFlag, anyElem_eq_true, saturates_eq_true_iff]

end

theorem qntRaw_readTile (s : State) (rs : TReg) (q : QTable) (e : Fin 64) :
    qntRaw (s.readTile rs) q e = rne (s.tileElem rs e).toInt ((q[e].toNat : Int) * 2 ^ 16) := by
  rw [qntRaw, State.readTile_getElem]

theorem dqntRaw_readTile (s : State) (rs : TReg) (q : QTable) (e : Fin 64) :
    dqntRaw (s.readTile rs) q e = (s.tileElem rs e).toInt * (q[e].toNat : Int) * 2 ^ 16 := by
  rw [dqntRaw, State.readTile_getElem]

/-- Settles O27: the tile QNT writes is the saturated one, and its raw elements are the rounded quotients. -/
theorem qntDividesAndRounds : Obligations.QntDividesAndRounds := by
  intro s rd rs tb htable
  simp only [← qntRaw_readTile, ← satMin16, ← satMax16]
  exact ⟨_, htable.exec_qnt rd rs, rfl, s.tileElem_afterSatTile rd 16 _, s.afterSatTile_ovf_eq_true_iff rd 16 _⟩

/-- Settles O28: the tile DQNT writes is the saturated one, and its raw elements are the exact products. -/
theorem dqntMultiplies : Obligations.DqntMultiplies := by
  intro s rd rs tb htable
  simp only [← dqntRaw_readTile, ← satMin32, ← satMax32]
  exact ⟨_, htable.exec_dqnt rd rs, rfl, s.tileElem_afterSatTile rd 32 _, s.afterSatTile_ovf_eq_true_iff rd 32 _⟩

/-! ### Requantization (R196) and the quantization error (R197) -/

theorem tile_ext {x y : Tile} (h : ∀ e : Fin 64, x[e] = y[e]) : x = y :=
  Vector.ext fun k hk => h ⟨k, hk⟩

/-- A tile in which nothing saturates holds the raw values. -/
theorem toInt_satTile_getElem {bits : Nat} (hbits : bits ≤ 32) {raw : Fin 64 → Int} (h : satFlag bits raw = false)
    (e : Fin 64) : (satTile bits raw)[e].toInt = raw e := by
  have hfits := anyElem_eq_false.1 h e
  obtain ⟨hlo, hhi⟩ := saturates_eq_false_iff.1 hfits
  have hpow : (2 : Int) ^ (bits - 1) ≤ 2 ^ 31 := pow_le_pow_right₀ (by norm_num) (by omega)
  rw [satMin] at hlo
  rw [satMax] at hhi
  rw [satTile_getElem, sat_of_not_saturates hfits, BitVec.toInt_ofInt, Int.bmod_eq_of_le (by omega) (by omega)]

/-- The divisor of an entry that is not 0 is positive. -/
theorem qntDivisor_pos {q : QTable} {e : Fin 64} (hq : q[e] ≠ 0#16) : (0 : Int) < (q[e].toNat : Int) * 2 ^ 16 := by
  have hentry : q[e].toNat ≠ 0 := fun hzero => hq (BitVec.eq_of_toNat_eq hzero)
  omega

section
variable {x : Tile} {q : QTable}

/-- Where no product with an entry leaves 16 bits, the scaled one stays within 32 bits. -/
theorem dqntOvf_eq_false
    (h : ∀ e : Fin 64, -32768 ≤ x[e].toInt * (q[e].toNat : Int) ∧ x[e].toInt * (q[e].toNat : Int) ≤ 32767) :
    dqntOvf x q = false := by
  rw [dqntOvf, satFlag, anyElem_eq_false]
  intro e
  obtain ⟨hlo, hhi⟩ := h e
  rw [saturates_eq_false_iff, satMin32, satMax32, dqntRaw]
  omega

/-- Dividing an exact product gives its factor back. -/
theorem qntRaw_dqnt (hq : ∀ e : Fin 64, q[e] ≠ 0#16) (h : dqntOvf x q = false) (e : Fin 64) :
    qntRaw (dqnt x q) q e = x[e].toInt := by
  rw [qntRaw, dqnt, toInt_satTile_getElem le_rfl h, dqntRaw, mul_assoc, rne_exact (qntDivisor_pos (hq e))]

section
variable (hq : ∀ e : Fin 64, q[e] ≠ 0#16) (hexact : dqntOvf x q = false)
  (hfits : ∀ e : Fin 64, saturates 16 x[e].toInt = false)
include hq hexact hfits

theorem qntOvf_dqnt : qntOvf (dqnt x q) q = false := by
  rw [qntOvf, satFlag, anyElem_eq_false]
  intro e
  rw [qntRaw_dqnt hq hexact, hfits]

theorem qnt_dqnt : qnt (dqnt x q) q = x := by
  refine tile_ext fun e => ?_
  rw [qnt, satTile_getElem, qntRaw_dqnt hq hexact, sat_of_not_saturates (hfits e), BitVec.ofInt_toInt]

end

theorem two_mul_abs_dqnt_qnt_sub_le (hq : ∀ e : Fin 64, q[e] ≠ 0#16) (hqnt : qntOvf x q = false)
    (hdqnt : dqntOvf (qnt x q) q = false) (e : Fin 64) :
    2 * |(dqnt (qnt x q) q)[e].toInt - x[e].toInt| ≤ (q[e].toNat : Int) * 2 ^ 16 := by
  have hback : (dqnt (qnt x q) q)[e].toInt =
      (q[e].toNat : Int) * 2 ^ 16 * rne x[e].toInt ((q[e].toNat : Int) * 2 ^ 16) := by
    rw [dqnt, toInt_satTile_getElem le_rfl hdqnt, dqntRaw, qnt, toInt_satTile_getElem (by norm_num) hqnt, qntRaw]
    ring
  rw [hback]
  exact rne_within_half (qntDivisor_pos (hq e))

end

/-- Settles O46: DQNT saturates nothing, so QNT divides the exact products and finds the 16-bit values again. -/
theorem requantizationIsExact : Obligations.RequantizationIsExact := by
  intro s a b d tb htable hrange
  have hexact : dqntOvf (s.readTile b) (s.qt tb) = false :=
    dqntOvf_eq_false fun e => by simpa only [State.readTile_getElem] using (hrange e).2.2
  have hfits (e : Fin 64) : saturates 16 (s.readTile b)[e].toInt = false := by
    obtain ⟨hlo, hhi, -⟩ := hrange e
    rw [saturates_eq_false_iff, satMin16, satMax16, State.readTile_getElem]
    exact ⟨hlo, hhi⟩
  refine ⟨_, _, htable.exec_dqnt a b, (htable.afterSatTile a 32 _).exec_qnt d a, ?_,
    s.afterSatTile_ovf_of_exact a hexact, ?_⟩
  · simp only [State.readTile_afterSatTile, State.afterSatTile_qt]
    exact qnt_dqnt htable hexact hfits
  · simp only [State.readTile_afterSatTile, State.afterSatTile_qt]
    exact (State.afterSatTile_ovf_of_exact _ d (qntOvf_dqnt htable hexact hfits)).trans
      (s.afterSatTile_ovf_of_exact a hexact)

/-- Settles O47: the two commands together multiply by the divisor the rounded quotient, which `RNE` keeps within half
a unit. -/
theorem quantizationErrorIsHalfAStep : Obligations.QuantizationErrorIsHalfAStep := fun _ _ =>
  two_mul_abs_dqnt_qnt_sub_le

end Sys2Proof.Machine
end

section
/-! The coefficient coder (45_coefcoder.md): the zigzag walk and the two commands that permute along it, the pairs of a
sequence, and the record that RLE appends and RLD decodes. -/

namespace Sys2Proof.Machine

/-! ### The zigzag walk (R210) -/

/-- `(r', c')` comes before `(r, c)` on the zigzag walk: it lies on an earlier diagonal, or earlier on the same one, where
the row falls along an even diagonal and rises along an odd one (R210). -/
def precedesOnWalk (r c r' c' : Fin 8) : Bool :=
  decide (r'.val + c'.val < r.val + c.val) ||
    (decide (r'.val + c'.val = r.val + c.val) &&
      if (r.val + c.val) % 2 = 0 then decide (r.val < r'.val) else decide (r'.val < r.val))

/-- How many elements the walk visits before `(r, c)`. -/
def walkPosition (r c : Fin 8) : Nat :=
  ((List.finRange 8).flatMap fun r' => (List.finRange 8).filter fun c' => precedesOnWalk r c r' c').length

/-- The table `IZ` holds the walk's positions. -/
theorem walkPosition_eq_izTable : ∀ r c, walkPosition r c = izTable[elemAt r c].val := by decide

/-! ### ZZS and ZZU (R211-R213) -/

theorem unscan_getElem (x : Tile) (e : Fin 64) : (unscan x)[e] = x[izTable[e]] := by simp [unscan]

theorem unscan_scan (x : Tile) : unscan (scan x) = x :=
  tile_ext fun e => by simp only [unscan_getElem, scan_getElem, zzTable_izTable]

theorem scan_unscan (x : Tile) : scan (unscan x) = x :=
  tile_ext fun i => by simp only [scan_getElem, unscan_getElem, izTable_zzTable]

/-- What a command that writes one tile leaves in its destination register. -/
theorem tileElem_after_writeTile (s : State) (rd : TReg) (x : Tile) (e : Fin 64) :
    (s.writeTile rd x).advance.tileElem rd e = x[e] := (s.tileElem_writeTile rd rd x e).trans (if_pos rfl)

/-- The same for the whole register. -/
theorem readTile_after_writeTile (s : State) (rd : TReg) (x : Tile) : (s.writeTile rd x).advance.readTile rd = x :=
  (s.readTile_writeTile rd rd x).trans (if_pos rfl)

/-- Settles O29: an element's position on the walk is its entry in `IZ`, which `ZZ` inverts. -/
theorem zigzagMovesElements : Obligations.ZigzagMovesElements := by
  intro s rd rs before position
  have hentry {r c : Fin 8} {k : Fin 64} (hk : k.val = position r c) : k = izTable[elemAt r c] :=
    Fin.ext (hk.trans (walkPosition_eq_izTable r c))
  refine ⟨⟨_, rfl, rfl, rfl, fun r c k hk => ?_⟩, ⟨_, rfl, rfl, rfl, fun r c k hk => ?_⟩⟩
  · simp only [tileElem_after_writeTile, scan_getElem, hentry hk, zzTable_izTable, State.readTile_getElem]
  · rw [tileElem_after_writeTile, unscan_getElem, hentry hk, State.readTile_getElem]

/-- Settles O45: the second command reads the permuted tile in the first one's destination and permutes it back. -/
theorem zigzagIsABijection : Obligations.ZigzagIsABijection := by
  intro s a b d
  refine ⟨⟨_, _, rfl, rfl, ?_⟩, ⟨_, _, rfl, rfl, ?_⟩⟩
  · rw [readTile_after_writeTile, readTile_after_writeTile, unscan_scan]
  · rw [readTile_after_writeTile, readTile_after_writeTile, scan_unscan]

/-! ### The pairs of a sequence (R214) -/

theorem runPairs_eq_nil {vs : List Int} (h : ∀ v ∈ vs, v = 0) (run : Nat) : runPairs run vs = [] := by
  induction vs generalizing run with
  | nil => rfl
  | cons v vs ih =>
    obtain ⟨hv, hvs⟩ := List.forall_mem_cons.1 h
    rw [runPairs, if_pos hv, ih hvs]

/-- A sequence without pairs is all zero. -/
theorem eq_replicate_of_runPairs_eq_nil {vs : List Int} (h : runPairs 0 vs = []) :
    vs = List.replicate vs.length 0 := by
  obtain ⟨k, hk⟩ := expandPairs_runPairs 0 vs
  have hvs : List.replicate k 0 = vs := by simpa [h, expandPairs] using hk
  rw [← hvs, List.length_replicate]

section
variable {x : Tile}

theorem pairs_of_runPairs_eq_nil (h : runPairs 0 (satValues x) = []) : pairs x = [(0, 0)] := by rw [pairs, h]

theorem pairs_of_runPairs_ne_nil (h : runPairs 0 (satValues x) ≠ []) : pairs x = runPairs 0 (satValues x) := by
  unfold pairs
  split
  · exact absurd ‹_› h
  · rfl

/-- Where a value is not 0, none of the pairs is the degenerate one. -/
theorem runPairs_ne_nil_of_exists_ne_zero (h : ∃ v ∈ satValues x, v ≠ 0) : runPairs 0 (satValues x) ≠ [] := by
  intro hnil
  obtain ⟨v, hv, hne⟩ := h
  rw [eq_replicate_of_runPairs_eq_nil hnil] at hv
  exact hne (List.eq_of_mem_replicate hv)

end

/-- The expanded pairs are the saturated values up to trailing zeros; the degenerate pair stands for one 0. -/
theorem exists_expandPairs_pairs_append (x : Tile) :
    ∃ k, expandPairs (pairs x) ++ List.replicate k 0 = satValues x := by
  by_cases h : runPairs 0 (satValues x) = []
  · refine ⟨63, ?_⟩
    have hzero := eq_replicate_of_runPairs_eq_nil h
    rw [satValues_length] at hzero
    rw [pairs_of_runPairs_eq_nil h, hzero]
    rfl
  · rw [pairs_of_runPairs_ne_nil h]
    exact expandPairs_runPairs 0 (satValues x)

/-- Settles O31: the length and the ranges hold of all pairs, and only an all-zero sequence has the degenerate one. -/
theorem pairsDescribeTheSequence : Obligations.PairsDescribeTheSequence := by
  intro x vs
  obtain ⟨hmin, hmax⟩ := pairs_length x
  refine ⟨hmin, hmax, fun q hq => pairs_range hq, fun hzero => ?_, fun hnonzero => ⟨fun q hq => ?_, ?_⟩⟩
  · exact pairs_of_runPairs_eq_nil (runPairs_eq_nil hzero 0)
  · rw [pairs_of_runPairs_ne_nil (runPairs_ne_nil_of_exists_ne_zero hnonzero)] at hq
    obtain ⟨-, -, hne⟩ := runPairs_mem hq
    exact hne
  · exact exists_expandPairs_pairs_append x

/-! ### RLE (R216) -/

/-- A stream pointer below the limit is held without loss. -/
theorem State.toNat_setRlePtr {s : State} {p : Nat} (h : p ≤ s.rleLimit.toNat) : (s.setRlePtr p).rlePtr.toNat = p := by
  have hlimit := s.rleLimit.isLt
  rw [State.setRlePtr_rlePtr, BitVec.toNat_ofNat, Nat.mod_eq_of_lt (by omega)]

/-- The state after RLE has appended a record of these pairs. -/
def State.afterRle (s : State) (ps : List RunPair) (saturated : Bool) : State :=
  (((s.setDmem (writeBytes s.dmem s.rlePtr.toNat (record ps))).setRlePtr
    (s.rlePtr.toNat + recordSize ps.length)).orOvf saturated).advance

section
variable (s : State) (ps : List RunPair) (b : Bool)

@[simp] theorem State.afterRle_pc : (s.afterRle ps b).pc = s.pc + 1 := rfl

@[simp] theorem State.afterRle_dmem : (s.afterRle ps b).dmem = writeBytes s.dmem s.rlePtr.toNat (record ps) := rfl

@[simp] theorem State.afterRle_ovf : (s.afterRle ps b).ovf = (s.ovf || b) := rfl

@[simp] theorem State.afterRle_rlePtr :
    (s.afterRle ps b).rlePtr = BitVec.ofNat 32 (s.rlePtr.toNat + recordSize ps.length) := rfl

variable {s ps} in
theorem State.toNat_afterRle_rlePtr (h : s.rlePtr.toNat + recordSize ps.length ≤ s.rleLimit.toNat) :
    (s.afterRle ps b).rlePtr.toNat = s.rlePtr.toNat + recordSize ps.length := State.toNat_setRlePtr h

end

/-- RLE completes where the limit is inside DMEM and the record lies below it. The pairs are a variable so that nothing
unfolds them for a particular register. -/
theorem execRle_of_fits {s : State} {rs : TReg} {ps : List RunPair} (hps : pairs (s.readTile rs) = ps)
    (hlimit : s.rleLimit.toNat ≤ s.params.dmemBytes) (hfits : s.rlePtr.toNat + recordSize ps.length ≤ s.rleLimit.toNat) :
    exec (.rle rs) s = .next (s.afterRle ps (pairsOvf (s.readTile rs))) := by
  subst hps
  refine checked_of_none ?_ s _
  rw [firstError_limitCheck, if_neg (Nat.not_lt.2 hlimit), firstError, recordOverflows_eq_false.2 hfits]
  rfl

/-- `sat_16` sets the flag exactly if some element of the register is outside 16 bits. -/
theorem pairsOvf_readTile_eq_true_iff (s : State) (rs : TReg) :
    pairsOvf (s.readTile rs) = true ↔ ∃ e, (s.tileElem rs e).toInt < -32768 ∨ 32767 < (s.tileElem rs e).toInt := by
  simp only [pairsOvf, satFlag, anyElem_eq_true, saturates_eq_true_iff, satMin16, satMax16, State.readTile_getElem]

/-- Settles O30: the checks pass, and the completed RLE has written the record. -/
theorem rleAppendsTheRecord : Obligations.RleAppendsTheRecord := by
  intro s rs
  generalize hps : pairs (s.readTile rs) = ps
  intro _ p hlimit hroom
  have hsize : 2 + 3 * ps.length = recordSize ps.length := Nat.add_comm _ _
  rw [hsize] at hroom ⊢
  refine ⟨_, execRle_of_fits hps hlimit hroom, s.afterRle_pc ps _, State.toNat_afterRle_rlePtr _ hroom,
    cellRead_writeBytes s.dmem p (record ps), ?_⟩
  rw [State.afterRle_ovf, Bool.or_eq_true, pairsOvf_readTile_eq_true_iff]

/-! ### RLD (R217, R218) -/

/-- The state after a completed RLD. -/
def State.afterRld (s : State) (rd : TReg) (x : Tile) (next : Nat) : State :=
  ((s.writeTile rd x).setRlePtr next).advance

/-- RLD completes where the limit is inside DMEM and a whole written record lies below it. -/
theorem execRld_of_record {s : State} {x : Tile} {next : Nat} (rd : TReg)
    (hlimit : s.rleLimit.toNat ≤ s.params.dmemBytes)
    (h : readRecord s.dmem s.rlePtr.toNat s.rleLimit.toNat = .record x next) :
    exec (.rld rd) s = .next (s.afterRld rd x next) := by
  have hpass : firstError [limitCheck s] = none := by
    rw [firstError_limitCheck, if_neg (Nat.not_lt.2 hlimit), firstError]
  refine (checked_of_none hpass s _).trans ?_
  rw [h]
  rfl

section
variable (s : State) (rd : TReg) (x : Tile) (next : Nat)

@[simp] theorem State.afterRld_pc : (s.afterRld rd x next).pc = s.pc + 1 := rfl

@[simp] theorem State.afterRld_ovf : (s.afterRld rd x next).ovf = s.ovf := rfl

@[simp] theorem State.afterRld_rlePtr : (s.afterRld rd x next).rlePtr = BitVec.ofNat 32 next := rfl

theorem State.tileElem_afterRld (e : Fin 64) : (s.afterRld rd x next).tileElem rd e = x[e] :=
  tileElem_after_writeTile s rd x e

theorem State.readTile_afterRld : (s.afterRld rd x next).readTile rd = x := readTile_after_writeTile s rd x

end

theorem decodePairs_getElem (ps : List RunPair) (e : Fin 64) :
    (decodePairs ps)[e] = BitVec.ofInt 32 ((expandPairs ps).getD e.val 0) := by simp [decodePairs]

section
variable {m : Memory} {a n : Nat}

theorem readPair_eq_some {r : Byte} {v : BitVec 16} (hrun : cellRead m a = some r)
    (hvalue : readBE m (a + 1) 2 = some v.toNat) : readPair m a = some (r.toNat, v.toInt) := by
  simp [readPair, hrun, hvalue]

/-- Pairs that stand three bytes apart are read in order. -/
theorem readPairs_eq_map {f : Nat → RunPair} (h : ∀ j < n, readPair m (a + 3 * j) = some (f j)) :
    readPairs m a n = some ((List.range n).map f) := by
  induction n generalizing a f with
  | zero => rfl
  | succ n ih =>
    have hfirst : readPair m a = some (f 0) := h 0 (Nat.succ_pos n)
    have hrest : readPairs m (a + 3) n = some ((List.range n).map (f ∘ Nat.succ)) := by
      refine ih fun j hj => ?_
      rw [show a + 3 + 3 * j = a + 3 * (j + 1) by omega]
      exact h (j + 1) (Nat.succ_lt_succ hj)
    rw [readPairs, hfirst, hrest, List.range_succ_eq_map, List.map_cons, List.map_map]

/-- A record whose count and pairs are written is read where it lies below the limit. -/
theorem readRecord_of_readPairs {limit : Nat} {ps : List RunPair} (hcount : readBE m a 2 = some n)
    (hpairs : readPairs m (a + 2) n = some ps) (hfits : a + recordSize n ≤ limit) :
    readRecord m a limit = .record (decodePairs ps) (a + recordSize n) := by
  have hroom : recordOverflows a limit 0 = false :=
    recordOverflows_eq_false.2 (by rw [recordSize] at hfits ⊢; omega)
  have hroom' : recordOverflows a limit n = false := recordOverflows_eq_false.2 hfits
  simp [readRecord, hroom, hcount, hroom', hpairs]

end

/-- Settles O33: the record reads as its pairs, and RLD writes the tile they decode to. -/
theorem rldDecodesTheRecord : Obligations.RldDecodesTheRecord := by
  intro s rd run value n p hlimit hroom hcount hbytes
  have hsize : 2 + 3 * n = recordSize n := Nat.add_comm _ _
  rw [hsize] at hroom ⊢
  have hpairs : readPairs s.dmem (p + 2) n = some ((List.range n).map fun j => ((run j).toNat, (value j).toInt)) := by
    refine readPairs_eq_map fun j hj => ?_
    obtain ⟨hrun, hvalue⟩ := hbytes j hj
    exact readPair_eq_some hrun (by rwa [show p + 2 + 3 * j + 1 = p + 3 + 3 * j by omega])
  have hread := readRecord_of_readPairs hcount hpairs hroom
  refine ⟨_, execRld_of_record rd hlimit hread, s.afterRld_pc rd _ _, s.afterRld_ovf rd _ _,
    State.toNat_setRlePtr hroom, fun e => ?_⟩
  rw [State.tileElem_afterRld, decodePairs_getElem, expandPairs, List.flatMap_map]

/-! ### The round trip (R222) -/

/-- Zeros after a list do not show where a missing value reads as 0. -/
theorem getD_append_replicate_zero (vs : List Int) (k i : Nat) : (vs ++ List.replicate k 0).getD i 0 = vs.getD i 0 := by
  by_cases h : i < vs.length
  · exact List.getD_append vs _ 0 i h
  · have hend := Nat.le_of_not_lt h
    rw [List.getD_append_right _ _ _ _ hend, List.getD_eq_default _ _ hend, List.getD_eq_getElem?_getD,
      List.getElem?_getD_replicate_default_eq]

/-- Decoding the pairs of a sequence gives its saturated values. -/
theorem decodePairs_pairs (x : Tile) : decodePairs (pairs x) = satTile 16 fun e => x[e].toInt := by
  obtain ⟨k, hk⟩ := exists_expandPairs_pairs_append x
  refine tile_ext fun e => ?_
  have hvalue : (expandPairs (pairs x)).getD e.val 0 = sat 16 x[e].toInt := by
    rw [← getD_append_replicate_zero _ k, hk]
    simp [satValues]
  rw [decodePairs_getElem, satTile_getElem, hvalue]

/-- A tile of 16-bit elements is its own saturation. -/
theorem satTile_toInt_of_not_satFlag {x : Tile} {bits : Nat} (h : satFlag bits (fun e => x[e].toInt) = false) :
    satTile bits (fun e => x[e].toInt) = x :=
  tile_ext fun e => by rw [satTile_getElem, sat_of_not_saturates (anyElem_eq_false.1 h e), BitVec.ofInt_toInt]

/-- The record of a sequence's pairs reads back, where RLE has appended it, as the saturated tile. -/
theorem readRecord_afterRle {s : State} {x : Tile} {ps : List RunPair} {b : Bool} {limit : Nat} (hps : pairs x = ps)
    (hfits : s.rlePtr.toNat + recordSize ps.length ≤ limit) :
    readRecord (s.afterRle ps b).dmem s.rlePtr.toNat limit =
      .record (satTile 16 fun e => x[e].toInt) (s.rlePtr.toNat + recordSize ps.length) := by
  have hcount : ps.length < 65536 := by
    obtain ⟨-, hmax⟩ := hps ▸ pairs_length x
    omega
  have hranges : ∀ p ∈ ps, p.1 < 256 ∧ -32768 ≤ p.2 ∧ p.2 ≤ 32767 := fun p hp =>
    (pairs_range (hps ▸ hp)).imp_left fun hrun => by omega
  rw [← decodePairs_pairs, hps, State.afterRle_dmem]
  exact readRecord_of_bytes hcount hranges (cellRead_writeBytes s.dmem s.rlePtr.toNat (record ps)) hfits

/-- With RLE_PTR set back, RLD reads the record RLE has just appended. -/
theorem execRld_afterRle {s : State} {x : Tile} {ps : List RunPair} {b : Bool} (hps : pairs x = ps) (rd : TReg)
    (hlimit : s.rleLimit.toNat ≤ s.params.dmemBytes) (hfits : s.rlePtr.toNat + recordSize ps.length ≤ s.rleLimit.toNat) :
    exec (.rld rd) { s.afterRle ps b with rlePtr := s.rlePtr } =
      .next ({ s.afterRle ps b with rlePtr := s.rlePtr }.afterRld rd (satTile 16 fun e => x[e].toInt)
        (s.rlePtr.toNat + recordSize ps.length)) := by
  have hread := readRecord_afterRle (b := b) hps hfits
  exact execRld_of_record rd hlimit hread

/-- Settles O51: RLD reads the record RLE has just appended, and saturation is the identity on 16-bit elements. -/
theorem runLengthRoundTrip : Obligations.RunLengthRoundTrip := by
  intro s rs rd hlimit hroom
  generalize hps : pairs (s.readTile rs) = ps at hroom
  have hfits : s.rlePtr.toNat + recordSize ps.length ≤ s.rleLimit.toNat := by
    rw [recordSize]; omega
  refine ⟨_, _, execRle_of_fits hps hlimit hfits, execRld_afterRle hps rd hlimit hfits,
    fun e => ?_, fun hrange => ?_, ?_⟩
  · rw [State.tileElem_afterRld, satTile_getElem, State.readTile_getElem]
  · have hexact : pairsOvf (s.readTile rs) = false := by
      rw [← Bool.not_eq_true, pairsOvf_readTile_eq_true_iff]
      rintro ⟨e, he⟩
      have helem := hrange e
      omega
    have hovf : (s.afterRle ps (pairsOvf (s.readTile rs))).ovf = s.ovf := by
      rw [State.afterRle_ovf, hexact, Bool.or_false]
    refine ⟨?_, hovf, ?_⟩
    · rw [State.readTile_afterRld]
      exact satTile_toInt_of_not_satFlag hexact
    · rw [State.afterRld_ovf, hovf]
  · rw [State.afterRld_rlePtr, State.afterRle_rlePtr]

end Sys2Proof.Machine
end

section
/-! The channel passes (46_pipeline.md): their checks in order, the plane that DECC writes, and the stream errors in the
middle of a pass. -/

namespace Sys2Proof.Machine

/-! ### The checks (R240, R242) -/

/-- DECC makes the checks of ENCC and then one of its own. -/
theorem deccChecks_eq_append (c : Channel) (tb : TableSel) (s : State) :
    deccChecks c tb s = enccChecks c tb s ++ [tcountCheck c s] := rfl

/-- A failed check stays the first one, whatever is checked after it. -/
theorem firstError_append {cs : List (Bool × ErrCode)} {e : ErrCode} (h : firstError cs = some e)
    (ds : List (Bool × ErrCode)) : firstError (cs ++ ds) = some e := by
  induction cs with
  | nil => cases h
  | cons c cs ih =>
    rw [List.cons_append, firstError]
    rw [firstError] at h
    split
    next hfailed => rwa [if_pos hfailed] at h
    next hpassed => exact ih (by rwa [if_neg hpassed] at h)

section
variable {s : State} {c : Channel} {tb : TableSel}

theorem enccChecks_eDim (h : s.width.toNat = 0 ∨ s.height.toNat = 0) :
    firstError (enccChecks c tb s) = some .eDim :=
  firstError_of_failed (before := []) nofun (dimCheck_failed.2 h)

theorem enccChecks_eAlign (hw : s.width.toNat ≠ 0) (hh : s.height.toNat ≠ 0)
    (halign : (s.planeBase c).toNat % 4 ≠ 0) : firstError (enccChecks c tb s) = some .eAlign :=
  firstError_of_failed (before := [dimCheck s]) (by simpa using dimCheck_passed_of_ne_zero hw hh)
    (alignCheck_failed.2 halign)

theorem enccChecks_eAddr (hw : s.width.toNat ≠ 0) (hh : s.height.toNat ≠ 0)
    (halign : (s.planeBase c).toNat % 4 = 0)
    (haddr : s.params.dmemBytes < (s.plane c).region.hi ∨ s.params.dmemBytes < s.rleLimit.toNat) :
    firstError (enccChecks c tb s) = some .eAddr := by
  have hfail : ∃ k ∈ [planeCheck c s, limitCheck s], k.1 = true := by
    simpa [planeCheck, limitCheck] using haddr
  exact firstError_of_group (before := [dimCheck s, alignCheck c s]) (after := [qtCheck tb s])
    (by simp [dimCheck_passed_of_ne_zero hw hh, alignCheck, halign]) (by simp [planeCheck, limitCheck]) hfail

theorem enccChecks_eQtZero (hplane : PlaneReady c s) (hlimit : s.rleLimit.toNat ≤ s.params.dmemBytes)
    (hzero : ∃ e : Fin 64, (s.qt tb)[e] = 0#16) : firstError (enccChecks c tb s) = some .eQtZero := by
  have hpass : ∀ k ∈ [dimCheck s, alignCheck c s, planeCheck c s] ++ [limitCheck s], k.1 = false :=
    List.forall_mem_append.2 ⟨hplane.checks_passed, by simpa using (limitCheck_passed s).2 hlimit⟩
  have hfail : (qtCheck tb s).1 = true := by simpa [qtCheck, qtHasZero] using hzero
  exact firstError_of_failed hpass hfail

theorem deccChecks_eTCount (hplane : PlaneReady c s) (htable : TableReady tb s)
    (hlimit : s.rleLimit.toNat ≤ s.params.dmemBytes) (hcount : (s.tcount c).toNat ≠ s.tileCount) :
    firstError (deccChecks c tb s) = some .eTCount := by
  have hpass := firstError_eq_none.1 (enccChecks_passed hplane htable hlimit)
  have hfail : (tcountCheck c s).1 = true := by simpa [tcountCheck] using hcount
  rw [deccChecks_eq_append]
  exact firstError_of_failed hpass hfail

theorem execEncc_of_failed {e : ErrCode} (h : firstError (enccChecks c tb s) = some e) :
    exec (.encc (channelField c) tb) s = .next (s.stopError e) :=
  (withChannel_channelField c s _).trans (checked_of_some h s _)

theorem execDecc_of_failed {e : ErrCode} (h : firstError (deccChecks c tb s) = some e) :
    exec (.decc (channelField c) tb) s = .next (s.stopError e) :=
  (withChannel_channelField c s _).trans (checked_of_some h s _)

end

/-- Settles O16: DECC makes all of ENCC's checks first, so one failed check stops both. -/
theorem channelPassesCheckInOrder : Obligations.ChannelPassesCheckInOrder := by
  intro s c tb W H base stops
  have hstops {e : ErrCode} (h : firstError (enccChecks c tb s) = some e) : stops e :=
    ⟨execEncc_of_failed h, execDecc_of_failed (firstError_append h [tcountCheck c s])⟩
  exact ⟨fun hdim => hstops (enccChecks_eDim hdim),
    fun hw hh halign => hstops (enccChecks_eAlign hw hh halign),
    fun hw hh halign haddr => hstops (enccChecks_eAddr hw hh halign haddr),
    fun hplane hlimit hzero => hstops (enccChecks_eQtZero hplane hlimit hzero),
    fun hplane hlimit htable hcount => execDecc_of_failed (deccChecks_eTCount hplane htable hlimit hcount)⟩

/-! ### A pass tile by tile (R240, R242) -/

/-- The first tile of a completed pass is done, and so are the others. -/
theorem passLoop_succ_done {body : Nat → PassState → PassEnd} {n i : Nat} {p p' : PassState}
    (h : passLoop body (n + 1) i p = .done p') :
    ∃ p₁, body i p = .done p₁ ∧ passLoop body n (i + 1) p₁ = .done p' := by
  rw [passLoop] at h
  split at h
  next p₁ h₁ => exact ⟨p₁, h₁, h⟩
  · cases h
  · cases h

/-- A pass goes on from its first tiles to the rest. -/
theorem passLoop_add {body : Nat → PassState → PassEnd} {k i : Nat} {p p' : PassState}
    (h : passLoop body k i p = .done p') (n : Nat) : passLoop body (k + n) i p = passLoop body n (i + k) p' := by
  induction k generalizing i p with
  | zero =>
    obtain rfl : p = p' := PassEnd.done.inj h
    rw [Nat.zero_add, Nat.add_zero]
  | succ k ih =>
    obtain ⟨p₁, hfirst, hrest⟩ := passLoop_succ_done h
    rw [Nat.add_right_comm, passLoop, hfirst, ← Nat.add_assoc, Nat.add_right_comm i]
    exact ih hrest

/-- A stream error at a tile ends the pass, once the tiles before it are done (R244). -/
theorem passLoop_of_streamError {body : Nat → PassState → PassEnd} {k n : Nat} {p p' : PassState} (hk : k < n)
    (h : passLoop body k 0 p = .done p') (hstop : body k p' = .streamError) : passLoop body n 0 p = .streamError := by
  obtain ⟨r, rfl⟩ : ∃ r, n = k + (r + 1) := ⟨n - k - 1, by omega⟩
  rw [passLoop_add h, Nat.zero_add, passLoop, hstop]

section
variable {s : State} {c : Channel} {tb : TableSel}

theorem execEncc_of_streamError (hchecks : firstError (enccChecks c tb s) = none)
    (hapart : (s.plane c).region.overlaps s.streamRegion = false)
    (hpass : passLoop (encBody (s.plane c) (s.qt tb) s.rleLimit.toNat) s.tileCount 0 s.passStart = .streamError) :
    exec (.encc (channelField c) tb) s = .next ((s.havocPass s.streamRegion).stopError .eRleFull) := by
  refine (withChannel_channelField c s _).trans ((checked_of_none hchecks s _).trans ?_)
  rw [hapart, hpass]
  rfl

theorem execDecc_of_streamError (hchecks : firstError (deccChecks c tb s) = none)
    (hapart : (s.plane c).region.overlaps s.streamRegion = false)
    (hpass : passLoop (decBody (s.plane c) (s.qt tb) s.rleLimit.toNat) s.tileCount 0 s.passStart = .streamError) :
    exec (.decc (channelField c) tb) s = .next ((s.havocPass (s.plane c).region).stopError .eRleTrunc) := by
  refine (withChannel_channelField c s _).trans ((checked_of_none hchecks s _).trans ?_)
  rw [hapart, hpass]
  rfl

/-- DECC completes where its pass does. -/
theorem execDecc_of_done {p : PassState} (hchecks : firstError (deccChecks c tb s) = none)
    (hapart : (s.plane c).region.overlaps s.streamRegion = false)
    (hpass : passLoop (decBody (s.plane c) (s.qt tb) s.rleLimit.toNat) s.tileCount 0 s.passStart = .done p) :
    exec (.decc (channelField c) tb) s = .next (s.afterPass p).advance := by
  refine (withChannel_channelField c s _).trans ((checked_of_none hchecks s _).trans ?_)
  rw [hapart, hpass]
  rfl

end

/-- What is written in one region leaves the bytes of a region apart from it alone. -/
theorem Region.Disjoint.cellRead_eq {r q : Region} (h : r.Disjoint q) {m m' : Memory}
    (hm : WritesOnly r.lo (r.hi - r.lo) m m') {a : Nat} (hlo : q.lo ≤ a) (hhi : a < q.hi) :
    cellRead m' a = cellRead m a := by
  refine hm.outside a ?_
  rcases h with hbefore | hafter <;> omega

/-! ### Reading records where bytes outside the stream have changed (R245) -/

section
variable {m m' : Memory} {limit : Nat}

theorem readPair_congr {a : Nat} (h : ∀ b, a ≤ b → b < a + 3 → cellRead m' b = cellRead m b) :
    readPair m' a = readPair m a := by
  have hvalue : readBE m' (a + 1) 2 = readBE m (a + 1) 2 :=
    readBE_congr fun b hlo hhi => h b (by omega) (by omega)
  rw [readPair, readPair, h a le_rfl (by omega), hvalue]

theorem readPairs_congr {a n : Nat} (h : ∀ b, a ≤ b → b < a + 3 * n → cellRead m' b = cellRead m b) :
    readPairs m' a n = readPairs m a n := by
  induction n generalizing a with
  | zero => rfl
  | succ n ih =>
    have hfirst : readPair m' a = readPair m a := readPair_congr fun b hlo hhi => h b hlo (by omega)
    have hrest : readPairs m' (a + 3) n = readPairs m (a + 3) n := ih fun b hlo hhi => h b (by omega) (by omega)
    rw [readPairs, readPairs, hfirst, hrest]

/-- Reading a record looks at the stream below the limit only. -/
theorem readRecord_congr {p : Nat} (h : ∀ b, p ≤ b → b < limit → cellRead m' b = cellRead m b) :
    readRecord m' p limit = readRecord m p limit := by
  cases hcount : recordOverflows p limit 0 with
  | true => simp [readRecord, hcount]
  | false =>
    have hroom := recordOverflows_eq_false.1 hcount
    rw [recordSize] at hroom
    have hread : readBE m' p 2 = readBE m p 2 := readBE_congr fun b hlo hhi => h b hlo (by omega)
    cases hn : readBE m p 2 with
    | none => simp [readRecord, hread, hn]
    | some n =>
      cases hpairs : recordOverflows p limit n with
      | true => simp [readRecord, hread, hn, hpairs]
      | false =>
        have hfits := recordOverflows_eq_false.1 hpairs
        rw [recordSize] at hfits
        have hrest : readPairs m' (p + 2) n = readPairs m (p + 2) n :=
          readPairs_congr fun b hlo hhi => h b (by omega) (by omega)
        simp [readRecord, hread, hn, hrest]

/-- A record ends after its first byte. -/
theorem lt_next_of_readRecord {p : Nat} {v : Tile} {next : Nat} (h : readRecord m p limit = .record v next) :
    p < next := by
  obtain ⟨n, _, _, _, _, hnext, _⟩ := readRecord_eq_record h
  rw [recordSize] at hnext
  omega

theorem recordsAt_congr {p q : Nat} {vs : List Tile} (h : ∀ b, p ≤ b → b < limit → cellRead m' b = cellRead m b)
    (hrecords : RecordsAt m limit p vs q) : RecordsAt m' limit p vs q := by
  induction vs generalizing p with
  | nil => exact hrecords
  | cons v vs ih =>
    obtain ⟨next, hread, hrest⟩ := hrecords
    have hlt := lt_next_of_readRecord hread
    exact ⟨next, (readRecord_congr h).trans hread, ih (fun b hlo hhi => h b (by omega) hhi) hrest⟩

theorem le_of_recordsAt {p q : Nat} {vs : List Tile} (h : RecordsAt m limit p vs q) : p ≤ q := by
  induction vs generalizing p with
  | nil => exact Nat.le_of_eq h
  | cons v vs ih =>
    obtain ⟨next, hread, hrest⟩ := h
    exact (lt_next_of_readRecord hread).le.trans (ih hrest)

/-- A record is truncated if its count, or what the count announces, does not lie below the limit (45_coefcoder.md
R218). -/
theorem readRecord_truncated {p : Nat}
    (h : limit < p + 2 ∨ ∃ n, p + 2 ≤ limit ∧ readBE m p 2 = some n ∧ limit < p + (2 + 3 * n)) :
    readRecord m p limit = .truncated := by
  rcases h with hcount | ⟨n, hroom, hn, hpairs⟩
  · have hover : recordOverflows p limit 0 = true := recordOverflows_eq_true.2 hcount
    rw [readRecord, if_pos hover]
  · have hfits : recordOverflows p limit 0 = false := recordOverflows_eq_false.2 hroom
    have hover : recordOverflows p limit n = true := recordOverflows_eq_true.2 (by rw [recordSize]; omega)
    simp [readRecord, hfits, hn, hover]

end

/-! ### The plane DECC writes (R242) -/

/-- Store the tiles one after another in a plane, from tile `i` on. -/
def storeTiles (pl : Plane) : Nat → List Tile → Memory → Memory
  | _, [], m => m
  | i, t :: ts, m => storeTiles pl (i + 1) ts (reassemble m pl i t)

section
variable {pl : Plane} {i : Nat} {e : Fin 64} {a : Nat}

/-- The words of a tile are left alone by the tiles after it. -/
theorem readWord_storeTiles_earlier {j : Nat} (hj : j < i) (ha : pl.elemAddr j e = some a) (ts : List Tile)
    (m : Memory) : readWord (storeTiles pl i ts m) a = readWord m a := by
  induction ts generalizing i m with
  | nil => rfl
  | cons t ts ih =>
    refine (ih (by omega) (reassemble m pl i t)).trans (readWord_congr fun b hlo hhi => ?_)
    refine reassemble_outside m pl i t fun f a' ha' => ?_
    rcases Plane.elemAddr_disjoint ha ha' with ⟨hji, _, _⟩ | hapart <;> omega

/-- Every in-range element of every tile stands in the plane after the store. -/
theorem readWord_storeTiles {ts : List Tile} {k : Nat} (hk : k < ts.length) (ha : pl.elemAddr (i + k) e = some a)
    (m : Memory) : readWord (storeTiles pl i ts m) a = some ts[k][e] := by
  induction ts generalizing i k m with
  | nil => cases hk
  | cons t ts ih =>
    cases k with
    | zero =>
      exact (readWord_storeTiles_earlier (Nat.lt_succ_self i) ha ts _).trans (reassemble_stored m pl i t ha)
    | succ k =>
      exact ih (Nat.lt_of_succ_lt_succ hk) (by rwa [Nat.add_right_comm, Nat.add_assoc]) _

end

section
variable {pl : Plane} {q : QTable} {limit : Nat}

/-- The pass state after the given sequences have been decoded into the plane from tile `i` on, `p` being the one before
them and `ptr` the end of their records. -/
def PassState.decoded (p : PassState) (pl : Plane) (q : QTable) (i : Nat) (vs : List Tile) (ptr : Nat) : PassState :=
  { mem := storeTiles pl i (vs.map (decodeTile q)) p.mem, ptr := ptr, ovf := p.ovf || vs.any (decodeTileOvf q) }

/-- DECC's pass over tiles whose records stand in a stream apart from the plane (R242, R245). -/
theorem passLoop_decBody {i ptr : Nat} {p : PassState} {vs : List Tile} (hapart : pl.region.Disjoint ⟨p.ptr, limit⟩)
    (hrecords : RecordsAt p.mem limit p.ptr vs ptr) :
    passLoop (decBody pl q limit) vs.length i p = .done (p.decoded pl q i vs ptr) := by
  induction vs generalizing i p with
  | nil =>
    obtain rfl : p.ptr = ptr := hrecords
    simp [passLoop, PassState.decoded, storeTiles]
  | cons v vs ih =>
    obtain ⟨next, hread, hrest⟩ := hrecords
    have hlt := lt_next_of_readRecord hread
    have hframe := reassemble_writesOnly p.mem pl i (decodeTile q v)
    have hapart' : pl.region.Disjoint ⟨next, limit⟩ := hapart.imp_left fun hbefore => hbefore.trans hlt.le
    have hrest' : RecordsAt (reassemble p.mem pl i (decodeTile q v)) limit next vs ptr :=
      recordsAt_congr (fun b hlo hhi => hapart'.cellRead_eq hframe hlo hhi) hrest
    have htile : decBody pl q limit i p = .done (p.decoded pl q i [v] next) := by
      simp [decBody, hread, PassState.decoded, storeTiles]
    rw [List.length_cons, passLoop, htile]
    refine (ih (p := p.decoded pl q i [v] next) hapart' hrest').trans ?_
    simp [PassState.decoded, storeTiles, Bool.or_assoc]

end

/-- Settles O35: the pass leaves the decoded tiles in the plane; RLE_PTR holds the end of the records without loss
because they lie below a 32-bit limit. -/
theorem deccWritesThePlane : Obligations.DeccWritesThePlane := by
  intro s c tb vs ptr hplane htable hlimit hapart nt hcount hlength hrecords
  have hpass := passLoop_decBody (p := s.passStart) (q := s.qt tb) (i := 0) hapart hrecords
  rw [hlength] at hpass
  obtain ⟨_, hend, _⟩ := passLoop_dec_writesOnly hpass
  refine ⟨_, execDecc_of_done (deccChecks_passed hplane htable hlimit hcount) hapart.overlaps_eq_false hpass, rfl, ?_,
    fun i hi e a ha => ?_, rfl⟩
  · have hstart : s.passStart.ptr = s.rlePtr.toNat := rfl
    have hptr : (s.passStart.decoded (s.plane c) (s.qt tb) 0 vs ptr).ptr = ptr := rfl
    have := s.rlePtr.isLt
    have := s.rleLimit.isLt
    simp only [State.advance_rlePtr, State.afterPass_rlePtr, hptr]
    rw [BitVec.toNat_ofNat, Nat.mod_eq_of_lt (by omega)]
  · have hi' : i < (vs.map (decodeTile (s.qt tb))).length := by rwa [List.length_map]
    refine (readWord_storeTiles (i := 0) hi' (by rwa [Nat.zero_add]) s.dmem).trans ?_
    rw [List.getElem_map]
    rfl

/-! ### Stream errors in the middle of a pass (R244) -/

section
variable {pl : Plane} {q : QTable} {limit : Nat} {p : PassState}

/-- ENCC stops at a tile whose record does not fit. -/
theorem encBody_of_overflow {i : Nat} {x : Tile} (hx : partition p.mem pl i = some x)
    (hover : limit < p.ptr + (streamOf q [x]).length) : encBody pl q limit i p = .streamError := by
  rw [streamOf_singleton, record_length] at hover
  have hover' := recordOverflows_eq_true.2 hover
  simp [encBody, hx, hover']

/-- DECC stops at a record that does not lie below the limit. -/
theorem decBody_of_truncated {i : Nat} (h : readRecord p.mem p.ptr limit = .truncated) :
    decBody pl q limit i p = .streamError := by
  rw [decBody, h]

/-- An ENCC pass whose tiles so far fit, or that has none so far, stops at the first tile whose record does not. -/
theorem passLoop_encBody_streamError {xs : List Tile} {x : Tile} {n : Nat}
    (hapart : pl.region.Disjoint ⟨p.ptr, limit⟩) (hn : xs.length < n)
    (hxs : ∀ i (h : i < xs.length), partition p.mem pl i = some xs[i]) (hx : partition p.mem pl xs.length = some x)
    (hfits : xs = [] ∨ p.ptr + (streamOf q xs).length ≤ limit)
    (hover : limit < p.ptr + (streamOf q xs).length + (streamOf q [x]).length) :
    passLoop (encBody pl q limit) n 0 p = .streamError := by
  rcases hfits with rfl | hfits
  · have hstart : passLoop (encBody pl q limit) 0 0 p = .done p := rfl
    exact passLoop_of_streamError hn hstart (encBody_of_overflow hx hover)
  · have hx' : partition (p.encoded q xs).mem pl xs.length = some x := (partition_encoded hapart hfits).trans hx
    exact passLoop_of_streamError hn (passLoop_encBody hapart hxs hfits) (encBody_of_overflow hx' hover)

/-- A DECC pass stops at the first record that does not lie below the limit. -/
theorem passLoop_decBody_streamError {vs : List Tile} {n ptr : Nat} (hapart : pl.region.Disjoint ⟨p.ptr, limit⟩)
    (hn : vs.length < n) (hrecords : RecordsAt p.mem limit p.ptr vs ptr)
    (htrunc : readRecord p.mem ptr limit = .truncated) : passLoop (decBody pl q limit) n 0 p = .streamError := by
  have hpass := passLoop_decBody (q := q) (i := 0) hapart hrecords
  obtain ⟨_, _, hframe⟩ := passLoop_dec_writesOnly hpass
  have hle := le_of_recordsAt hrecords
  have hread : readRecord (p.decoded pl q 0 vs ptr).mem ptr limit = readRecord p.mem ptr limit :=
    readRecord_congr fun b hlo hhi => hapart.cellRead_eq hframe (hle.trans hlo) hhi
  exact passLoop_of_streamError hn hpass (decBody_of_truncated (hread.trans htrunc))

end

/-- Settles O19: the pass stops at the tile the hypotheses name, and what the stop leaves is the state before the
command with the named region, RLE_PTR and OVF made free and `stop_error`'s writes. -/
theorem midCommandStreamErrors : Obligations.MidCommandStreamErrors := by
  intro s c tb hplane htable hlimit hapart nt limit tileRecord stopped
  have hstopped (r : Region) (e : ErrCode) : stopped ((s.havocPass r).stopError e) e r.lo r.hi := by
    obtain ⟨hconf, hdmem⟩ := havocPass_stopError_frame s r e
    exact ⟨rfl, rfl, rfl, rfl, rfl, rfl, rfl, rfl, rfl, rfl, fun d => by simp, hconf, hdmem⟩
  have hdisjoint := hapart.overlaps_eq_false
  constructor
  · intro xs x hn hxs hx q hfits hover
    rw [← List.flatMap_singleton tileRecord x] at hover
    exact ⟨_, execEncc_of_streamError (enccChecks_passed hplane htable hlimit) hdisjoint
      (passLoop_encBody_streamError hapart hn hxs hx hfits hover), hstopped s.streamRegion .eRleFull⟩
  · intro vs q hn hcount hrecords htrunc
    exact ⟨_, execDecc_of_streamError (deccChecks_passed hplane htable hlimit hcount) hdisjoint
      (passLoop_decBody_streamError hapart hn hrecords (readRecord_truncated htrunc)),
      hstopped (s.plane c).region .eRleTrunc⟩

end Sys2Proof.Machine
end

section
/-! A completed channel pass and the repeated pseudo-command of one tile do the same (46_pipeline.md R241, R243). -/

namespace Sys2Proof.Machine

/-! ### Running commands one after another (30_encoding.md R115) -/

section
variable {s t : State} {cs : List Instr}

theorem execSequence_cons {i : Instr} (hbusy : s.busy = true) (h : exec i s = .next t) :
    execSequence (i :: cs) s = execSequence cs t := by
  rw [execSequence, if_pos hbusy, h]

/-- A sequence that has a next state goes on with the commands after it. -/
theorem execSequence_append (h : execSequence cs s = .next t) (ds : List Instr) :
    execSequence (cs ++ ds) s = execSequence ds t := by
  induction cs generalizing s with
  | nil =>
    obtain rfl : s = t := Host.Outcome.next.inj h
    rfl
  | cons i cs ih =>
    rw [execSequence] at h
    split at h
    next hbusy =>
      split at h
      next u hi => exact (execSequence_cons hbusy hi).trans (ih h)
      · cases h
      · cases h
    next hidle =>
      obtain rfl : s = t := Host.Outcome.next.inj h
      cases ds with
      | nil => exact if_neg hidle
      | cons d ds => exact (if_neg hidle).trans (if_neg hidle).symm

/-- Commands that do, for each tile, what a pass does in its body, do what the pass does when they are repeated for
every tile. -/
theorem execSequence_of_passLoop {body : Nat → PassState → PassEnd} {R : Nat → PassState → State → Prop} {n i : Nat}
    {p p' : PassState}
    (hbody : ∀ j p p' s, j < i + n → R j p s → body j p = .done p' →
      ∃ t, execSequence cs s = .next t ∧ R (j + 1) p' t)
    (hpass : passLoop body n i p = .done p') (h : R i p s) :
    ∃ t, execSequence (List.replicate n cs).flatten s = .next t ∧ R (i + n) p' t := by
  induction n generalizing i p s with
  | zero =>
    obtain rfl : p = p' := PassEnd.done.inj hpass
    exact ⟨s, rfl, h⟩
  | succ n ih =>
    obtain ⟨p₁, hfirst, hrest⟩ := passLoop_succ_done hpass
    obtain ⟨u, hu, hR⟩ := hbody i p p₁ s (by omega) h hfirst
    obtain ⟨t, ht, hR'⟩ := ih (i := i + 1) (fun j p p' s hj => hbody j p p' s (by omega)) hrest hR
    rw [List.replicate_succ, List.flatten_cons, execSequence_append hu]
    exact ⟨t, ht, by rwa [show i + (n + 1) = i + 1 + n by omega]⟩

end

/-! ### What a completed pass says of the state it started from -/

section
variable {s u : State} {c : Channel} {tb : TableSel}

theorem Raised.not_busy (h : Raised s u) : u.busy = false := by
  obtain ⟨e, _, rfl⟩ := h
  rfl

/-- A run that goes on after a command's checks has passed them. -/
theorem firstError_of_busy {cs : List (Bool × ErrCode)} {k : Result} (h : checked cs s k = .next u)
    (hbusy : u.busy = true) : firstError cs = none := by
  rcases checked_next h with ⟨e, _, rfl⟩ | ⟨hpass, _⟩
  · cases hbusy
  · exact firstError_eq_none.2 hpass

/-- Where ENCC's checks pass, its operands are ready. -/
theorem ready_of_enccChecks (h : firstError (enccChecks c tb s) = none) :
    PlaneReady c s ∧ TableReady tb s ∧ s.rleLimit.toNat ≤ s.params.dmemBytes := by
  have hpass := firstError_eq_none.1 h
  simp only [enccChecks, List.forall_mem_cons] at hpass
  obtain ⟨hdim, halign, hplane, hlimit, hqt, -⟩ := hpass
  rw [← Bool.not_eq_true, dimCheck_failed, not_or] at hdim
  obtain ⟨hw, hh⟩ := hdim
  have haligned : (s.planeBase c).toNat % 4 = 0 := by
    rwa [← Bool.not_eq_true, alignCheck_failed, not_not] at halign
  have hfits := (planeCheck_passed s c).1 hplane
  have hnonzero : ∀ e : Fin 64, ((s.qt tb)[e] == 0#16) = false := anyElem_eq_false.1 hqt
  exact ⟨.of_ne_zero hw hh haligned hfits, fun e => beq_eq_false_iff_ne.1 (hnonzero e),
    (limitCheck_passed s).1 hlimit⟩

/-- Where DECC's checks pass, its operands are ready and TCOUNT holds the tile count. -/
theorem ready_of_deccChecks (h : firstError (deccChecks c tb s) = none) :
    (PlaneReady c s ∧ TableReady tb s ∧ s.rleLimit.toNat ≤ s.params.dmemBytes) ∧
      (s.tcount c).toNat = s.tileCount := by
  rw [firstError_eq_none, deccChecks_eq_append, List.forall_mem_append, ← firstError_eq_none] at h
  obtain ⟨hshared, hcount⟩ := h
  exact ⟨ready_of_enccChecks hshared, by simpa [tcountCheck] using hcount⟩

/-- Where the run goes on after ENCC, its checks and its pass have completed. -/
theorem execEncc_busy (h : exec (.encc (channelField c) tb) s = .next u) (hbusy : u.busy = true) :
    firstError (enccChecks c tb s) = none ∧
      ∃ p, passLoop (encBody (s.plane c) (s.qt tb) s.rleLimit.toNat) s.tileCount 0 s.passStart = .done p ∧
        u = ((s.afterPass p).setTcount c (BitVec.ofNat 32 s.tileCount)).advance := by
  refine ⟨firstError_of_busy ((withChannel_channelField c s _).symm.trans h) hbusy, ?_⟩
  rcases execEncc_next h with hraised | ⟨d, hd, _, rfl | hdone⟩
  · rw [hraised.not_busy] at hbusy; cases hbusy
  · cases hbusy
  · obtain rfl : c = d := by simpa using hd
    exact hdone

/-- Where the run goes on after DECC, its checks and its pass have completed. -/
theorem execDecc_busy (h : exec (.decc (channelField c) tb) s = .next u) (hbusy : u.busy = true) :
    firstError (deccChecks c tb s) = none ∧
      ∃ p, passLoop (decBody (s.plane c) (s.qt tb) s.rleLimit.toNat) s.tileCount 0 s.passStart = .done p ∧
        u = (s.afterPass p).advance := by
  refine ⟨firstError_of_busy ((withChannel_channelField c s _).symm.trans h) hbusy, ?_⟩
  rcases execDecc_next h with hraised | ⟨d, hd, _, rfl | hdone⟩
  · rw [hraised.not_busy] at hbusy; cases hbusy
  · cases hbusy
  · obtain rfl : c = d := by simpa using hd
    exact hdone

end

/-! ### A pass followed on the machine -/

/-- `v` has come from `s` by commands on the one tile register `tw`, and DMEM, RLE_PTR and OVF are those of the pass
state `p`; TIDX names tile `i`. -/
structure Follows (s : State) (tw : TReg) (i : Nat) (p : PassState) (v : State) : Prop where
  control : v.control = s.control
  dmem : v.dmem = p.mem
  ptr : v.rlePtr.toNat = p.ptr
  ovf : v.ovf = p.ovf
  tidx : v.tidx.toNat = i
  tiles : ∀ r : TReg, r ≠ tw → v.tiles[r] = s.tiles[r]
  tcount : ∀ d, v.tcount d = s.tcount d

/-- The repetitions start where the pass does, but for TIDX. -/
theorem follows_start (s : State) (tw : TReg) : Follows s tw 0 s.passStart { s with tidx := 0 } where
  control := rfl
  dmem := rfl
  ptr := rfl
  ovf := rfl
  tidx := rfl
  tiles _ _ := rfl
  tcount d := by cases d <;> rfl

namespace Follows

variable {s v : State} {tw : TReg} {i : Nat} {p : PassState} (h : Follows s tw i p v)
include h

theorem config : SameConfiguration s v := .of_control h.control

theorem busy (hbusy : s.busy = true) : v.busy = true := (SameRun.of_control h.control).busy.trans hbusy

theorem plane (c : Channel) : v.plane c = s.plane c := by
  simp only [State.plane, h.config.planeBase, h.config.width, h.config.height]

theorem tileCount : v.tileCount = s.tileCount := by
  simp only [State.tileCount, h.config.width, h.config.height]

theorem planeReady {c : Channel} (hs : PlaneReady c s) : PlaneReady c v where
  width := by rw [h.config.width]; exact hs.width
  height := by rw [h.config.height]; exact hs.height
  aligned := by rw [h.config.planeBase]; exact hs.aligned
  fits := by
    rw [h.config.planeBase, h.config.width, h.config.height, h.config.params]
    exact hs.fits

theorem tableReady {tb : TableSel} (hs : TableReady tb s) : TableReady tb v := by
  rwa [TableReady, h.config.qt]

theorem limit_le (hs : s.rleLimit.toNat ≤ s.params.dmemBytes) : v.rleLimit.toNat ≤ v.params.dmemBytes := by
  rwa [h.config.rleLimit, h.config.params]

/-- Any command that writes the one tile register and perhaps OVF. -/
theorem writeTile (x : Tile) (b : Bool) :
    Follows s tw i { p with ovf := p.ovf || b } ((v.writeTile tw x).orOvf b).advance where
  control := by simpa using h.control
  dmem := by simpa using h.dmem
  ptr := by simpa using h.ptr
  ovf := by simp [h.ovf]
  tidx := by simpa using h.tidx
  tiles r hr := (v.writeTile_tiles_of_ne x hr).trans (h.tiles r hr)
  tcount d := by simpa using h.tcount d

/-- The same for a command that leaves OVF alone. -/
theorem writeTile_keeping_ovf (x : Tile) : Follows s tw i p (v.writeTile tw x).advance := by
  have hx := h.writeTile x false
  rwa [State.orOvf_false, Bool.or_false] at hx

/-- LDT and STT with INC move on to the next tile. -/
theorem bumpTidx (hi : i + 1 < 2 ^ 32) : Follows s tw (i + 1) p (v.bumpTidx true) := by
  refine { h with tidx := ?_, tcount := fun d => ?_ }
  · simpa [State.bumpTidx, h.tidx] using hi
  · simpa using h.tcount d

/-- RLE moves on past its record. -/
theorem afterRle {ps : List RunPair} (hfits : p.ptr + recordSize ps.length ≤ s.rleLimit.toNat) (b : Bool) :
    Follows s tw i { mem := writeBytes p.mem p.ptr (record ps), ptr := p.ptr + recordSize ps.length, ovf := p.ovf || b }
      (v.afterRle ps b) where
  control := by simpa [State.afterRle] using h.control
  dmem := by rw [State.afterRle_dmem, h.dmem, h.ptr]
  ptr := by
    rw [← h.ptr, ← h.config.rleLimit] at hfits
    rw [State.toNat_afterRle_rlePtr b hfits, h.ptr]
  ovf := by rw [State.afterRle_ovf, h.ovf]
  tidx := by simpa [State.afterRle] using h.tidx
  tiles := by simpa [State.afterRle] using h.tiles
  tcount d := by simpa [State.afterRle] using h.tcount d

/-- RLD moves on past the record it reads. -/
theorem afterRld (x : Tile) {next : Nat} (hnext : next ≤ s.rleLimit.toNat) :
    Follows s tw i { p with ptr := next } (v.afterRld tw x next) := by
  have hx := h.writeTile_keeping_ovf x
  rw [← hx.config.rleLimit] at hnext
  exact { hx with ptr := State.toNat_setRlePtr hnext, tcount := fun d => by simpa [State.afterRld] using h.tcount d }

/-- STT stores in the plane. -/
theorem setDmem (m : Memory) : Follows s tw i { p with mem := m } (v.setDmem m) :=
  { h with dmem := rfl, tcount := fun d => by simpa using h.tcount d }

theorem advance : Follows s tw i p v.advance := { h with tcount := fun d => by simpa using h.tcount d }

/-! Each command of a tile, from the register's tile before it to the one after it. -/

theorem exec_fdct {x : Tile} (hx : v.readTile tw = x) :
    ∃ w, exec (.fdct tw tw) v = .next w ∧ Follows s tw i { p with ovf := p.ovf || fdctOvf x } w ∧
      w.readTile tw = fdct x := by
  subst hx
  exact ⟨_, rfl, h.writeTile _ _, v.readTile_afterSatTile tw 32 _⟩

theorem exec_idct {x : Tile} (hx : v.readTile tw = x) :
    ∃ w, exec (.idct tw tw) v = .next w ∧ Follows s tw i { p with ovf := p.ovf || idctOvf x } w ∧
      w.readTile tw = idct x := by
  subst hx
  exact ⟨_, rfl, h.writeTile _ _, v.readTile_afterSatTile tw 32 _⟩

theorem exec_qnt {tb : TableSel} (htable : TableReady tb s) {x : Tile} (hx : v.readTile tw = x) :
    ∃ w, exec (.qnt tw tw tb) v = .next w ∧ Follows s tw i { p with ovf := p.ovf || qntOvf x (s.qt tb) } w ∧
      w.readTile tw = qnt x (s.qt tb) := by
  rw [← hx, ← h.config.qt]
  exact ⟨_, (h.tableReady htable).exec_qnt tw tw, h.writeTile _ _, v.readTile_afterSatTile tw 16 _⟩

theorem exec_dqnt {tb : TableSel} (htable : TableReady tb s) {x : Tile} (hx : v.readTile tw = x) :
    ∃ w, exec (.dqnt tw tw tb) v = .next w ∧ Follows s tw i { p with ovf := p.ovf || dqntOvf x (s.qt tb) } w ∧
      w.readTile tw = dqnt x (s.qt tb) := by
  rw [← hx, ← h.config.qt]
  exact ⟨_, (h.tableReady htable).exec_dqnt tw tw, h.writeTile _ _, v.readTile_afterSatTile tw 32 _⟩

theorem exec_zzs {x : Tile} (hx : v.readTile tw = x) :
    ∃ w, exec (.zzs tw tw) v = .next w ∧ Follows s tw i p w ∧ w.readTile tw = scan x := by
  subst hx
  exact ⟨_, rfl, h.writeTile_keeping_ovf _, readTile_after_writeTile v tw _⟩

theorem exec_zzu {x : Tile} (hx : v.readTile tw = x) :
    ∃ w, exec (.zzu tw tw) v = .next w ∧ Follows s tw i p w ∧ w.readTile tw = unscan x := by
  subst hx
  exact ⟨_, rfl, h.writeTile_keeping_ovf _, readTile_after_writeTile v tw _⟩

theorem exec_rle {x : Tile} (hx : v.readTile tw = x) {ps : List RunPair} (hps : pairs x = ps)
    (hlimit : s.rleLimit.toNat ≤ s.params.dmemBytes) (hfits : p.ptr + recordSize ps.length ≤ s.rleLimit.toNat) :
    ∃ w, exec (.rle tw) v = .next w ∧
      Follows s tw i { mem := writeBytes p.mem p.ptr (record ps), ptr := p.ptr + recordSize ps.length,
                       ovf := p.ovf || pairsOvf x } w := by
  have hfits' : v.rlePtr.toNat + recordSize ps.length ≤ v.rleLimit.toNat := by rwa [h.ptr, h.config.rleLimit]
  rw [← hx] at hps ⊢
  exact ⟨_, execRle_of_fits hps (h.limit_le hlimit) hfits', h.afterRle hfits _⟩

theorem exec_rld {x : Tile} {next : Nat} (hlimit : s.rleLimit.toNat ≤ s.params.dmemBytes)
    (hread : readRecord p.mem p.ptr s.rleLimit.toNat = .record x next) (hnext : next ≤ s.rleLimit.toNat) :
    ∃ w, exec (.rld tw) v = .next w ∧ Follows s tw i { p with ptr := next } w ∧ w.readTile tw = x := by
  have hread' : readRecord v.dmem v.rlePtr.toNat v.rleLimit.toNat = .record x next := by
    rwa [h.dmem, h.ptr, h.config.rleLimit]
  exact ⟨_, execRld_of_record tw (h.limit_le hlimit) hread', h.afterRld x hnext, v.readTile_afterRld tw x next⟩

section
variable {c : Channel} (hplane : PlaneReady c s) (hi : i < s.tileCount) (hcount : s.tileCount < 2 ^ 32)
include hplane hi

theorem tileChecks_passed : firstError (tileChecks c v) = none :=
  Machine.tileChecks_passed (h.planeReady hplane) (by rwa [h.tidx, h.tileCount])

include hcount

theorem exec_ldt {x : Tile} (hx : partition p.mem (s.plane c) i = some x) :
    ∃ w, exec (.ldt tw (channelField c) true) v = .next w ∧ Follows s tw (i + 1) p w ∧ w.readTile tw = x := by
  have hx' : partition v.dmem (v.plane c) v.tidx.toNat = some x := by rwa [h.dmem, h.plane, h.tidx]
  exact ⟨_, execLdt_of_partition (h.tileChecks_passed hplane hi) hx' tw true,
    (h.writeTile_keeping_ovf x).bumpTidx (by omega), readTile_after_writeTile v tw x⟩

theorem exec_stt {x : Tile} (hx : v.readTile tw = x) :
    ∃ w, exec (.stt tw (channelField c) true) v = .next w ∧
      Follows s tw (i + 1) { p with mem := reassemble p.mem (s.plane c) i x } w := by
  have hstored : reassemble v.dmem (v.plane c) v.tidx.toNat (v.readTile tw) = reassemble p.mem (s.plane c) i x := by
    rw [h.dmem, h.plane, h.tidx, hx]
  rw [← hstored]
  exact ⟨_, execStt_of_passed (h.tileChecks_passed hplane hi) tw true,
    ((h.setDmem _).bumpTidx (by omega)).advance⟩

end

end Follows

/-! ### One tile -/

section
variable {s v : State} {c : Channel} {tb : TableSel} {tw : TReg} {i : Nat} {p p' : PassState}
  (hbusy : s.busy = true) (hplane : PlaneReady c s) (htable : TableReady tb s)
  (hlimit : s.rleLimit.toNat ≤ s.params.dmemBytes) (hcount : s.tileCount < 2 ^ 32) (hi : i < s.tileCount)
  (h : Follows s tw i p v)
include hbusy hplane htable hlimit hcount hi h

/-- ENCT does what ENCC does for a tile (R241). -/
theorem Follows.enct (hbody : encBody (s.plane c) (s.qt tb) s.rleLimit.toNat i p = .done p') :
    ∃ w, execSequence (Pseudo.enct tw c tb).expand v = .next w ∧ Follows s tw (i + 1) p' w := by
  obtain ⟨x, hx, hfits, hmem, hptr, hovf⟩ := encBody_done hbody
  generalize hps : pairs (encodeTile (s.qt tb) x) = ps at hfits hmem hptr
  obtain ⟨v₁, hldt, h₁, hx₁⟩ := h.exec_ldt hplane hi hcount hx
  obtain ⟨v₂, hfdct, h₂, hx₂⟩ := h₁.exec_fdct hx₁
  obtain ⟨v₃, hqnt, h₃, hx₃⟩ := h₂.exec_qnt htable hx₂
  obtain ⟨v₄, hzzs, h₄, hx₄⟩ := h₃.exec_zzs hx₃
  obtain ⟨v₅, hrle, h₅⟩ := h₄.exec_rle hx₄ hps hlimit hfits
  refine ⟨v₅, ?_, { h₅ with dmem := h₅.dmem.trans hmem.symm, ptr := h₅.ptr.trans hptr.symm, ovf := ?_ }⟩
  · rw [Pseudo.expand, execSequence_cons (h.busy hbusy) hldt, execSequence_cons (h₁.busy hbusy) hfdct,
      execSequence_cons (h₂.busy hbusy) hqnt, execSequence_cons (h₃.busy hbusy) hzzs,
      execSequence_cons (h₄.busy hbusy) hrle, execSequence]
  · rw [h₅.ovf, hovf, encodeTileOvf, ← Bool.or_assoc, ← Bool.or_assoc]
    rfl

/-- DECT does what DECC does for a tile (R243). -/
theorem Follows.dect (hbody : decBody (s.plane c) (s.qt tb) s.rleLimit.toNat i p = .done p') :
    ∃ w, execSequence (Pseudo.dect tw c tb).expand v = .next w ∧ Follows s tw (i + 1) p' w := by
  obtain ⟨x, next, hread, hnext, hmem, hptr, hovf⟩ := decBody_done hbody
  obtain ⟨v₁, hrld, h₁, hx₁⟩ := h.exec_rld hlimit hread hnext
  obtain ⟨v₂, hzzu, h₂, hx₂⟩ := h₁.exec_zzu hx₁
  obtain ⟨v₃, hdqnt, h₃, hx₃⟩ := h₂.exec_dqnt htable hx₂
  obtain ⟨v₄, hidct, h₄, hx₄⟩ := h₃.exec_idct hx₃
  obtain ⟨v₅, hstt, h₅⟩ := h₄.exec_stt hplane hi hcount hx₄
  refine ⟨v₅, ?_, { h₅ with dmem := h₅.dmem.trans hmem.symm, ptr := h₅.ptr.trans hptr.symm, ovf := ?_ }⟩
  · rw [Pseudo.expand, execSequence_cons (h.busy hbusy) hrld, execSequence_cons (h₁.busy hbusy) hzzu,
      execSequence_cons (h₂.busy hbusy) hdqnt, execSequence_cons (h₃.busy hbusy) hidct,
      execSequence_cons (h₄.busy hbusy) hstt, execSequence]
  · rw [h₅.ovf, hovf, decodeTileOvf, ← Bool.or_assoc]

end

/-! ### The whole pass -/

/-- No record is empty, so a completed ENCC pass moves its pointer by at least a byte a tile. -/
theorem passLoop_enc_tiles_le {pl : Plane} {q : QTable} {limit n i : Nat} {p p' : PassState}
    (h : passLoop (encBody pl q limit) n i p = .done p') : p.ptr + n ≤ p'.ptr := by
  induction n generalizing i p with
  | zero =>
    obtain rfl : p = p' := PassEnd.done.inj h
    exact le_rfl
  | succ n ih =>
    obtain ⟨p₁, hfirst, hrest⟩ := passLoop_succ_done h
    obtain ⟨_, _, _, _, hptr, _⟩ := encBody_done hfirst
    have hadvance := ih hrest
    rw [recordSize] at hptr
    omega

/-- The records of a completed ENCC lie below a 32-bit limit, so its tile count fits TCOUNT and TIDX. -/
theorem tileCount_lt_of_enc {s : State} {pl : Plane} {q : QTable} {p : PassState}
    (h : passLoop (encBody pl q s.rleLimit.toNat) s.tileCount 0 s.passStart = .done p) : s.tileCount < 2 ^ 32 := by
  have htiles := passLoop_enc_tiles_le h
  obtain ⟨_, hend, _⟩ := passLoop_enc_writesOnly h
  have hstart : s.passStart.ptr = s.rlePtr.toNat := rfl
  have := s.rlePtr.isLt
  have := s.rleLimit.isLt
  omega

/-- Where the repetitions end with the pass, they leave what the pass leaves. -/
theorem Follows.rlePtr_eq {s v : State} {tw : TReg} {i : Nat} {p : PassState} (h : Follows s tw i p v) :
    v.rlePtr = (s.afterPass p).rlePtr := by
  rw [State.afterPass_rlePtr, ← h.ptr, BitVec.ofNat_toNat, BitVec.setWidth_eq]

/-- Settles O52: ENCT follows ENCC's pass tile by tile. -/
theorem enccEqualsRepeatedEnct : Obligations.EnccEqualsRepeatedEnct := by
  intro s u c tb tw hbusy hexec hgoes
  obtain ⟨hchecks, p, hpass, rfl⟩ := execEncc_busy hexec hgoes
  obtain ⟨hplane, htable, hlimit⟩ := ready_of_enccChecks hchecks
  have hcount := tileCount_lt_of_enc hpass
  obtain ⟨v, hrun, hv⟩ := execSequence_of_passLoop (R := Follows s tw)
    (fun i p p' v hi h hbody => h.enct hbusy hplane htable hlimit hcount (by omega) hbody) hpass (follows_start s tw)
  rw [Nat.zero_add] at hv
  have hcontrol : v.control = ((s.afterPass p).setTcount c (BitVec.ofNat 32 s.tileCount)).advance.control := by
    simpa using hv.control
  refine ⟨v, hrun, by simpa using hv.dmem, by simpa using hv.rlePtr_eq, by simpa using hv.ovf, .of_control hcontrol,
    .of_control hcontrol, hv.tidx, by simp, by simp, fun r hr => by simpa using hv.tiles r hr, hv.tcount, ?_,
    fun d hd => by simp [hd]⟩
  simp only [State.advance_tcount, State.setTcount_tcount, if_true]
  exact (BitVec.toNat_ofNat _ _).trans (Nat.mod_eq_of_lt hcount)

/-- Settles O53: DECT follows DECC's pass tile by tile; TCOUNT, which DECC has checked, holds the tile count. -/
theorem deccEqualsRepeatedDect : Obligations.DeccEqualsRepeatedDect := by
  intro s u c tb tw hbusy hexec hgoes
  obtain ⟨hchecks, p, hpass, rfl⟩ := execDecc_busy hexec hgoes
  obtain ⟨⟨hplane, htable, hlimit⟩, hcount⟩ := ready_of_deccChecks hchecks
  have hlt : s.tileCount < 2 ^ 32 := by
    rw [← hcount]
    exact (s.tcount c).isLt
  obtain ⟨v, hrun, hv⟩ := execSequence_of_passLoop (R := Follows s tw)
    (fun i p p' v hi h hbody => h.dect hbusy hplane htable hlimit hlt (by omega) hbody)
    hpass (follows_start s tw)
  rw [Nat.zero_add] at hv
  have hcontrol : v.control = (s.afterPass p).advance.control := by simpa using hv.control
  exact ⟨v, hrun, by simpa using hv.dmem, by simpa using hv.rlePtr_eq, by simpa using hv.ovf, .of_control hcontrol,
    .of_control hcontrol, hv.tidx, by simp, by simp, fun r hr => by simpa using hv.tiles r hr, hv.tcount,
    fun d => by simp⟩

end Sys2Proof.Machine
end

section
/-! The state after reset (70_reset_and_hazards.md R290, 10_state.md R60), the reset pin (R291, R292), and what a
command stopped by an error has changed (60_exceptions.md R265-R267). -/

namespace Sys2Proof.Machine

/-! ### The state after reset -/

/-- No element of any tile register has been written after reset (R290). -/
theorem atReset_unwritten (p : Params) (i : TReg) (e : Fin 64) : (State.atReset p).tiles[i].written[e] = false := by
  simp [State.atReset, TileReg.unwritten]

/-- The CSRs that R290 resets to 0, and those that always read 0 or are computed from a zero WIDTH or HEIGHT. -/
theorem atReset_csrRead_zero (p : Params) :
    ∀ c ∈ [Csr.ctrl, .status, .errCode, .errPc, .pc, .ie, .is, .width, .height, .pixBase, .planeBase .y,
      .planeBase .cb, .planeBase .cr, .rlePtr, .rleLimit, .tcount .y, .tcount .cb, .tcount .cr, .tidx, .tilesX,
      .tilesY, .reserved], (State.atReset p).csrRead c = 0#32 := by
  intro c hc
  fin_cases hc <;>
    simp [State.csrRead, State.atReset, State.statusWord, State.ieWord, State.isWord, ErrCode.code, State.planeBase,
      State.tcount, ceil8]

/-- Settles O1: the registers and memories are read off the reset state, and the tables off their definitions. -/
theorem resetLeavesTheSpecifiedState : Obligations.ResetLeavesTheSpecifiedState := by
  refine ⟨rfl, fun p => ?_⟩
  have hluma : (State.atReset p).qt .luma = qtLumaReset := rfl
  have hchroma : (State.atReset p).qt .chroma = qtChromaReset := rfl
  refine ⟨⟨rfl, rfl, rfl, rfl, rfl, rfl⟩, atReset_csrRead_zero p, rfl, rfl, rfl, rfl, rfl, ?_, ?_, atReset_unwritten p,
    cellRead_nil, cellRead_nil⟩
  · rw [hluma]; decide
  · rw [hchroma]; decide

/-! ### The reset pin -/

section
variable {s : State}

/-- Where the environment has an event ahead, the step is that event. -/
theorem step_of_event {e : HostEvent} {rest : List HostEvent} (h : s.host = e :: rest) :
    step s = eventStep { s with host := rest } e := by rw [step, machineStep, h]

theorem State.irq_of_reset_low (hlow : s.rstN = false) : s.irq = false := by rw [State.irq, hlow, Bool.false_and]

/-- While `rst_n` is low an access, read or write, reaches nothing (R291). -/
theorem hostAccess_of_reset_low (hlow : s.rstN = false) (a : HostAccess) :
    hostAccess s a = .next (s.respond .unspecified) := by
  cases a with
  | read size addr => exact if_neg (by simp [hlow])
  | write size addr v => exact if_neg (by simp [hlow])

end

/-- Settles O60: each change of the pin is the event's own, and a low pin cuts off the port and `irq`. -/
theorem resetPinLeavesTheResetState : Obligations.ResetPinLeavesTheResetState := fun s rest =>
  ⟨step_of_event,
    fun hlow => ⟨State.irq_of_reset_low hlow, fun a hhost =>
      (step_of_event hhost).trans (hostAccess_of_reset_low (s := { s with host := rest }) hlow a)⟩,
    step_of_event⟩

/-! ### Commands that stop a run -/

section
variable {s t : State} (hbusy : t.busy ≠ s.busy)
include hbusy

/-- A command that is stopped by its checks or leaves STATUS.BUSY alone has changed it by its checks only. -/
theorem raised_of_busy_ne {done : Prop} (h : Raised s t ∨ done) (hgoes : done → t.busy = s.busy) : Raised s t :=
  h.resolve_right (hbusy ∘ hgoes)

theorem tileCommand_busy_ne {rd rs : TReg} {tb : TableSel} {i : Instr}
    (hi : i ∈ [Instr.fdct rd rs, .idct rd rs, .qnt rd rs tb, .dqnt rd rs tb, .zzs rd rs, .zzu rd rs])
    (h : exec i s = .next t) : Raised s t :=
  raised_of_busy_ne hbusy ((tileCommand_next hi h).imp_left fun ht => ⟨.eQtZero, by decide, ht⟩)
    fun ⟨_, _, ht, _⟩ => by simp [ht]

/-- A command that changes STATUS.BUSY is END, was stopped before any write, or is a channel pass stopped by its
stream (R265, R267). -/
theorem exec_busy_ne {i : Instr} (h : exec i s = .next t) :
    i = .endList ∨ Raised s t ∨
      (∃ ch tb r, i = .encc ch tb ∧ t = (s.havocPass r).stopError .eRleFull) ∨
      (∃ ch tb r, i = .decc ch tb ∧ t = (s.havocPass r).stopError .eRleTrunc) := by
  cases i with
  | endList => exact .inl rfl
  | nop => exact absurd (congrArg State.busy (complete_next.1 h)) hbusy
  | ccf => exact .inr (.inl (raised_of_busy_ne hbusy (execCcf_next h) fun ⟨_, _, _, ht⟩ => by simp [ht]))
  | cci => exact .inr (.inl (raised_of_busy_ne hbusy (execCci_next h) fun ⟨_, _, _, ht⟩ => by simp [ht]))
  | ldt rd ch inc => exact .inr (.inl (raised_of_busy_ne hbusy (execLdt_next h) fun ⟨_, ht⟩ => by simp [ht]))
  | stt rs ch inc =>
    exact .inr (.inl (raised_of_busy_ne hbusy (execStt_next h) fun ⟨_, _, _, ht⟩ => by simp [ht]))
  | fdct rd rs => exact .inr (.inl (tileCommand_busy_ne hbusy (rd := rd) (rs := rs) (tb := .luma) (by simp) h))
  | idct rd rs => exact .inr (.inl (tileCommand_busy_ne hbusy (rd := rd) (rs := rs) (tb := .luma) (by simp) h))
  | qnt rd rs tb => exact .inr (.inl (tileCommand_busy_ne hbusy (rd := rd) (rs := rs) (tb := tb) (by simp) h))
  | dqnt rd rs tb => exact .inr (.inl (tileCommand_busy_ne hbusy (rd := rd) (rs := rs) (tb := tb) (by simp) h))
  | zzs rd rs => exact .inr (.inl (tileCommand_busy_ne hbusy (rd := rd) (rs := rs) (tb := .luma) (by simp) h))
  | zzu rd rs => exact .inr (.inl (tileCommand_busy_ne hbusy (rd := rd) (rs := rs) (tb := .luma) (by simp) h))
  | rle rs => exact .inr (.inl (raised_of_busy_ne hbusy (execRle_next h) fun ⟨_, ht⟩ => by simp [ht]))
  | rld rd => exact .inr (.inl (raised_of_busy_ne hbusy (execRld_next h) fun ⟨_, _, ht⟩ => by simp [ht]))
  | encc ch tb =>
    rcases execEncc_next h with hraised | ⟨c, _, _, hstream | ⟨p, _, ht⟩⟩
    · exact .inr (.inl hraised)
    · exact .inr (.inr (.inl ⟨ch, tb, s.streamRegion, rfl, hstream⟩))
    · exact absurd (by simp [ht]) hbusy
  | decc ch tb =>
    rcases execDecc_next h with hraised | ⟨c, _, _, hstream | ⟨p, _, ht⟩⟩
    · exact .inr (.inl hraised)
    · exact .inr (.inr (.inr ⟨ch, tb, (s.plane c).region, rfl, hstream⟩))
    · exact absurd (by simp [ht]) hbusy

end

/-- Settles O18: a command checks before it writes, and only a channel pass can meet an error after that. -/
theorem aStoppedCommandHadNoEffect : Obligations.AStoppedCommandHadNoEffect := by
  intro i s t hbusy h hstop
  have hchanged : t.busy ≠ s.busy := by simp [hbusy, hstop]
  rcases exec_busy_ne hchanged h with hend | ⟨e, he, ht⟩ | ⟨ch, tb, r, hi, rfl⟩ | ⟨ch, tb, r, hi, rfl⟩
  · exact .inl hend
  · exact .inr (.inl ⟨e, he, ht⟩)
  · exact .inr (.inr (.inl ⟨ch, tb, hi, rfl, rfl⟩))
  · exact .inr (.inr (.inr ⟨ch, tb, hi, rfl, rfl⟩))

end Sys2Proof.Machine
end
